-- ==== Sys2Proof/Word.lean ====
section
/-! DEFINITION. The unit of the command stream (the byte), the exact numbers of spec R7, decimal digits, and the
characters of the grammar as ASCII bytes (spec R55). -/

namespace Sys2Proof

/-- One byte of the command stream (spec R44, R46: every stream access is one byte wide). -/
abbrev Byte := BitVec 8

/-- `NUM` of spec R6: exact rationals; no rule rounds (spec R7). -/
abbrev Quantity := Rat

/-- A decimal digit, most significant first in a literal (spec R44, R59). -/
abbrev Digit := Fin 10

/-! The characters of the grammar, spec R55. -/

abbrev Ch.tab : Byte := 0x09#8
abbrev Ch.lineFeed : Byte := 0x0A#8
abbrev Ch.verticalTab : Byte := 0x0B#8
abbrev Ch.formFeed : Byte := 0x0C#8
abbrev Ch.carriageReturn : Byte := 0x0D#8
abbrev Ch.space : Byte := 0x20#8
abbrev Ch.hash : Byte := 0x23#8
abbrev Ch.comma : Byte := 0x2C#8
abbrev Ch.point : Byte := 0x2E#8
abbrev Ch.slash : Byte := 0x2F#8
abbrev Ch.bigA : Byte := 0x41#8
abbrev Ch.bigC : Byte := 0x43#8
abbrev Ch.bigN : Byte := 0x4E#8
abbrev Ch.bigP : Byte := 0x50#8
abbrev Ch.bigR : Byte := 0x52#8
abbrev Ch.bigT : Byte := 0x54#8
abbrev Ch.bigV : Byte := 0x56#8
abbrev Ch.bigW : Byte := 0x57#8
abbrev Ch.smallA : Byte := 0x61#8
abbrev Ch.smallN : Byte := 0x6E#8
abbrev Ch.smallP : Byte := 0x70#8
abbrev Ch.smallQ : Byte := 0x71#8
abbrev Ch.smallS : Byte := 0x73#8
abbrev Ch.smallT : Byte := 0x74#8
abbrev Ch.smallV : Byte := 0x76#8

end Sys2Proof
end

