-- ==== Sys2Proof/Config.lean ====
section
/-! DEFINITION. What is fixed for a run and what the spec leaves open: the parameters of spec R6 and the free values
of spec R79 and R80. -/

namespace Sys2Proof

/-- The OPEN parameters of spec R6 (and the replaceable table of R84): an argument of the model. State carries one
(the CFG strap of spec R5), no step writes it, and every statement about every state holds for every value of it. -/
structure Config where
  /-- `SAMPLE_RATE`, samples per second (spec R6, R31). -/
  sampleRate : Nat
  /-- `MAX_VOICES`, capacity of the voice bank (spec R6, D8). -/
  maxVoices : Nat
  /-- `INIT_VOICES`, voice count after reset (spec R6, D7). -/
  initVoices : Nat
  /-- `INIT_SAMPLES_PER_TICK`, tick length after reset (spec R6, D7). -/
  initSamplesPerTick : Nat
  /-- `BASE_FREQ[0..11]`, Hz of notes 0 to 11 (spec R84: "a configuration parameter"). -/
  baseFreq : Vector Quantity 12
  /-- `INT_MAX` (spec R6, U8): `none` is the rules' unbounded naturals. Log 8. -/
  intMax : Option Nat
  /-- `COUNTER_BITS` (spec R6, U18): `none` is the rules' unbounded naturals. Log 8. -/
  counterBits : Option Nat
  deriving DecidableEq, Repr

/-- The domains of spec R6: what a strap must satisfy. DESIGN CHOICE (log 29), safe: R6's `BASE_FREQ[0]` ≈ 8.1758 states
no tolerance, so entry 0 is only positive here, as every entry but the exact entry 9. -/
abbrev Config.Valid (c : Config) : Prop :=
  1 ≤ c.sampleRate ∧ 1 ≤ c.initVoices ∧ c.initVoices ≤ c.maxVoices ∧ 1 ≤ c.initSamplesPerTick ∧
  (∀ n : Fin 12, 0 < c.baseFreq[n]) ∧ c.baseFreq[9] = 55 / 4 ∧
  (∀ m ∈ c.intMax, 127 ≤ m)

/-- The table of spec R84: the standard mapping to ten decimal places; entry 9 is exact. Log 7. -/
def Config.standardBaseFreq : Vector Quantity 12 :=
  #v[81757989156 / 10000000000, 86619572180 / 10000000000, 91770239974 / 10000000000,
     97227182413 / 10000000000, 103008611535 / 10000000000, 109133822323 / 10000000000,
     115623257097 / 10000000000, 122498573744 / 10000000000, 129782717994 / 10000000000,
     55 / 4, 145676175474 / 10000000000, 154338531643 / 10000000000]

/-- DESIGN CHOICE (log 6), unsafe: the strap `State.reset` takes, the standard start of spec/95_test_vectors.md
(SAMPLE_RATE 1000, INIT_VOICES 1, INIT_SAMPLES_PER_TICK 4, MAX_VOICES 16). -/
def Config.standard : Config where
  sampleRate := 1000
  maxVoices := 16
  initVoices := 1
  initSamplesPerTick := 4
  baseFreq := Config.standardBaseFreq
  intMax := none
  counterBits := none

/-! The decided parameters of spec R6. -/

/-- `DEF_PHASE` (spec R6, D6). -/
def Config.defPhase : Quantity := 0
/-- `DEF_PHASE_INC` (spec R6, D6). -/
def Config.defPhaseInc : Quantity := 0
/-- `DEF_PARAMETER` (spec R6, D6). -/
def Config.defParameter : Quantity := 1 / 2
/-- `DEF_PARAM_INC` (spec R6, R18: "currently always 0"). -/
def Config.defParamInc : Quantity := 0
/-- `DEF_VELOCITY` (spec R6, D6). -/
def Config.defVelocity : Quantity := 1
/-- `DEF_ADSR`, attack in milliseconds (spec R6, R19). -/
def Config.defAttack : Quantity := 15
/-- `DEF_ADSR`, decay in milliseconds (spec R6, R19). -/
def Config.defDecay : Quantity := 40
/-- `DEF_ADSR`, sustain ratio (spec R6, R20). -/
def Config.defSustain : Quantity := 7 / 10
/-- `DEF_ADSR`, release in milliseconds (spec R6, R19). -/
def Config.defRelease : Quantity := 10
/-- `WS`, the bytes skipped between commands (spec R57, D11). -/
def Config.whitespace : List Byte :=
  [Ch.tab, Ch.lineFeed, Ch.verticalTab, Ch.formFeed, Ch.carriageReturn, Ch.space]
/-- `MAX_CHAIN`, cap on chained envelope transitions per attempt (spec R6, R101). -/
def Config.maxChain : Nat := 2

/-! Free values: no body, so no proof can see one. -/

/-- FREE VALUE, source of the `k`-th NOISE draw (spec R80, U1, D4). The draw is this value brought into [-1, +1]
(`Machine.noiseDraw`), so that its range is a fact and nothing else about it is. Log 9. -/
opaque Config.freeNoise : Nat → Quantity

/-- FREE VALUE, the `k`-th unspecified Saw sample, any rational (spec R79, U4, D20). Log 10. -/
opaque Config.freeSaw : Nat → Quantity

end Sys2Proof
end

