-- ==== Sys2Proof/Machine/FaultCodes.lean ====
section
/-! DEFINITION. The vocabulary of the fault record: codes (spec R145), expected descriptors (R146), the offending
byte and value (R147). -/

namespace Sys2Proof.Machine

/-- The fault codes of spec R145. -/
inductive FaultCode where
  | eAlloc | eSyntax | eVoice | eEof | eNote | eConfig
  deriving DecidableEq, Repr

/-- The number of a code, spec R145 (0 is not used). -/
def FaultCode.number : FaultCode → Nat
  | .eAlloc => 1
  | .eSyntax => 2
  | .eVoice => 3
  | .eEof => 4
  | .eNote => 5
  | .eConfig => 6

/-- The `exp` field, spec R146: what the decoder would have accepted; `nothing` is the table's `none`. -/
inductive Expected where
  | nothing | command | configLetter | slashSuffix | waveLetter | digit | digitOrPoint
  | char (ch : Byte)
  deriving DecidableEq, Repr

/-- The `got` field, spec R147: the offending byte, `Eof`, or `none` for a value fault. -/
inductive Got where
  | nothing | eof
  | byte (b : Byte)
  deriving DecidableEq, Repr

/-- The `aux` field, spec R147: none, the offending value, or (requested index, voice count). -/
inductive Aux where
  | nothing
  | value (n : Nat)
  | pair (requested count : Nat)
  deriving DecidableEq, Repr

/-- The arguments of `raise Fatal` for a spelling fault (spec R151, R154; `aux` is none). -/
structure Spelling where
  code : FaultCode
  got : Got
  exp : Expected
  deriving DecidableEq, Repr

end Sys2Proof.Machine
end

