-- ==== Sys2Proof/Syntax.lean ====
section
/-! DEFINITION. The commands of spec R62 and the skipped items, one constructor per row of spec/opcode_table.json.
Literals are kept as they are spelled (log 17), so that no byte of a command is lost by decoding. -/

namespace Sys2Proof

/-- An integer literal `<int>` as spelled: its digits, most significant first (spec R59). -/
structure IntLit where
  digits : List Digit
  deriving DecidableEq, Repr

/-- A float literal `<f>` as spelled (spec R60): the digits before the point and, when a point was written, the digits
after it. -/
structure FloatLit where
  whole : List Digit
  frac : Option (List Digit)
  deriving DecidableEq, Repr

/-- One item of the command stream (spec R56). -/
inductive Instr where
  /-- `Cv<int>`, spec R127. -/
  | cv (n : IntLit)
  /-- `Ct<int>`, spec R128. -/
  | ct (tpm : IntLit)
  /-- `//` (TICK), spec R129. -/
  | tick
  /-- `/q` (QUIT), spec R130. -/
  | quit
  /-- `/a` (SEL_ALL), spec R131. -/
  | selAll
  /-- `/<int>` (SEL), spec R132. -/
  | sel (n : IntLit)
  /-- `A<f>,<f>,<f>,<f>`, spec R135. -/
  | adsr (a d s r : FloatLit)
  /-- `P<f>`, spec R136. -/
  | param (f : FloatLit)
  /-- `V<f>`, spec R137. -/
  | vel (f : FloatLit)
  /-- `N<int>`, spec R138. -/
  | note (n : IntLit)
  /-- `Wp`, spec R139. -/
  | wavePulse
  /-- `Ws`, spec R140. -/
  | waveSaw
  /-- `Wn`, spec R141. -/
  | waveNoise
  /-- `T`, spec R142. -/
  | trigger
  /-- `R`, spec R143. -/
  | release
  /-- `#...\n`, spec R133: the bytes between `#` and its end; `closed` when a line feed ended it (and was consumed),
  not `closed` when end of input did (spec R70). -/
  | comment (body : List Byte) (closed : Bool)
  /-- Whitespace 0x09, spec R134. -/
  | wsTab
  /-- Whitespace 0x0A, spec R134. -/
  | wsLineFeed
  /-- Whitespace 0x0B, spec R134. -/
  | wsVerticalTab
  /-- Whitespace 0x0C, spec R134. -/
  | wsFormFeed
  /-- Whitespace 0x0D, spec R134. -/
  | wsCarriageReturn
  /-- Whitespace 0x20, spec R134. -/
  | wsSpace
  deriving DecidableEq, Repr

end Sys2Proof
end

