-- ==== Sys2Proof/WellFormed.lean ====
section
/-! DEFINITION. Which terms of `Instr` are spellings: the checks of spec R59, R60 and R70. -/

namespace Sys2Proof

/-- Spec R59: "one or more decimal digits". -/
def IntLit.wf (l : IntLit) : Bool := !l.digits.isEmpty

/-- Spec R60: "at least one digit", before or after the point. -/
def FloatLit.wf (l : FloatLit) : Bool :=
  !l.whole.isEmpty || (match l.frac with | none => false | some ds => !ds.isEmpty)

/-- A term a byte string spells. The body of a comment holds no line feed (spec R70: it runs to the first 0x0A). -/
def Instr.wf : Instr → Bool
  | .cv n => n.wf
  | .ct n => n.wf
  | .tick => true
  | .quit => true
  | .selAll => true
  | .sel n => n.wf
  | .adsr a d s r => a.wf && d.wf && s.wf && r.wf
  | .param f => f.wf
  | .vel f => f.wf
  | .note n => n.wf
  | .wavePulse => true
  | .waveSaw => true
  | .waveNoise => true
  | .trigger => true
  | .release => true
  | .comment body _ => !body.contains Ch.lineFeed
  | .wsTab => true
  | .wsLineFeed => true
  | .wsVerticalTab => true
  | .wsFormFeed => true
  | .wsCarriageReturn => true
  | .wsSpace => true

end Sys2Proof
end

