-- ==== Sys2Proof/Decode.lean ====
section
/-! DEFINITION. The decoder of spec R73, total on any bytes, and the encoder (spec R62). The decoder reads the bytes
delivered from the cursor on, and whether the host has signalled end of input after them (spec R42). -/

namespace Sys2Proof

open Machine (FaultCode Expected Got Spelling)

/-- What a parser answers: a value and the bytes after it; a spelling fault and the bytes from the offending one on
(spec R151: not consumed); or `wait`, the bytes it needs have not been delivered (spec R42, R116: not enabled). -/
inductive Parse (α : Type) where
  | ok (a : α) (rest : List Byte)
  | fatal (f : Spelling) (rest : List Byte)
  | wait
  deriving DecidableEq, Repr

/-- One parser after another. -/
def Parse.andThen {α β : Type} (p : Parse α) (k : α → List Byte → Parse β) : Parse β :=
  match p with
  | .ok a rest => k a rest
  | .fatal f rest => .fatal f rest
  | .wait => .wait

/-- `CmdPeek()` where a byte is required (spec R42): `Eof` is the fault E_EOF (spec R154), an undelivered byte a wait. -/
def needByte {α : Type} (ended : Bool) (exp : Expected) (bs : List Byte)
    (k : Byte → List Byte → Parse α) : Parse α :=
  match bs with
  | [] => if ended then .fatal ⟨.eEof, .eof, exp⟩ [] else .wait
  | b :: t => k b t

/-- E_SYNTAX at the first byte of `bs` (spec R151). -/
def unexpected {α : Type} (exp : Expected) (b : Byte) (t : List Byte) : Parse α :=
  .fatal ⟨.eSyntax, .byte b, exp⟩ (b :: t)

/-- The digit a byte `'0'..'9'` spells, 0x30..0x39 (spec R55, R59). -/
def digitOf (b : Byte) : Option Digit :=
  if h : 0x30 ≤ b.toNat ∧ b.toNat - 0x30 < 10 then some ⟨b.toNat - 0x30, h.2⟩ else none

/-- The byte of a digit. -/
def digitByte (d : Digit) : Byte := BitVec.ofNat 8 (0x30 + d.val)

/-- The longest run of digits at the head of `bs`, and the bytes after it (spec R59: "greedy"). -/
def takeDigits : List Byte → List Digit × List Byte
  | [] => ([], [])
  | b :: bs =>
    match digitOf b with
    | some d => let r := takeDigits bs; (d :: r.1, r.2)
    | none => ([], b :: bs)

/-- A literal ends on a `CmdPeek()` (spec R61): when no byte follows and end of input is not signalled, the parser
must wait to know where the literal ends. -/
def endLiteral {α : Type} (ended : Bool) (a : α) (rest : List Byte) : Parse α :=
  match rest with
  | [] => if ended then .ok a [] else .wait
  | b :: t => .ok a (b :: t)

/-- `ParseInt()`, spec R59. -/
def parseInt (ended : Bool) (bs : List Byte) : Parse IntLit :=
  needByte ended .digit bs fun b t =>
    match digitOf b with
    | none => unexpected .digit b t
    | some _ => let r := takeDigits bs; endLiteral ended ⟨r.1⟩ r.2

/-- The end of a float literal after its point (spec R60): with no digit on either side it was the byte `.` alone. -/
def endFraction (ended : Bool) (whole frac : List Digit) (rest : List Byte) : Parse FloatLit :=
  if whole.isEmpty && frac.isEmpty then
    needByte ended .digit rest fun b t => unexpected .digit b t
  else endLiteral ended ⟨whole, some frac⟩ rest

/-- `ParseFloat()`, spec R60: digits, at most one point, digits. -/
def parseFloat (ended : Bool) (bs : List Byte) : Parse FloatLit :=
  needByte ended .digitOrPoint bs fun b t =>
    if (digitOf b).isNone && b != Ch.point then unexpected .digitOrPoint b t
    else
      let w := takeDigits bs
      match w.2 with
      | [] => endLiteral ended ⟨w.1, none⟩ []
      | c :: t' =>
        if c = Ch.point then
          let f := takeDigits t'
          endFraction ended w.1 f.1 f.2
        else endLiteral ended ⟨w.1, none⟩ (c :: t')

/-- `Expect(ch)`, spec R61. -/
def expectByte (ended : Bool) (ch : Byte) (bs : List Byte) : Parse Unit :=
  needByte ended (.char ch) bs fun b t => if b = ch then .ok () t else unexpected (.char ch) b t

/-- The body of a comment (spec R70, R73): up to and including the first 0x0A, or up to end of input. -/
def parseComment (ended : Bool) : List Byte → Parse (List Byte × Bool)
  | [] => if ended then .ok ([], false) [] else .wait
  | b :: bs =>
    if b = Ch.lineFeed then .ok ([], true) bs
    else (parseComment ended bs).andThen fun r rest => .ok (b :: r.1, r.2) rest

/-- The operands of `A`: four float literals, three commas (spec R65). -/
def parseAdsr (ended : Bool) (bs : List Byte) : Parse Instr :=
  (parseFloat ended bs).andThen fun a r1 =>
  (expectByte ended Ch.comma r1).andThen fun _ r2 =>
  (parseFloat ended r2).andThen fun d r3 =>
  (expectByte ended Ch.comma r3).andThen fun _ r4 =>
  (parseFloat ended r4).andThen fun s r5 =>
  (expectByte ended Ch.comma r5).andThen fun _ r6 =>
  (parseFloat ended r6).andThen fun r rest => .ok (.adsr a d s r) rest

/-- After `C`, spec R64. -/
def decodeConfig (ended : Bool) (bs : List Byte) : Parse Instr :=
  needByte ended .configLetter bs fun b t =>
    if b = Ch.smallV then (parseInt ended t).andThen fun n rest => .ok (.cv n) rest
    else if b = Ch.smallT then (parseInt ended t).andThen fun n rest => .ok (.ct n) rest
    else unexpected .configLetter b t

/-- After `/`, spec R64: a digit is the first of the operand and is not consumed by the dispatch. -/
def decodeSlash (ended : Bool) (bs : List Byte) : Parse Instr :=
  needByte ended .slashSuffix bs fun b t =>
    if b = Ch.slash then .ok .tick t
    else if b = Ch.smallQ then .ok .quit t
    else if b = Ch.smallA then .ok .selAll t
    else if (digitOf b).isSome then (parseInt ended bs).andThen fun n rest => .ok (.sel n) rest
    else unexpected .slashSuffix b t

/-- After `W`, spec R64. -/
def decodeWave (ended : Bool) (bs : List Byte) : Parse Instr :=
  needByte ended .waveLetter bs fun b t =>
    if b = Ch.smallP then .ok .wavePulse t
    else if b = Ch.smallS then .ok .waveSaw t
    else if b = Ch.smallN then .ok .waveNoise t
    else unexpected .waveLetter b t

/-- `DecodeItem()`, spec R73, with the first-byte dispatch of spec R63: an item, a spelling fault, or a wait. -/
def decode (ended : Bool) (bs : List Byte) : Parse Instr :=
  needByte ended .command bs fun b t =>
    if b = Ch.tab then .ok .wsTab t
    else if b = Ch.lineFeed then .ok .wsLineFeed t
    else if b = Ch.verticalTab then .ok .wsVerticalTab t
    else if b = Ch.formFeed then .ok .wsFormFeed t
    else if b = Ch.carriageReturn then .ok .wsCarriageReturn t
    else if b = Ch.space then .ok .wsSpace t
    else if b = Ch.hash then (parseComment ended t).andThen fun r rest => .ok (.comment r.1 r.2) rest
    else if b = Ch.slash then decodeSlash ended t
    else if b = Ch.bigA then parseAdsr ended t
    else if b = Ch.bigC then decodeConfig ended t
    else if b = Ch.bigN then (parseInt ended t).andThen fun n rest => .ok (.note n) rest
    else if b = Ch.bigP then (parseFloat ended t).andThen fun f rest => .ok (.param f) rest
    else if b = Ch.bigR then .ok .release t
    else if b = Ch.bigT then .ok .trigger t
    else if b = Ch.bigV then (parseFloat ended t).andThen fun f rest => .ok (.vel f) rest
    else if b = Ch.bigW then decodeWave ended t
    else unexpected .command b t

/-! The encoder. -/

/-- The bytes of an integer literal (spec R59). -/
def encodeInt (l : IntLit) : List Byte := l.digits.map digitByte

/-- The bytes of a float literal (spec R60). -/
def encodeFloat (l : FloatLit) : List Byte :=
  l.whole.map digitByte ++
    match l.frac with
    | none => []
    | some ds => Ch.point :: ds.map digitByte

/-- The bytes of an item, by the formats of spec R62. -/
def encode : Instr → List Byte
  | .cv n => Ch.bigC :: Ch.smallV :: encodeInt n
  | .ct n => Ch.bigC :: Ch.smallT :: encodeInt n
  | .tick => [Ch.slash, Ch.slash]
  | .quit => [Ch.slash, Ch.smallQ]
  | .selAll => [Ch.slash, Ch.smallA]
  | .sel n => Ch.slash :: encodeInt n
  | .adsr a d s r =>
    Ch.bigA :: (encodeFloat a ++ Ch.comma :: (encodeFloat d ++ Ch.comma ::
      (encodeFloat s ++ Ch.comma :: encodeFloat r)))
  | .param f => Ch.bigP :: encodeFloat f
  | .vel f => Ch.bigV :: encodeFloat f
  | .note n => Ch.bigN :: encodeInt n
  | .wavePulse => [Ch.bigW, Ch.smallP]
  | .waveSaw => [Ch.bigW, Ch.smallS]
  | .waveNoise => [Ch.bigW, Ch.smallN]
  | .trigger => [Ch.bigT]
  | .release => [Ch.bigR]
  | .comment body closed => Ch.hash :: (body ++ if closed then [Ch.lineFeed] else [])
  | .wsTab => [Ch.tab]
  | .wsLineFeed => [Ch.lineFeed]
  | .wsVerticalTab => [Ch.verticalTab]
  | .wsFormFeed => [Ch.formFeed]
  | .wsCarriageReturn => [Ch.carriageReturn]
  | .wsSpace => [Ch.space]

/-- The fixed leading bytes of the item's row in spec/opcode_table.json (its `match` column, spec R74). -/
def tableMatch : Instr → List Byte
  | .cv _ => [0x43#8, 0x76#8]
  | .ct _ => [0x43#8, 0x74#8]
  | .tick => [0x2F#8, 0x2F#8]
  | .quit => [0x2F#8, 0x71#8]
  | .selAll => [0x2F#8, 0x61#8]
  | .sel _ => [0x2F#8]
  | .adsr _ _ _ _ => [0x41#8]
  | .param _ => [0x50#8]
  | .vel _ => [0x56#8]
  | .note _ => [0x4E#8]
  | .wavePulse => [0x57#8, 0x70#8]
  | .waveSaw => [0x57#8, 0x73#8]
  | .waveNoise => [0x57#8, 0x6E#8]
  | .trigger => [0x54#8]
  | .release => [0x52#8]
  | .comment _ _ => [0x23#8]
  | .wsTab => [0x09#8]
  | .wsLineFeed => [0x0A#8]
  | .wsVerticalTab => [0x0B#8]
  | .wsFormFeed => [0x0C#8]
  | .wsCarriageReturn => [0x0D#8]
  | .wsSpace => [0x20#8]

/-- `rest` does not extend an integer literal: it starts with a byte that is no digit, or input has ended (spec R59,
R61). -/
def endsInt (ended : Bool) : List Byte → Bool
  | [] => ended
  | b :: _ => (digitOf b).isNone

/-- `rest` does not extend the float literal `l` (spec R60: a second point ends the literal, a first one does not). -/
def endsFloat (ended : Bool) (l : FloatLit) : List Byte → Bool
  | [] => ended
  | b :: _ => (digitOf b).isNone && (l.frac.isSome || b != Ch.point)

/-- The stream after the item's bytes leaves the item as it is: nothing is required but after a trailing literal
(spec R61) and after a comment that end of input closes (spec R70). -/
def Instr.endedBy (i : Instr) (ended : Bool) (rest : List Byte) : Bool :=
  match i with
  | .cv _ => endsInt ended rest
  | .ct _ => endsInt ended rest
  | .tick => true
  | .quit => true
  | .selAll => true
  | .sel _ => endsInt ended rest
  | .adsr _ _ _ r => endsFloat ended r rest
  | .param f => endsFloat ended f rest
  | .vel f => endsFloat ended f rest
  | .note _ => endsInt ended rest
  | .wavePulse => true
  | .waveSaw => true
  | .waveNoise => true
  | .trigger => true
  | .release => true
  | .comment _ closed => closed || (rest.isEmpty && ended)
  | .wsTab => true
  | .wsLineFeed => true
  | .wsVerticalTab => true
  | .wsFormFeed => true
  | .wsCarriageReturn => true
  | .wsSpace => true

/-! The opcode table's words. -/

/-- The first `n` bytes of a word, the first byte in bits 7..0, the second in bits 15..8 (log 3). -/
def wordBytes : Nat → Nat → List Byte
  | 0, _ => []
  | n + 1, w => BitVec.ofNat 8 w :: wordBytes n (w / 256)

/-- What may complete a table word that leaves an operand no bits (log 3): nothing; the integer or single float
operand zero; the four float operands zero; the line feed that closes a comment. -/
def tableCompletions : List (List Byte) :=
  [[], [0x30#8], [0x30#8, Ch.comma, 0x30#8, Ch.comma, 0x30#8, Ch.comma, 0x30#8], [Ch.lineFeed]]

/-- The bytes of a table word. The two numberings of its bytes (log 3), the first byte in bits 7..0 and, as spec R74 has
the `match` column, the first byte most significant, are tried in that order, each under every completion, and the first
that is an item is taken; then a zero byte follows (the bits above `nbits`), which ends a trailing literal. Where none
is an item: the bytes in the first numbering and the zero byte. No row's word is an item in both numberings but `//`,
which is the same in both. -/
def tableBytes (nbits w : Nat) : List Byte :=
  let bs := wordBytes (nbits / 8) w
  let isItem (c : List Byte) : Bool :=
    match decode false (c ++ [0x00#8]) with
    | .ok _ _ => true
    | .fatal _ _ => false
    | .wait => false
  match (tableCompletions.map (bs ++ ·) ++ tableCompletions.map (bs.reverse ++ ·)).find? isItem with
  | some c => c ++ [0x00#8]
  | none => bs ++ [0x00#8]

/-- The instruction the decoder reads from the opcode-table word `w` of `nbits` bits (log 3). -/
def decodeTableWord (nbits w : Nat) : Option Instr :=
  match decode false (tableBytes nbits w) with
  | .ok i _ => some i
  | .fatal _ _ => none
  | .wait => none

end Sys2Proof
end

