-- ==== Sys2Proof/Machine/Registers.lean ====
section
/-! DEFINITION. The records State is made of: the registers of a voice (spec R14 to R25), the sequencer's registers
(R28 to R35), the fault record (R147), the pair on SMP (R123), and voice initialisation (R105). -/

namespace Sys2Proof.Machine

/-- Spec R14. -/
inductive Waveform where
  | pulseWidth | saw | noise
  deriving DecidableEq, Repr

/-- Spec R21. -/
inductive EnvState where
  | off | attack | attackReleasing | decay | sustain | release
  deriving DecidableEq, Repr

/-- Spec R35. -/
inductive Mode where
  | parse | emit | stopped | faulted
  deriving DecidableEq, Repr

/-- Spec R28. -/
inductive Selector where
  | single (i : Nat)
  | all
  deriving DecidableEq, Repr

/-- The oscillator registers of a voice. -/
structure Osc where
  /-- Spec R14. -/
  waveform : Waveform
  /-- Spec R15. -/
  phase : Quantity
  /-- Spec R16. -/
  phasePerSample : Quantity
  /-- Spec R17. -/
  parameter : Quantity
  /-- Spec R18. -/
  parameterPerSample : Quantity
  deriving DecidableEq, Repr

/-- The envelope registers of a voice. -/
structure Env where
  /-- Spec R19, milliseconds. -/
  attack : Quantity
  /-- Spec R19, milliseconds. -/
  decay : Quantity
  /-- Spec R20, a ratio. -/
  sustain : Quantity
  /-- Spec R19, milliseconds. -/
  release : Quantity
  /-- Spec R21. -/
  state : EnvState
  /-- Spec R22. -/
  samplesInState : Nat
  /-- Spec R23. -/
  samplesDone : Nat
  /-- Spec R24. -/
  releaseLevel : Quantity
  deriving DecidableEq, Repr

/-- A voice (spec R26: "Exactly one Oscillator, one Envelope (exclusively owned), plus `velocity`"). -/
structure Voice where
  osc : Osc
  env : Env
  /-- Spec R25. -/
  velocity : Quantity
  deriving DecidableEq, Repr

/-- The sequencer registers; `seq.n_voices` is the length of State's voice bank (spec R27, log 15). -/
structure SeqRegs where
  /-- Spec R28. -/
  sel : Selector
  /-- Spec R29. -/
  samplesPerTick : Nat
  /-- Spec R30. -/
  samplesDone : Nat
  /-- Spec R34. -/
  shouldStop : Bool
  /-- Spec R35. -/
  mode : Mode
  /-- Spec R32, the program counter. -/
  pos : Nat
  /-- Spec R33. -/
  line : Nat
  /-- Spec R33. -/
  col : Nat
  deriving DecidableEq, Repr

/-- Spec R147. -/
structure FaultRecord where
  code : FaultCode
  line : Nat
  col : Nat
  got : Got
  exp : Expected
  aux : Aux
  deriving DecidableEq, Repr

/-- What one emit step delivers on SMP (spec R123). -/
structure Sample where
  value : Quantity
  shouldStop : Bool
  deriving DecidableEq, Repr

/-- How many free values have been taken (the model's own, log 11): the next NOISE draw (spec R80) and the next
unspecified Saw value (spec R79). -/
structure Draws where
  noise : Nat
  saw : Nat
  deriving DecidableEq, Repr

/-- `VoiceInit`, spec R105: the same at reset and at `Cv`. -/
def voiceInit : Voice where
  osc :=
    { waveform := .pulseWidth
      phase := Config.defPhase
      phasePerSample := Config.defPhaseInc
      parameter := Config.defParameter
      parameterPerSample := Config.defParamInc }
  env :=
    { attack := Config.defAttack
      decay := Config.defDecay
      sustain := Config.defSustain
      release := Config.defRelease
      state := .off
      samplesInState := 0
      samplesDone := 0
      releaseLevel := 0 }
  velocity := Config.defVelocity

/-- The sequencer registers after reset (spec R166) with `n` samples per tick. -/
def seqInit (n : Nat) : SeqRegs where
  sel := .single 0
  samplesPerTick := n
  samplesDone := 0
  shouldStop := false
  mode := .parse
  pos := 0
  line := 1
  col := 1

end Sys2Proof.Machine
end

