-- ==== Sys2Proof/Machine/State.lean ====
section
/-! DEFINITION. The state of the machine (spec R13) with the interfaces of spec R5, the reasons a step can stop, and
reset (spec R166). -/

namespace Sys2Proof.Machine

/-- The delivered command stream (spec R40 to R42): (offset, byte) pairs, offsets strictly rising; an offset that is
not listed holds no delivered byte. -/
abbrev Memory := List Host.Cell

/-- The whole machine as plain data. -/
structure State where
  /-- CFG (spec R5, R31): the configuration strap; no step writes it (log 6). -/
  cfg : Config
  /-- CMD (spec R40 to R42): the bytes the host has delivered. -/
  mem : Memory
  /-- CMD (spec R5, R42): the host has signalled end of input. -/
  cmdEnded : Bool
  /-- SMP (spec R118): the host can accept a sample. -/
  smpReady : Bool
  /-- The voice bank (spec R26). -/
  voices : List Voice
  /-- The sequencer registers (spec R28 to R35). -/
  seq : SeqRegs
  /-- The fault register (spec R36). -/
  fault : Option FaultRecord
  /-- SMP (spec R11, R123): the pairs delivered so far, oldest first (log 14). -/
  smp : List Sample
  /-- FLT (spec R11, R148): the records delivered so far, oldest first (log 14). -/
  flt : List FaultRecord
  /-- The model's own: free values taken so far (log 11). -/
  draws : Draws
  deriving DecidableEq, Repr

/-- Why the machine has no step. -/
inductive Fault where
  /-- Raised by `step` in mode Stopped: "no step" (spec R119). Safe: the spec gives no step there. -/
  | stopped
  /-- Raised by `step` in mode Faulted: "no step" (spec R119). Safe: the spec gives no step there. -/
  | faulted
  deriving DecidableEq, Repr

/-- What the model does not accept. -/
inductive Refusal where
  /-- Raised by an arm of `exec` that has no meaning yet (none has). Safe. -/
  | notModelled (mnemonic : String)
  /-- Raised by `step` on an integer literal above a set INT_MAX (spec U8: "refuse"). Safe. Log 8. -/
  | literalAboveIntMax
  /-- Raised by `step` where a counter would pass a set COUNTER_BITS (spec U18: "`refuse`d"). Safe. Log 8. -/
  | counterOverflow
  /-- Raised by the host operation that delivers a byte after end of input (spec R165: "must not"). Safe. Log 26. -/
  | byteAfterEnd
  deriving DecidableEq, Repr

/-- `Reset()`, spec R166, with the configuration strapped on CFG: a new run on a new stream. -/
def State.resetWith (c : Config) : State where
  cfg := c
  mem := []
  cmdEnded := false
  smpReady := true
  voices := List.replicate c.initVoices voiceInit
  seq := seqInit c.initSamplesPerTick
  fault := none
  smp := []
  flt := []
  draws := ⟨0, 0⟩

/-- The machine right after reset (spec R39, R166), with the strap of log 6. -/
def State.reset : State := State.resetWith Config.standard

end Sys2Proof.Machine
end

