-- ==== Sys2Proof/Machine/Ops.lean ====
section
/-! DEFINITION. The named operations over the command stream and the registers: reading and delivering bytes (spec
R40 to R43), the cursor (R32, R33, R43), and fault entry (R148). There is no return from a fault to stand beside it:
"There is no return from a fault and no nesting" (spec R159). -/

namespace Sys2Proof.Machine

/-! The delivered stream. -/

/-- The byte delivered at offset `a`, if one has been. -/
def Memory.read : Memory → Nat → Option Byte
  | [], _ => none
  | (x, b) :: m, a => if x = a then some b else Memory.read m a

/-- The stream with the byte `b` at offset `a`; offsets stay strictly rising. -/
def Memory.write : Memory → Nat → Byte → Memory
  | [], a, b => [(a, b)]
  | (x, c) :: m, a, b =>
    if a < x then (a, b) :: (x, c) :: m
    else if a = x then (a, b) :: m
    else (x, c) :: Memory.write m a b

/-- Every offset is at least `lo` and each is above the one before it. -/
def Memory.risingFrom : Nat → Memory → Bool
  | _, [] => true
  | lo, (x, _) :: m => decide (lo ≤ x) && Memory.risingFrom (x + 1) m

/-- The canonical form: offsets strictly rising. (No byte is what an unlisted offset reads as: that is no byte.) -/
def Memory.wf (m : Memory) : Bool := Memory.risingFrom 0 m

/-- The delivered bytes at offsets `a`, `a + 1`, ... up to the first offset not delivered. -/
def Memory.bytesFrom : Memory → Nat → List Byte
  | [], _ => []
  | (x, b) :: m, a =>
    if x < a then Memory.bytesFrom m a
    else if x = a then b :: Memory.bytesFrom m (a + 1)
    else []

/-- The stream with the bytes `bs` at offsets `a`, `a + 1`, ... -/
def Memory.writeAll : Memory → Nat → List Byte → Memory
  | m, _, [] => m
  | m, a, b :: bs => Memory.writeAll (Memory.write m a b) (a + 1) bs

/-- The offset after the last delivered byte: `L` of spec R41 once input has ended. -/
def Memory.nextOffset (m : Memory) : Nat :=
  match m.getLast? with
  | none => 0
  | some c => c.1 + 1

/-- The offsets 0, 1, ... have been delivered without a gap (spec R41, R165: "in stream order, each once"). -/
def Memory.contiguous (m : Memory) : Bool := m.map (·.1) == List.range m.length

/-! CmdPeek and CmdTake. -/

/-- What `CmdPeek()` finds (spec R42). -/
inductive Peek where
  | byte (b : Byte)
  | eof
  /-- Neither a byte nor end of input has been delivered: the step that asked is not enabled. -/
  | undelivered
  deriving DecidableEq, Repr

/-- `CmdPeek()`, spec R42. -/
def cmdPeek (s : State) : Peek :=
  match s.mem.read s.seq.pos with
  | some b => .byte b
  | none => if s.cmdEnded then .eof else .undelivered

/-- The cursor after the byte `b` is consumed (spec R33, R43): 0x0A starts a new line, any other byte a new column. -/
def SeqRegs.advance (q : SeqRegs) (b : Byte) : SeqRegs :=
  if b = Ch.lineFeed then { q with pos := q.pos + 1, line := q.line + 1, col := 1 }
  else { q with pos := q.pos + 1, col := q.col + 1 }

/-- `CmdTake()`, spec R43: consumes the byte at the cursor. Its precondition is `CmdPeek() = Byte(b)`; without a byte
there is nothing to consume. -/
def cmdTake (s : State) : State :=
  match s.mem.read s.seq.pos with
  | some b => { s with seq := s.seq.advance b }
  | none => s

/-- The bytes delivered from the cursor on: what `CmdPeek()` and `CmdTake()` can reach. -/
def fetch (s : State) : List Byte := s.mem.bytesFrom s.seq.pos

/-- The bytes `bs` consumed one after another (spec R43). -/
def consume (bs : List Byte) (s : State) : State := { s with seq := bs.foldl SeqRegs.advance s.seq }

/-- The fetched bytes consumed up to, not including, `rest` (spec R157). -/
def consumeTo (rest : List Byte) (s : State) : State :=
  consume ((fetch s).take ((fetch s).length - rest.length)) s

/-! Fault entry. -/

/-- The record `raise Fatal` writes: the position is that of the byte at the cursor (spec R147). -/
def faultRecord (q : SeqRegs) (code : FaultCode) (got : Got) (exp : Expected) (aux : Aux) : FaultRecord where
  code := code
  line := q.line
  col := q.col
  got := got
  exp := exp
  aux := aux

/-- `raise Fatal(code, got, exp, aux)`, spec R148: the record and the mode are written, the record is delivered on
FLT, and nothing else changes. -/
def raiseFatal (code : FaultCode) (got : Got) (exp : Expected) (aux : Aux) (s : State) : State :=
  let r := faultRecord s.seq code got exp aux
  { s with fault := some r, flt := s.flt ++ [r], seq := { s.seq with mode := .faulted } }

/-- A value fault (spec R150, R152, R153, R155): `got` and `exp` are none. -/
def raiseValueFault (code : FaultCode) (aux : Aux) (s : State) : State :=
  raiseFatal code .nothing .nothing aux s

/-- A spelling fault (spec R151, R154): `aux` is none. -/
def raiseSpellingFault (f : Spelling) (s : State) : State :=
  raiseFatal f.code f.got f.exp .nothing s

end Sys2Proof.Machine
end

