-- ==== Sys2Proof/Machine/Operands.lean ====
section
/-! DEFINITION. Operand forms: the values of the two literals (spec R59, R60), percentages (R136, R137),
milliseconds (R88), and the two ways a command finds its voices (R124); the wrap of R9. -/

namespace Sys2Proof

/-- The natural the digits spell in base 10, most significant first, continuing from `v` (spec R59). -/
def digitsValue (v : Nat) : List Digit → Nat
  | [] => v
  | d :: ds => digitsValue (v * 10 + d.val) ds

/-- The sum of `d_k * scale / 10^k` over the digits after a point (spec R60). -/
def fractionValue (scale : Quantity) : List Digit → Quantity
  | [] => 0
  | d :: ds => scale / 10 * (d.val : Quantity) + fractionValue (scale / 10) ds

/-- The value of an integer literal (spec R59). -/
def IntLit.value (l : IntLit) : Nat := digitsValue 0 l.digits

/-- The value of a float literal (spec R60): exact. -/
def FloatLit.value (l : FloatLit) : Quantity :=
  (digitsValue 0 l.whole : Quantity) +
    match l.frac with
    | none => 0
    | some ds => fractionValue 1 ds

namespace Machine

/-- `frac(q) = q - floor(q)`, spec R9. -/
def frac (q : Quantity) : Quantity := q - (q.floor : Quantity)

/-- `floor(q)` as a natural, for `q >= 0` (spec R8). -/
def floorNat (q : Quantity) : Nat := q.floor.toNat

/-- "input range 0–100 mapped to 0–1" (spec R136, R137): an exact division by 100. -/
def percent (f : FloatLit) : Quantity := f.value / 100

/-- `ms_to_samples`, spec R88. -/
def msToSamples (sampleRate : Nat) (ms : Quantity) : Nat := floorNat (ms * (sampleRate : Quantity) / 1000)

/-- `seq.n_voices`, the length of the voice bank (spec R27). -/
def State.nVoices (s : State) : Nat := s.voices.length

/-- `Targets()`, spec R124. -/
def targets (s : State) : List Nat :=
  match s.seq.sel with
  | .single i => [i]
  | .all => List.range s.nVoices

/-- `for i in Targets(): V[i] <- f(V[i])`, in list order, each write seeing the earlier ones (spec R124). -/
def forTargets (f : Voice → Voice) (s : State) : State :=
  { s with voices := (targets s).foldl (fun vs i => vs.modify i f) s.voices }

end Machine

end Sys2Proof
end

