-- ==== Sys2Proof/Machine/Oscillator.lean ====
section
/-! DEFINITION. oscillator_bank: waveform values (spec R75 to R80), the phase accumulator (R81), note to frequency to
phase increment (R83 to R86). -/

namespace Sys2Proof.Machine

/-- `PulseValue`, spec R76. -/
def pulseValue (phase parameter : Quantity) : Quantity := if phase > parameter then 1 else -1

/-- `p' = 2 * min(phase, 1 - phase)`, spec R77. -/
def foldedPhase (phase : Quantity) : Quantity := 2 * (if phase ≤ 1 - phase then phase else 1 - phase)

/-- `SawValue`, spec R77; `none` where the formula is 0/0 (spec R79: `parameter = 1`, `phase = 1/2`). -/
def sawValue (phase parameter : Quantity) : Option Quantity :=
  let p := foldedPhase phase
  if p < parameter then some (if phase > 1 / 2 then -(p / parameter) else p / parameter)
  else if parameter = 1 then none
  else
    some (if phase > 1 / 2 then -((1 - p) / (1 - parameter)) else (1 - p) / (1 - parameter))

/-- `draw NOISE` (spec R80): the `k`-th free value, brought into [-1, +1]; any rational of that interval. Log 9. -/
def noiseDraw (k : Nat) : Quantity :=
  if Config.freeNoise k < -1 then -1 else if 1 < Config.freeNoise k then 1 else Config.freeNoise k

/-- A value and how many free values have been taken after it. -/
structure Drawn where
  value : Quantity
  draws : Draws
  deriving DecidableEq, Repr

/-- `OscValue`, spec R75: one draw for a Noise voice (R80), one free value for the 0/0 of R79, none otherwise. -/
def oscValue (o : Osc) (d : Draws) : Drawn :=
  match o.waveform with
  | .pulseWidth => ⟨pulseValue o.phase o.parameter, d⟩
  | .saw =>
    match sawValue o.phase o.parameter with
    | some v => ⟨v, d⟩
    | none => ⟨Config.freeSaw d.saw, { d with saw := d.saw + 1 }⟩
  | .noise => ⟨noiseDraw d.noise, { d with noise := d.noise + 1 }⟩

/-- The register part of `OscAdvance`, spec R81: both accumulators move and wrap. -/
def oscAdvance (o : Osc) : Osc :=
  { o with
    phase := frac (o.phase + o.phasePerSample)
    parameter := frac (o.parameter + o.parameterPerSample) }

/-- `frequency(note)`, spec R83: `BASE_FREQ[note mod 12] * 2^(note div 12)`. -/
def frequency (baseFreq : Vector Quantity 12) (note : Nat) : Quantity :=
  baseFreq[note % 12]'(Nat.mod_lt _ (by decide)) * 2 ^ (note / 12)

/-- `set_note`, spec R85. -/
def setNote (c : Config) (note : Nat) (o : Osc) : Osc :=
  { o with phasePerSample := frequency c.baseFreq note / (c.sampleRate : Quantity) }

end Sys2Proof.Machine
end

