-- ==== Sys2Proof/Machine/ConfigCommands.lean ====
section
/-! DEFINITION. The configuration commands of spec/44_config_commands.md. The state a meaning is given has the item's
bytes consumed (log 28), so a value fault reports the position after the literal. -/

namespace Sys2Proof.Machine

/-- `Cv<int>`, spec R127. -/
def execCv (n : IntLit) (s : State) : Host.Outcome State Fault Refusal :=
  if n.value = 0 then .next (raiseValueFault .eConfig (.value n.value) s)
  else if s.cfg.maxVoices < n.value then .next (raiseValueFault .eAlloc (.value n.value) s)
  else
    .next { s with
      voices := List.replicate n.value voiceInit
      seq := { s.seq with sel := .single 0 } }

/-- `(60 * SAMPLE_RATE) div tpm`, spec R128. -/
def samplesPerTickFor (c : Config) (tpm : Nat) : Nat := 60 * c.sampleRate / tpm

/-- `Ct<int>`, spec R128. -/
def execCt (tpm : IntLit) (s : State) : Host.Outcome State Fault Refusal :=
  if tpm.value = 0 then .next (raiseValueFault .eConfig (.value tpm.value) s)
  else if samplesPerTickFor s.cfg tpm.value = 0 then .next (raiseValueFault .eConfig (.value tpm.value) s)
  else .next { s with seq := { s.seq with samplesPerTick := samplesPerTickFor s.cfg tpm.value } }

end Sys2Proof.Machine
end

