-- ==== Sys2Proof/Machine/Flags.lean ====
section
/-! DEFINITION. The two status values of spec R34 and R35 (the hardware "has no arithmetic flags or condition
codes"), and the suggested codes of the enumerations (R38). -/

namespace Sys2Proof.Machine

/-- The end of the parse phase (spec R129, R130): `should_stop` takes the value `stop` and the mode is Emit. -/
def endParse (stop : Bool) (s : State) : State :=
  { s with seq := { s.seq with shouldStop := stop, mode := .emit } }

/-- `seq.samples_done mod seq.samples_per_tick = 0`: a tick boundary (spec R121). -/
def atTickBoundary (q : SeqRegs) : Bool := q.samplesDone % q.samplesPerTick == 0

/-- The mode after an emit step (spec R118), from the registers with the incremented counter. -/
def modeAfterSample (q : SeqRegs) : Mode :=
  if q.shouldStop then .stopped
  else if atTickBoundary q then .parse
  else .emit

/-- Spec R38, suggested. -/
def Waveform.code : Waveform → BitVec 2
  | .pulseWidth => 0
  | .saw => 1
  | .noise => 2

/-- Spec R38, suggested. -/
def EnvState.code : EnvState → BitVec 3
  | .off => 0
  | .attack => 1
  | .attackReleasing => 2
  | .decay => 3
  | .sustain => 4
  | .release => 5

/-- Spec R38, suggested. -/
def Mode.code : Mode → BitVec 2
  | .parse => 0
  | .emit => 1
  | .stopped => 2
  | .faulted => 3

end Sys2Proof.Machine
end

