-- ==== Sys2Proof/Machine/FlowCommands.lean ====
section
/-! DEFINITION. The flow commands and the items without effect of spec/45_flow_commands.md. The state a meaning is
given has the item's bytes consumed (log 28). -/

namespace Sys2Proof.Machine

/-- `//`, spec R129. -/
def execTick (s : State) : Host.Outcome State Fault Refusal := .next (endParse false s)

/-- `/q`, spec R130. -/
def execQuit (s : State) : Host.Outcome State Fault Refusal := .next (endParse true s)

/-- `/a`, spec R131. -/
def execSelAll (s : State) : Host.Outcome State Fault Refusal :=
  .next { s with seq := { s.seq with sel := .all } }

/-- `/<int>`, spec R132. -/
def execSel (n : IntLit) (s : State) : Host.Outcome State Fault Refusal :=
  if s.nVoices ≤ n.value then .next (raiseValueFault .eVoice (.pair n.value s.nVoices) s)
  else .next { s with seq := { s.seq with sel := .single n.value } }

/-- An item "without effect" (spec R133, R134): its bytes have been consumed and nothing else happens. -/
def noEffect (s : State) : Host.Outcome State Fault Refusal := .next s

/-- `#...\n`, spec R133. -/
def execComment (_body : List Byte) (_closed : Bool) (s : State) : Host.Outcome State Fault Refusal := noEffect s

/-- Whitespace 0x09, spec R134. -/
def execWsTab (s : State) : Host.Outcome State Fault Refusal := noEffect s

/-- Whitespace 0x0A, spec R134 (its line advance is the cursor's, R33). -/
def execWsLineFeed (s : State) : Host.Outcome State Fault Refusal := noEffect s

/-- Whitespace 0x0B, spec R134. -/
def execWsVerticalTab (s : State) : Host.Outcome State Fault Refusal := noEffect s

/-- Whitespace 0x0C, spec R134. -/
def execWsFormFeed (s : State) : Host.Outcome State Fault Refusal := noEffect s

/-- Whitespace 0x0D, spec R134. -/
def execWsCarriageReturn (s : State) : Host.Outcome State Fault Refusal := noEffect s

/-- Whitespace 0x20, spec R134. -/
def execWsSpace (s : State) : Host.Outcome State Fault Refusal := noEffect s

end Sys2Proof.Machine
end

