-- ==== Sys2Proof/Machine/Envelope.lean ====
section
/-! DEFINITION. adsr_envelope_engine: trigger, release, stop (spec R89 to R91), amplitude (R92, R94), time-elapsed
transitions (R95 to R101), the per-sample step (R102). `sr` is SAMPLE_RATE. -/

namespace Sys2Proof.Machine

/-- The timed states of spec R95. -/
def EnvState.timed : EnvState → Bool
  | .off => false
  | .attack => true
  | .attackReleasing => true
  | .decay => true
  | .sustain => false
  | .release => true

/-- Entering a timed state: progress 0, length converted from `ms` now (spec R88, R22). -/
def Env.enter (sr : Nat) (st : EnvState) (ms : Quantity) (e : Env) : Env :=
  { e with state := st, samplesDone := 0, samplesInState := msToSamples sr ms }

/-- Entering an untimed state: both counters 0 (spec R98, R99, D24). -/
def Env.rest (st : EnvState) (e : Env) : Env :=
  { e with state := st, samplesDone := 0, samplesInState := 0 }

/-- `Ratio`, spec R92. -/
def Env.ratio (e : Env) : Quantity :=
  if e.samplesInState ≤ 1 then 1 else (e.samplesDone : Quantity) / ((e.samplesInState - 1 : Nat) : Quantity)

/-- `Amp`, spec R94. -/
def Env.amp (e : Env) : Quantity :=
  match e.state with
  | .off => 0
  | .attack => e.ratio
  | .attackReleasing => e.ratio
  | .decay => 1 + (e.sustain - 1) * e.ratio
  | .sustain => e.sustain
  | .release => e.releaseLevel * (1 - e.ratio)

/-- `trigger`, spec R89. -/
def envTrigger (sr : Nat) (e : Env) : Env := e.enter sr .attack e.attack

/-- `release`, spec R90. -/
def envRelease (sr : Nat) (e : Env) : Env :=
  match e.state with
  | .attack => { e with state := .attackReleasing }
  | .decay => ({ e with releaseLevel := e.amp }).enter sr .release e.release
  | .sustain => ({ e with releaseLevel := e.amp }).enter sr .release e.release
  | .attackReleasing => e
  | .release => e
  | .off => e

/-- `stop`, spec R91. No command invokes it; it is here because the spec specifies it. -/
def envStop (e : Env) : Env := e.rest .off

/-- The time-elapsed transition out of the current state, if its time has elapsed (spec R95 to R100). -/
def settleOnce (sr : Nat) (e : Env) : Option Env :=
  if e.state.timed && decide (e.samplesInState ≤ e.samplesDone) then
    match e.state with
    | .attack => some (e.enter sr .decay e.decay)
    | .attackReleasing => some (({ e with releaseLevel := 1 }).enter sr .release e.release)
    | .decay => some (e.rest .sustain)
    | .release => some (e.rest .off)
    | .off => none
    | .sustain => none
  else none

/-- The loop of spec R95, at most `n` transitions. -/
def settleUpTo (sr : Nat) : Nat → Env → Env
  | 0, e => e
  | n + 1, e =>
    match settleOnce sr e with
    | none => e
    | some e' => settleUpTo sr n e'

/-- `Settle`, spec R95, with the cap MAX_CHAIN of R101. -/
def settle (sr : Nat) (e : Env) : Env := settleUpTo sr Config.maxChain e

/-- The amplitude `next()` returns (spec R102): that of the state settled into before it. -/
def envNextAmp (sr : Nat) (e : Env) : Quantity := (settle sr e).amp

/-- The registers after `next()`, spec R102: settle, count the sample in every state, settle again. -/
def envNext (sr : Nat) (e : Env) : Env :=
  let e1 := settle sr e
  settle sr { e1 with samplesDone := e1.samplesDone + 1 }

end Sys2Proof.Machine
end

