-- ==== Sys2Proof/Machine/VoiceMixer.lean ====
section
/-! DEFINITION. voice and voice_mixer: the operations of a voice (spec R106 to R109) and the sum over the bank
(R111). -/

namespace Sys2Proof.Machine

/-- `Voice.retrigger`, spec R107. -/
def voiceRetrigger (c : Config) (v : Voice) : Voice := { v with env := envTrigger c.sampleRate v.env }

/-- `Voice.release`, spec R108. -/
def voiceRelease (c : Config) (v : Voice) : Voice := { v with env := envRelease c.sampleRate v.env }

/-- `Voice.trigger(note)`, spec R106: no single command invokes it; it is `N<note>` then `T`. -/
def voiceTrigger (c : Config) (note : Nat) (v : Voice) : Voice :=
  { v with osc := setNote c note v.osc, env := envTrigger c.sampleRate v.env }

/-- The registers after `Voice.advance`, spec R109. -/
def voiceNext (sr : Nat) (v : Voice) : Voice := { v with osc := oscAdvance v.osc, env := envNext sr v.env }

/-- The sample of `Voice.advance`, spec R109: `(o * a) * velocity`, the oscillator's draw first. -/
def voiceSample (sr : Nat) (v : Voice) (d : Draws) : Drawn :=
  let o := oscValue v.osc d
  ⟨o.value * envNextAmp sr v.env * v.velocity, o.draws⟩

/-- What `Mix` leaves: the advanced bank, the free values taken, the sum. -/
structure Mixed where
  voices : List Voice
  draws : Draws
  sum : Quantity
  deriving DecidableEq, Repr

/-- The loop of `Mix`, spec R111: voices in index order, `acc` the sum so far. -/
def mixFrom (sr : Nat) : List Voice → Draws → Quantity → Mixed
  | [], d, acc => ⟨[], d, acc⟩
  | v :: vs, d, acc =>
    let x := voiceSample sr v d
    let m := mixFrom sr vs x.draws (acc + x.value)
    ⟨voiceNext sr v :: m.voices, m.draws, m.sum⟩

/-- `Mix`, spec R111: the accumulator starts at 0. -/
def mix (s : State) : Mixed := mixFrom s.cfg.sampleRate s.voices s.draws 0

end Sys2Proof.Machine
end

