-- ==== Sys2Proof/Machine/VoiceCommands.lean ====
section
/-! DEFINITION. The per-voice commands of spec/46_voice_commands.md. The state a meaning is given has the item's bytes
consumed (log 28). Operands above the stated ranges are stored as computed (spec D18, log 18). -/

namespace Sys2Proof.Machine

/-- `A<f>,<f>,<f>,<f>`, spec R135. -/
def execAdsr (a d su r : FloatLit) (s : State) : Host.Outcome State Fault Refusal :=
  .next (forTargets (fun v =>
    { v with env :=
        { v.env with attack := a.value, decay := d.value, sustain := su.value, release := r.value } }) s)

/-- `P<f>`, spec R136. -/
def execParam (f : FloatLit) (s : State) : Host.Outcome State Fault Refusal :=
  .next (forTargets (fun v => { v with osc := { v.osc with parameter := percent f } }) s)

/-- `V<f>`, spec R137. -/
def execVel (f : FloatLit) (s : State) : Host.Outcome State Fault Refusal :=
  .next (forTargets (fun v => { v with velocity := percent f }) s)

/-- `N<int>`, spec R138: the check is made once, before any voice is written. -/
def execNote (n : IntLit) (s : State) : Host.Outcome State Fault Refusal :=
  if 128 ≤ n.value then .next (raiseValueFault .eNote (.value n.value) s)
  else .next (forTargets (fun v => { v with osc := setNote s.cfg n.value v.osc }) s)

/-- `W(w)` on the selected voices (spec R139 to R141). -/
def setWaveform (w : Waveform) (s : State) : State :=
  forTargets (fun v => { v with osc := { v.osc with waveform := w } }) s

/-- `Wp`, spec R139. -/
def execWavePulse (s : State) : Host.Outcome State Fault Refusal := .next (setWaveform .pulseWidth s)

/-- `Ws`, spec R140. -/
def execWaveSaw (s : State) : Host.Outcome State Fault Refusal := .next (setWaveform .saw s)

/-- `Wn`, spec R141. -/
def execWaveNoise (s : State) : Host.Outcome State Fault Refusal := .next (setWaveform .noise s)

/-- `T`, spec R142. -/
def execTrigger (s : State) : Host.Outcome State Fault Refusal := .next (forTargets (voiceRetrigger s.cfg) s)

/-- `R`, spec R143. -/
def execRelease (s : State) : Host.Outcome State Fault Refusal := .next (forTargets (voiceRelease s.cfg) s)

end Sys2Proof.Machine
end

