-- ==== Sys2Proof/Machine/Dispatch.lean ====
section
/-! DEFINITION. Execution of a decoded item, by kind (spec R117). -/

namespace Sys2Proof.Machine

def exec (i : Instr) (s : State) : Host.Outcome State Fault Refusal :=
  match i with
  | .cv n => Sys2Proof.Machine.execCv n s
  | .ct tpm => Sys2Proof.Machine.execCt tpm s
  | .tick => Sys2Proof.Machine.execTick s
  | .quit => Sys2Proof.Machine.execQuit s
  | .selAll => Sys2Proof.Machine.execSelAll s
  | .sel n => Sys2Proof.Machine.execSel n s
  | .adsr a d su r => Sys2Proof.Machine.execAdsr a d su r s
  | .param f => Sys2Proof.Machine.execParam f s
  | .vel f => Sys2Proof.Machine.execVel f s
  | .note n => Sys2Proof.Machine.execNote n s
  | .wavePulse => Sys2Proof.Machine.execWavePulse s
  | .waveSaw => Sys2Proof.Machine.execWaveSaw s
  | .waveNoise => Sys2Proof.Machine.execWaveNoise s
  | .trigger => Sys2Proof.Machine.execTrigger s
  | .release => Sys2Proof.Machine.execRelease s
  | .comment body closed => Sys2Proof.Machine.execComment body closed s
  | .wsTab => Sys2Proof.Machine.execWsTab s
  | .wsLineFeed => Sys2Proof.Machine.execWsLineFeed s
  | .wsVerticalTab => Sys2Proof.Machine.execWsVerticalTab s
  | .wsFormFeed => Sys2Proof.Machine.execWsFormFeed s
  | .wsCarriageReturn => Sys2Proof.Machine.execWsCarriageReturn s
  | .wsSpace => Sys2Proof.Machine.execWsSpace s

end Sys2Proof.Machine
end

