-- ==== Sys2Proof/Machine/Sequencer.lean ====
section
/-! DEFINITION. tick_sequencer_fsm: the command step (spec R116), the emit step (R118), and the source's one call
`next_sample` (R114). -/

namespace Sys2Proof.Machine

/-- The integer literal of an item, if it has one. -/
def intOperand : Instr → Option IntLit
  | .cv n => some n
  | .ct n => some n
  | .tick => none
  | .quit => none
  | .selAll => none
  | .sel n => some n
  | .adsr _ _ _ _ => none
  | .param _ => none
  | .vel _ => none
  | .note n => some n
  | .wavePulse => none
  | .waveSaw => none
  | .waveNoise => none
  | .trigger => none
  | .release => none
  | .comment _ _ => none
  | .wsTab => none
  | .wsLineFeed => none
  | .wsVerticalTab => none
  | .wsFormFeed => none
  | .wsCarriageReturn => none
  | .wsSpace => none

/-- An integer literal above a set INT_MAX (spec R59, U8; log 8). -/
def aboveIntMax (c : Config) (i : Instr) : Bool :=
  match c.intMax, intOperand i with
  | some m, some l => decide (m < l.value)
  | _, _ => false

/-- Every counter and the cursor are below 2 to a set COUNTER_BITS (spec R6, U18; log 8). -/
def countersFit (s : State) : Bool :=
  match s.cfg.counterBits with
  | none => true
  | some n =>
    decide (s.seq.samplesDone < 2 ^ n) && decide (s.seq.pos < 2 ^ n) && decide (s.seq.line < 2 ^ n) &&
    decide (s.seq.col < 2 ^ n) &&
    s.voices.all fun v => decide (v.env.samplesDone < 2 ^ n) && decide (v.env.samplesInState < 2 ^ n)

/-- A step whose result would not fit the counters is refused (spec U18; log 8). -/
def withinCounters : Host.Outcome State Fault Refusal → Host.Outcome State Fault Refusal
  | .next s => if countersFit s then .next s else .refused .counterOverflow
  | .fault f => .fault f
  | .refused r => .refused r

/-- The command step, spec R116: decode one item, consume its bytes, execute it. While the bytes it needs have not
been delivered the step is not enabled and the core holds, changing nothing (spec R42, D40; log 4). -/
def cmdStep (s : State) : Host.Outcome State Fault Refusal :=
  match decode s.cmdEnded (fetch s) with
  | .wait => .next s
  | .fatal f rest => .next (raiseSpellingFault f (consumeTo rest s))
  | .ok i rest => if aboveIntMax s.cfg i then .refused .literalAboveIntMax else exec i (consumeTo rest s)

/-- The body of an emit step but for the mode (spec R114, R118): mix, deliver the pair on SMP, count the sample. -/
def produceSample (s : State) : State :=
  let m := mix s
  { s with
    voices := m.voices
    draws := m.draws
    smp := s.smp ++ [⟨m.sum, s.seq.shouldStop⟩]
    seq := { s.seq with samplesDone := s.seq.samplesDone + 1 } }

/-- The emit step's effect, spec R118. -/
def emitSample (s : State) : State :=
  let t := produceSample s
  { t with seq := { t.seq with mode := modeAfterSample t.seq } }

/-- The emit step, spec R118: a host that does not accept a sample holds the core in Emit (spec R123; log 4). -/
def emitStep (s : State) : Host.Outcome State Fault Refusal :=
  if s.smpReady then .next (emitSample s) else .next s

/-! The source's form. -/

/-- The two items that end a parse phase (spec R114). -/
def endsParse : Instr → Bool
  | .tick => true
  | .quit => true
  | _ => false

/-- The loop of `next_sample` (spec R114), at most `fuel` items: the state after the `//` or `/q`; `none` where the
phase ends in a fault, waits for input, or is longer than `fuel`. -/
def parsePhase : Nat → State → Option State
  | 0, _ => none
  | fuel + 1, s =>
    match decode s.cmdEnded (fetch s) with
    | .wait => none
    | .fatal _ _ => none
    | .ok i rest =>
      match exec i (consumeTo rest s) with
      | .next t =>
        if endsParse i then some t
        else if t.seq.mode = .faulted then none
        else parsePhase fuel t
      | .fault _ => none
      | .refused _ => none

/-- `next_sample()`, spec R114: at a tick boundary the parse phase, then one sample. Its result pair is the last of
`smp`. -/
def nextSample (fuel : Nat) (s : State) : Option State :=
  if atTickBoundary s.seq then (parsePhase fuel s).map produceSample else some (produceSample s)

end Sys2Proof.Machine
end

