-- ==== Sys2Proof/Machine/Step.lean ====
section
/-! DEFINITION. One step of the machine (spec R115), and the state in which its next step runs a given table word. -/

namespace Sys2Proof.Machine

/-- The step relation of spec R115: the mode decides which kind of step there is; Stopped and Faulted have none (spec
R119; log 5). -/
def step (s : State) : Host.Outcome State Fault Refusal :=
  match s.seq.mode with
  | .parse => withinCounters (cmdStep s)
  | .emit => withinCounters (emitStep s)
  | .stopped => .fault .stopped
  | .faulted => .fault .faulted

/-- `s` with the opcode-table word `w` of `nbits` bits, completed as in `tableBytes` (log 3), delivered at the cursor,
and the mode Parse, in which the next step decodes and runs one item (log 2). -/
def State.withFetchWord (s : State) (nbits w : Nat) : State :=
  { s with
    mem := s.mem.writeAll s.seq.pos (tableBytes nbits w)
    seq := { s.seq with mode := .parse } }

end Sys2Proof.Machine
end

