-- ==== Sys2Proof/Machine/HostPort.lean ====
section
/-! DEFINITION. What the host may do to the machine between steps (spec R5, R165): none of it is a step. -/

namespace Sys2Proof.Machine

/-- CMD: the next byte of the stream, in order, each once (spec R165). Delivering after end of input is what the host
"must not" do, and is refused (log 26). -/
def deliverByte (b : Byte) (s : State) : Host.Outcome State Fault Refusal :=
  if s.cmdEnded then .refused .byteAfterEnd
  else .next { s with mem := s.mem.write s.mem.nextOffset b }

/-- CMD: the bytes of `bs` one after another. -/
def deliverBytes : List Byte → State → Host.Outcome State Fault Refusal
  | [], s => .next s
  | b :: bs, s =>
    match deliverByte b s with
    | .next t => deliverBytes bs t
    | .fault f => .fault f
    | .refused r => .refused r

/-- CMD: the end-of-input indication (spec R42, R165). -/
def signalEnd (s : State) : State := { s with cmdEnded := true }

/-- SMP: whether the host accepts a sample now (spec R118, R123). -/
def setReady (ready : Bool) (s : State) : State := { s with smpReady := ready }

/-- RST, at any time, with `c` stable on CFG (spec R5, R166, R168): nothing survives it. -/
def assertReset (c : Config) (_s : State) : State := State.resetWith c

end Sys2Proof.Machine
end

