-- ==== Sys2Proof/Safety.lean ====
section
/-! DEFINITION. What is true of every state a run reaches, in the terms the statements use. -/

namespace Sys2Proof.Machine

/-- The ranges of spec R15 to R18. -/
abbrev Osc.InRange (o : Osc) : Prop :=
  0 ≤ o.phase ∧ o.phase < 1 ∧ 0 ≤ o.phasePerSample ∧ 0 ≤ o.parameter ∧ o.parameterPerSample = 0

/-- The ranges of spec R19, R20, R24 and the counters of R22, R23: in a timed state the progress has not passed the
length, in Decay it is below it (R93), and an untimed state has length 0. -/
abbrev Env.InRange (e : Env) : Prop :=
  0 ≤ e.attack ∧ 0 ≤ e.decay ∧ 0 ≤ e.sustain ∧ 0 ≤ e.release ∧ 0 ≤ e.releaseLevel ∧
  (e.state.timed = true → e.samplesDone ≤ e.samplesInState) ∧
  (e.state = .decay → e.samplesDone < e.samplesInState) ∧
  (e.state.timed = false → e.samplesInState = 0)

/-- The ranges of a voice's registers (spec R14 to R25). -/
abbrev Voice.InRange (v : Voice) : Prop := v.osc.InRange ∧ v.env.InRange ∧ 0 ≤ v.velocity

/-- The selector names a voice of the bank (spec R28). -/
def Selector.inBank (n : Nat) : Selector → Bool
  | .single i => decide (i < n)
  | .all => true

/-- The sequencer's invariants (spec R27 to R29, R33). -/
abbrev State.SeqOk (s : State) : Prop :=
  1 ≤ s.nVoices ∧ s.nVoices ≤ s.cfg.maxVoices ∧ s.seq.sel.inBank s.nVoices = true ∧ 1 ≤ s.seq.samplesPerTick ∧
  1 ≤ s.seq.line ∧ 1 ≤ s.seq.col

/-- Mode, `should_stop`, fault and the two output ports agree (spec R12, R30, R34, R36, R123, R148): the fault is
recorded exactly in Faulted and delivered once; as many pairs as samples counted; only the last pair can carry
`should_stop`, and then the mode is Stopped. -/
abbrev State.PortsOk (s : State) : Prop :=
  (s.fault.isSome = true ↔ s.seq.mode = .faulted) ∧ s.flt = s.fault.toList ∧
  s.smp.length = s.seq.samplesDone ∧
  (s.seq.shouldStop = true → s.seq.mode = .emit ∨ s.seq.mode = .stopped) ∧
  (s.seq.mode = .stopped → s.seq.shouldStop = true) ∧
  (∀ p ∈ s.smp, p.shouldStop = true → s.seq.mode = .stopped) ∧
  (∀ p ∈ s.smp.dropLast, p.shouldStop = false)

/-- The stream is in canonical form, delivered without a gap, and the cursor has not passed its end (spec R32, R41,
R42). -/
abbrev State.StreamOk (s : State) : Prop :=
  s.mem.wf = true ∧ s.mem.contiguous = true ∧ s.seq.pos ≤ s.mem.length

/-- The machine's invariant. -/
abbrev State.Inv (s : State) : Prop :=
  s.cfg.Valid ∧ s.SeqOk ∧ (∀ v ∈ s.voices, v.InRange) ∧ s.PortsOk ∧ s.StreamOk

/-! The terms of the frame statements. -/

/-- Voice `i` is selected (spec R124), for an `i` of the bank. -/
abbrev Selected (s : State) (i : Nat) : Prop := s.seq.sel = .single i ∨ s.seq.sel = .all

/-- The interfaces and the free values are as before: the strap, every byte of the stream, the end of input, the
sample port, the pairs delivered. -/
abbrev PortsKept (s t : State) : Prop :=
  t.cfg = s.cfg ∧ (∀ a, t.mem.read a = s.mem.read a) ∧ t.cmdEnded = s.cmdEnded ∧ t.smpReady = s.smpReady ∧
  t.smp = s.smp ∧ t.draws = s.draws

/-- No fault has been raised between `s` and `t`. -/
abbrev FaultKept (s t : State) : Prop := t.fault = s.fault ∧ t.flt = s.flt

/-- The bank has the voices it had, each selected one written by `f`, every other one as it was (spec R124). -/
abbrev SelectedWritten (f : Voice → Voice) (s t : State) : Prop :=
  t.nVoices = s.nVoices ∧
  ∀ i v, s.voices[i]? = some v → t.voices[i]? = some (if Selected s i then f v else v)

/-- A per-voice command's whole effect: the selected voices are written by `f` and nothing else is changed. -/
abbrev OnlySelectedWritten (f : Voice → Voice) (s t : State) : Prop :=
  SelectedWritten f s t ∧ t.seq = s.seq ∧ PortsKept s t ∧ FaultKept s t

/-- `raise Fatal` at `s` (spec R148): the record, with the position of the cursor (R147), in `fault` and on FLT, the
mode, and nothing else. -/
abbrev FaultEntered (code : FaultCode) (got : Got) (exp : Expected) (aux : Aux) (s t : State) : Prop :=
  t.fault = some ⟨code, s.seq.line, s.seq.col, got, exp, aux⟩ ∧
  t.flt = s.flt ++ [⟨code, s.seq.line, s.seq.col, got, exp, aux⟩] ∧
  t.seq = { s.seq with mode := .faulted } ∧ t.voices = s.voices ∧ PortsKept s t

/-- Every envelope of the bank is Off. -/
abbrev AllOff (s : State) : Prop := ∀ v ∈ s.voices, v.env.state = .off

/-- A state some run reaches from `s` (spec R168: a run is a trace from the reset state). -/
inductive Reaches (s : State) : State → Prop where
  | refl : Reaches s s
  | step {t u : State} : Reaches s t → step t = .next u → Reaches s u

end Sys2Proof.Machine
end

