-- ==== Sys2Proof/Certificates/Slice0/Obligations.lean ====
section
/-! DEFINITION. The statements for the provers, each over every state and every configuration. -/

open Sys2Proof Sys2Proof.Machine

/-! ## Encoding -/

/-- Decoding the bytes of a well-formed item gives the item back, with every literal as spelled, and leaves the bytes
after it, whenever those do not extend it (spec/30_encoding.md sections 3, 4, 6, 8, 10). -/
def Obligations.DecodeOfEncodeGivesItemBack : Prop :=
  ∀ (i : Instr) (ended : Bool) (rest : List Byte), i.wf = true → i.endedBy ended rest = true →
    decode ended (encode i ++ rest) = .ok i rest

/-- Bytes that decode to an item begin with exactly that item's spelling: the item is well-formed, what follows is the
rest and does not extend it (spec/30_encoding.md sections 3 to 8). -/
def Obligations.DecodedBytesAreTheItemsSpelling : Prop :=
  ∀ (ended : Bool) (bs : List Byte) (i : Instr) (rest : List Byte), decode ended bs = .ok i rest →
    bs = encode i ++ rest ∧ i.wf = true ∧ i.endedBy ended rest = true

/-- Words written out from the spec's encodings (spec/30_encoding.md section 4, spec/95_test_vectors.md section
2.4). -/
def Obligations.SpelledWordsDecode : Prop :=
  decode true [0x43#8, 0x76#8, 0x30#8, 0x31#8] = .ok (.cv ⟨[0, 1]⟩) [] ∧
  decode true [0x43#8, 0x74#8, 0x31#8, 0x32#8] = .ok (.ct ⟨[1, 2]⟩) [] ∧
  decode false [0x2F#8, 0x2F#8] = .ok .tick [] ∧
  decode false [0x2F#8, 0x30#8, 0x37#8, 0x54#8] = .ok (.sel ⟨[0, 7]⟩) [0x54#8] ∧
  decode false [0x4E#8, 0x36#8, 0x39#8, 0x54#8] = .ok (.note ⟨[6, 9]⟩) [0x54#8] ∧
  decode true [0x50#8, 0x31#8, 0x32#8, 0x2E#8, 0x35#8] = .ok (.param ⟨[1, 2], some [5]⟩) [] ∧
  decode true [0x41#8, 0x2E#8, 0x35#8, 0x2C#8, 0x35#8, 0x2E#8, 0x2C#8, 0x30#8, 0x2C#8, 0x37#8] =
    .ok (.adsr ⟨[], some [5]⟩ ⟨[5], some []⟩ ⟨[0], none⟩ ⟨[7], none⟩) [] ∧
  decode false [0x57#8, 0x73#8] = .ok .waveSaw [] ∧
  decode false [0x52#8] = .ok .release [] ∧
  decode false [0x23#8, 0x2F#8, 0x71#8, 0x0A#8, 0x54#8] = .ok (.comment [0x2F#8, 0x71#8] true) [0x54#8]

/-- Spec R63: the first-byte dispatch, complete over all byte values and end of input. -/
def Obligations.FirstByteDispatchIsComplete : Prop :=
  ∀ (ended : Bool) (t : List Byte),
    decode ended (0x09#8 :: t) = .ok .wsTab t ∧ decode ended (0x0A#8 :: t) = .ok .wsLineFeed t ∧
    decode ended (0x0B#8 :: t) = .ok .wsVerticalTab t ∧ decode ended (0x0C#8 :: t) = .ok .wsFormFeed t ∧
    decode ended (0x0D#8 :: t) = .ok .wsCarriageReturn t ∧ decode ended (0x20#8 :: t) = .ok .wsSpace t ∧
    decode ended (0x23#8 :: t) = (parseComment ended t).andThen (fun r rest => .ok (.comment r.1 r.2) rest) ∧
    decode ended (0x2F#8 :: t) = decodeSlash ended t ∧
    decode ended (0x41#8 :: t) = parseAdsr ended t ∧
    decode ended (0x43#8 :: t) = decodeConfig ended t ∧
    decode ended (0x4E#8 :: t) = (parseInt ended t).andThen (fun n rest => .ok (.note n) rest) ∧
    decode ended (0x50#8 :: t) = (parseFloat ended t).andThen (fun f rest => .ok (.param f) rest) ∧
    decode ended (0x52#8 :: t) = .ok .release t ∧
    decode ended (0x54#8 :: t) = .ok .trigger t ∧
    decode ended (0x56#8 :: t) = (parseFloat ended t).andThen (fun f rest => .ok (.vel f) rest) ∧
    decode ended (0x57#8 :: t) = decodeWave ended t ∧
    (∀ b : Byte, b ∉ [0x09#8, 0x0A#8, 0x0B#8, 0x0C#8, 0x0D#8, 0x20#8, 0x23#8, 0x2F#8, 0x41#8, 0x43#8, 0x4E#8, 0x50#8,
        0x52#8, 0x54#8, 0x56#8, 0x57#8] →
      decode ended (b :: t) = .fatal ⟨.eSyntax, .byte b, .command⟩ (b :: t)) ∧
    decode true [] = .fatal ⟨.eEof, .eof, .command⟩ []

/-- Spec R64: the second-byte dispatch after `C`, `/` and `W`; the offending byte is not consumed; letters of the
other case spell no command. -/
def Obligations.SecondByteDispatchIsComplete : Prop :=
  ∀ (ended : Bool) (t : List Byte),
    decode ended (0x43#8 :: 0x76#8 :: t) = (parseInt ended t).andThen (fun n rest => .ok (.cv n) rest) ∧
    decode ended (0x43#8 :: 0x74#8 :: t) = (parseInt ended t).andThen (fun n rest => .ok (.ct n) rest) ∧
    (∀ b : Byte, b ≠ 0x76#8 → b ≠ 0x74#8 →
      decode ended (0x43#8 :: b :: t) = .fatal ⟨.eSyntax, .byte b, .configLetter⟩ (b :: t)) ∧
    decode true [0x43#8] = .fatal ⟨.eEof, .eof, .configLetter⟩ [] ∧
    decode ended (0x2F#8 :: 0x2F#8 :: t) = .ok .tick t ∧
    decode ended (0x2F#8 :: 0x71#8 :: t) = .ok .quit t ∧
    decode ended (0x2F#8 :: 0x61#8 :: t) = .ok .selAll t ∧
    (∀ d : Digit, decode ended (0x2F#8 :: digitByte d :: t) =
      (parseInt ended (digitByte d :: t)).andThen (fun n rest => .ok (.sel n) rest)) ∧
    (∀ b : Byte, b ≠ 0x2F#8 → b ≠ 0x71#8 → b ≠ 0x61#8 → (∀ d, b ≠ digitByte d) →
      decode ended (0x2F#8 :: b :: t) = .fatal ⟨.eSyntax, .byte b, .slashSuffix⟩ (b :: t)) ∧
    decode true [0x2F#8] = .fatal ⟨.eEof, .eof, .slashSuffix⟩ [] ∧
    decode ended (0x57#8 :: 0x70#8 :: t) = .ok .wavePulse t ∧
    decode ended (0x57#8 :: 0x73#8 :: t) = .ok .waveSaw t ∧
    decode ended (0x57#8 :: 0x6E#8 :: t) = .ok .waveNoise t ∧
    (∀ b : Byte, b ≠ 0x70#8 → b ≠ 0x73#8 → b ≠ 0x6E#8 →
      decode ended (0x57#8 :: b :: t) = .fatal ⟨.eSyntax, .byte b, .waveLetter⟩ (b :: t)) ∧
    decode true [0x57#8] = .fatal ⟨.eEof, .eof, .waveLetter⟩ [] ∧
    decode ended (0x77#8 :: t) = .fatal ⟨.eSyntax, .byte 0x77#8, .command⟩ (0x77#8 :: t) ∧
    decode ended (0x63#8 :: t) = .fatal ⟨.eSyntax, .byte 0x63#8, .command⟩ (0x63#8 :: t)

/-- Spec R59: an integer literal is the longest run of digits, at least one, its terminator is not consumed, and its
value is read in base 10, most significant digit first; leading zeros do not change it. -/
def Obligations.IntLiteralIsGreedyAndExact : Prop :=
  parseInt true [] = .fatal ⟨.eEof, .eof, .digit⟩ [] ∧
  (∀ (ended : Bool) (b : Byte) (t : List Byte), (∀ d, b ≠ digitByte d) →
    parseInt ended (b :: t) = .fatal ⟨.eSyntax, .byte b, .digit⟩ (b :: t)) ∧
  (∀ (ended : Bool) (ds : List Digit) (rest : List Byte), ds ≠ [] → endsInt ended rest = true →
    parseInt ended (ds.map digitByte ++ rest) = .ok ⟨ds⟩ rest) ∧
  (∀ d : Digit, (IntLit.mk [d]).value = d.val) ∧
  (∀ (ds : List Digit) (d : Digit), (IntLit.mk (ds ++ [d])).value = (IntLit.mk ds).value * 10 + d.val) ∧
  (∀ ds : List Digit, (IntLit.mk (0 :: ds)).value = (IntLit.mk ds).value)

/-- Float literals (spec/30_encoding.md section 3; that `5.` and `.5` are admitted is the spec's D12): a float literal
is a maximal run of digits with at most one point and at least one digit; its value is exact: the digits before the
point as an integer, plus `d / 10^k` for the `k`-th digit after it. Between the literals of `A` stands exactly one
comma (spec R61's Expect, R65): after the first, second and third literal any other byte, or end of input, is the
fault with `exp` the comma, and what follows a comma must begin a literal; the offending byte is not consumed (spec
R151, R154). -/
def Obligations.FloatLiteralIsGreedyAndExact : Prop :=
  parseFloat true [] = .fatal ⟨.eEof, .eof, .digitOrPoint⟩ [] ∧
  (∀ (ended : Bool) (b : Byte) (t : List Byte), (∀ d, b ≠ digitByte d) → b ≠ 0x2E#8 →
    parseFloat ended (b :: t) = .fatal ⟨.eSyntax, .byte b, .digitOrPoint⟩ (b :: t)) ∧
  (∀ (ended : Bool) (l : FloatLit) (rest : List Byte), l.wf = true → endsFloat ended l rest = true →
    parseFloat ended (encodeFloat l ++ rest) = .ok l rest) ∧
  parseFloat true [0x2E#8] = .fatal ⟨.eEof, .eof, .digit⟩ [] ∧
  (∀ (ended : Bool) (b : Byte) (t : List Byte), (∀ d, b ≠ digitByte d) →
    parseFloat ended (0x2E#8 :: b :: t) = .fatal ⟨.eSyntax, .byte b, .digit⟩ (b :: t)) ∧
  (∀ w : List Digit, (FloatLit.mk w none).value = (((IntLit.mk w).value : Nat) : Rat) ∧
    (FloatLit.mk w (some [])).value = (((IntLit.mk w).value : Nat) : Rat)) ∧
  (∀ (w ds : List Digit) (d : Digit), (FloatLit.mk w (some (ds ++ [d]))).value =
    (FloatLit.mk w (some ds)).value + (d.val : Rat) / 10 ^ (ds.length + 1)) ∧
  (∀ (ended : Bool) (ch : Byte) (t : List Byte), expectByte ended ch (ch :: t) = .ok () t ∧
    expectByte true ch [] = .fatal ⟨.eEof, .eof, .char ch⟩ [] ∧
    ∀ b : Byte, b ≠ ch → expectByte ended ch (b :: t) = .fatal ⟨.eSyntax, .byte b, .char ch⟩ (b :: t)) ∧
  (∀ (ended : Bool) (l₁ l₂ l₃ : FloatLit), l₁.wf = true → l₂.wf = true → l₃.wf = true →
    ∀ p ∈ [(encodeFloat l₁, l₁), (encodeFloat l₁ ++ 0x2C#8 :: encodeFloat l₂, l₂),
        (encodeFloat l₁ ++ 0x2C#8 :: (encodeFloat l₂ ++ 0x2C#8 :: encodeFloat l₃), l₃)],
      decode true (0x41#8 :: p.1) = .fatal ⟨.eEof, .eof, .char 0x2C#8⟩ [] ∧
      (∀ (b : Byte) (t : List Byte), endsFloat ended p.2 (b :: t) = true → b ≠ 0x2C#8 →
        decode ended (0x41#8 :: (p.1 ++ b :: t)) = .fatal ⟨.eSyntax, .byte b, .char 0x2C#8⟩ (b :: t)) ∧
      decode true (0x41#8 :: (p.1 ++ [0x2C#8])) = .fatal ⟨.eEof, .eof, .digitOrPoint⟩ [] ∧
      ∀ (b : Byte) (t : List Byte), (∀ d, b ≠ digitByte d) → b ≠ 0x2E#8 →
        decode ended (0x41#8 :: (p.1 ++ 0x2C#8 :: b :: t)) = .fatal ⟨.eSyntax, .byte b, .digitOrPoint⟩ (b :: t))

/-! ## The step -/

/-- When the fetched bytes decode to an item (and no set INT_MAX refuses its literal), one step consumes them and
executes the item; a set COUNTER_BITS is the only thing added around it (spec/43_sequencer_step.md section 2; log
8). -/
def Obligations.StepRunsDecodedItem : Prop :=
  ∀ (s : State) (i : Instr) (rest : List Byte), s.seq.mode = .parse → decode s.cmdEnded (fetch s) = .ok i rest →
    aboveIntMax s.cfg i = false → step s = withinCounters (exec i (consumeTo rest s))

/-- The same from the spelling: where the stream holds the bytes of a well-formed item, followed by bytes that do not
extend it, one step consumes exactly its bytes and executes it (spec/43_sequencer_step.md section 2). -/
def Obligations.StepRunsSpelledItem : Prop :=
  ∀ (s : State) (i : Instr) (rest : List Byte), s.seq.mode = .parse → fetch s = encode i ++ rest → i.wf = true →
    i.endedBy s.cmdEnded rest = true → s.cfg.intMax = none → s.cfg.counterBits = none →
    step s = exec i (consume (encode i) s)

/-- `CmdTake()` (spec/20_memory.md section 1; lines and columns are the spec's D16) consumes the byte at the cursor:
the position advances by one; a line feed starts the next line at column 1, any other byte moves one column on;
nothing else changes. Consuming an item's bytes is that, byte by byte. -/
def Obligations.CursorFollowsTheBytes : Prop :=
  ∀ (s : State) (b : Byte), s.mem.read s.seq.pos = some b →
    (b = 0x0A#8 → cmdTake s = { s with seq := { s.seq with
      pos := s.seq.pos + 1, line := s.seq.line + 1, col := 1 } }) ∧
    (b ≠ 0x0A#8 → cmdTake s = { s with seq := { s.seq with pos := s.seq.pos + 1, col := s.seq.col + 1 } }) ∧
    (∀ bs : List Byte, consume (b :: bs) s = consume bs (cmdTake s)) ∧ consume [] s = s ∧
    (s.mem.wf = true → fetch s = b :: fetch (cmdTake s))

/-- A misspelled item: the step consumes the bytes before the offending one and enters the fault, with the position of
the offending byte, which is the one recorded (E_SYNTAX), or of the end of input (E_EOF); no register but the cursor
is written by the item, and there is no further step (spec/60_exceptions.md sections 3 to 5). A set COUNTER_BITS is
the only thing added around it (the model's choice, log 8). -/
def Obligations.MisspelledItemEntersFault : Prop :=
  ∀ (s : State) (f : Spelling) (rest : List Byte), s.seq.mode = .parse →
    decode s.cmdEnded (fetch s) = .fatal f rest →
    ∃ (pre : List Byte) (t : State), fetch s = pre ++ rest ∧
      ((∃ b tail, rest = b :: tail ∧ f.got = .byte b ∧ f.code = .eSyntax) ∨
        (rest = [] ∧ s.cmdEnded = true ∧ f.got = .eof ∧ f.code = .eEof)) ∧
      step s = withinCounters (.next t) ∧ FaultEntered f.code f.got f.exp .nothing (consume pre s) t ∧
      t.seq.pos = s.seq.pos + pre.length ∧ t.voices = s.voices ∧ t.seq.sel = s.seq.sel ∧
      t.seq.samplesPerTick = s.seq.samplesPerTick ∧ t.seq.samplesDone = s.seq.samplesDone ∧
      t.seq.shouldStop = s.seq.shouldStop ∧ t.smp = s.smp ∧ step t = .fault .faulted

/-- The core holds, changing nothing, while the bytes an item needs have not been delivered and while the host does
not accept a sample (spec/20_memory.md section 1, spec/92_eei_decisions.md D40; that a hold is a step to the same
state, and that it is within a set COUNTER_BITS, are the model's choices, log 4 and log 8). With end of input
signalled the decoder never waits (spec R67, R73); without it, it waits exactly on what more bytes would make an item:
the proper beginnings of items' spellings, among them an item whole but for what ends its last literal (spec R61,
R180). -/
def Obligations.CoreHoldsWhileHostIsNotReady : Prop :=
  (∀ s : State,
    (s.seq.mode = .parse → decode s.cmdEnded (fetch s) = .wait → step s = withinCounters (.next s)) ∧
    (s.seq.mode = .emit → s.smpReady = false → step s = withinCounters (.next s))) ∧
  (∀ bs : List Byte, decode true bs ≠ .wait) ∧
  (∀ bs : List Byte, decode false bs = .wait ↔
    ∃ (i : Instr) (tail : List Byte), i.wf = true ∧ tail ≠ [] ∧ encode i = bs ++ tail) ∧
  (∀ i : Instr, i.wf = true → i.endedBy false [] = false → decode false (encode i) = .wait)

/-- `Stopped` and `Faulted` have no step (spec/43_sequencer_step.md section 2, the spec's D37): `step` answers its two
fault outcomes there (log 5), never a next state. -/
def Obligations.TerminalModesHaveNoStep : Prop :=
  ∀ s : State, (s.seq.mode = .stopped → step s = .fault .stopped) ∧ (s.seq.mode = .faulted → step s = .fault .faulted) ∧
    (s.seq.mode = .stopped ∨ s.seq.mode = .faulted → ∀ t, step s ≠ .next t)

/-- The emit step (spec/43_sequencer_step.md section 2) mixes, delivers one pair, counts it, and sets the mode by the
incremented counter; it raises no fault and writes nothing else. A set COUNTER_BITS is the only thing added around it
(the model's choice, log 8). -/
def Obligations.EmitStepDeliversOneSample : Prop :=
  ∀ s : State, s.seq.mode = .emit → s.smpReady = true →
    ∃ t, step s = withinCounters (.next t) ∧
      t.smp = s.smp ++ [⟨(mix s).sum, s.seq.shouldStop⟩] ∧ t.voices = (mix s).voices ∧ t.draws = (mix s).draws ∧
      t.seq = { s.seq with
        samplesDone := s.seq.samplesDone + 1
        mode :=
          if s.seq.shouldStop = true then .stopped
          else if (s.seq.samplesDone + 1) % s.seq.samplesPerTick = 0 then .parse
          else .emit } ∧
      t.cfg = s.cfg ∧ (∀ a, t.mem.read a = s.mem.read a) ∧ t.cmdEnded = s.cmdEnded ∧ t.smpReady = s.smpReady ∧
      FaultKept s t

/-! ## Oscillator, envelope, mixer -/

/-- The mixer (spec/42_voice_mixer.md section 3; the order of draws is spec/20_memory.md section 7 and D39): the mix
advances every voice of the bank once and is the sum of their samples, taken in index order, each voice's free values
after those of the voices before it. -/
def Obligations.MixSumsVoicesInIndexOrder : Prop :=
  ∀ s : State, (mix s).voices.length = s.nVoices ∧
    (∀ (i : Nat) (v : Voice), s.voices[i]? = some v → (mix s).voices[i]? = some (voiceNext s.cfg.sampleRate v)) ∧
    ∃ ds : List Draws, ds.length = s.nVoices + 1 ∧ ds[0]? = some s.draws ∧ ds[s.nVoices]? = some (mix s).draws ∧
      (∀ (i : Nat) (v : Voice) (d : Draws), s.voices[i]? = some v → ds[i]? = some d →
        ds[i + 1]? = some (voiceSample s.cfg.sampleRate v d).draws) ∧
      (mix s).sum = (List.zipWith (fun v d => (voiceSample s.cfg.sampleRate v d).value) s.voices ds).sum

/-- Spec R109: a voice's sample is oscillator times amplitude times velocity, the oscillator at its old phase; then
both advance, and the velocity stays; with the three factors in their ranges the sample is in [-1, +1]. -/
def Obligations.VoiceAdvanceIsTheProduct : Prop :=
  ∀ (sr : Nat) (v : Voice) (d : Draws),
    (voiceSample sr v d).value = (oscValue v.osc d).value * envNextAmp sr v.env * v.velocity ∧
    (voiceSample sr v d).draws = (oscValue v.osc d).draws ∧
    (voiceNext sr v).osc = oscAdvance v.osc ∧ (voiceNext sr v).env = envNext sr v.env ∧
    (voiceNext sr v).velocity = v.velocity ∧
    (-1 ≤ (oscValue v.osc d).value → (oscValue v.osc d).value ≤ 1 → 0 ≤ envNextAmp sr v.env → envNextAmp sr v.env ≤ 1 →
      0 ≤ v.velocity → v.velocity ≤ 1 → -1 ≤ (voiceSample sr v d).value ∧ (voiceSample sr v d).value ≤ 1)

/-- The phase accumulator (spec/40_oscillator.md section 2, its law derived there): phase and parameter are in [0, 1)
after each advance, and after `k` advances the phase is the start plus `k` increments, wrapped. -/
def Obligations.PhaseAccumulates : Prop :=
  ∀ (o : Osc) (k : Nat), 1 ≤ k →
    (oscAdvance^[k] o).phase = frac (o.phase + (k : Rat) * o.phasePerSample) ∧
    0 ≤ (oscAdvance^[k] o).phase ∧ (oscAdvance^[k] o).phase < 1 ∧
    0 ≤ (oscAdvance^[k] o).parameter ∧ (oscAdvance^[k] o).parameter < 1

/-- Spec R76: the pulse, its ties, and its corner parameters. -/
def Obligations.PulseIsStrictlyAboveParameter : Prop :=
  ∀ phase parameter : Rat,
    (phase > parameter → pulseValue phase parameter = 1) ∧ (¬ phase > parameter → pulseValue phase parameter = -1) ∧
    pulseValue phase phase = -1 ∧
    (0 < phase → pulseValue phase 0 = 1) ∧ pulseValue 0 0 = -1 ∧
    (phase < 1 → 1 ≤ parameter → pulseValue phase parameter = -1)

/-- Spec R77: the folded ramp, negated in the second half-cycle, which mirrors the first; its values at phase 1/2 and
0. (The 0/0 case is spec R79's, below.) -/
def Obligations.SawIsTheFoldedRamp : Prop :=
  ∀ phase parameter : Rat, 0 ≤ phase → phase < 1 → 0 ≤ parameter →
    (¬ (parameter = 1 ∧ phase = 1 / 2) →
      sawValue phase parameter =
        some ((if phase > 1 / 2 then -1 else 1) *
          (if 2 * min phase (1 - phase) < parameter then 2 * min phase (1 - phase) / parameter
           else (1 - 2 * min phase (1 - phase)) / (1 - parameter)))) ∧
    (parameter < 1 → sawValue (1 / 2) parameter = some 0) ∧
    (0 < parameter → sawValue 0 parameter = some 0) ∧ sawValue 0 0 = some 1 ∧
    (0 < phase → phase < 1 / 2 → sawValue (1 - phase) parameter = (sawValue phase parameter).map (fun v => -v))

/-- The 0/0 of the Saw (spec/40_oscillator.md section 1, the spec's D20; log 10): at parameter 1 and phase 1/2 the Saw
sample is a free value, one is taken, and the registers advance as usual; at every other phase of [0, 1) parameter 1
gives the folded phase, negated in the second half-cycle. -/
def Obligations.SawUnspecifiedOnlyAtTheTie : Prop :=
  (∀ (o : Osc) (d : Draws), o.waveform = .saw → o.parameter = 1 → o.phase = 1 / 2 →
    (oscValue o d).value = Config.freeSaw d.saw ∧ (oscValue o d).draws = { d with saw := d.saw + 1 } ∧
    (oscAdvance o).phase = frac (1 / 2 + o.phasePerSample) ∧
    (oscAdvance o).parameter = frac (1 + o.parameterPerSample)) ∧
  (∀ phase : Rat, 0 ≤ phase → phase < 1 → phase ≠ 1 / 2 →
    sawValue phase 1 =
      some (if phase > 1 / 2 then -(2 * min phase (1 - phase)) else 2 * min phase (1 - phase)))

/-- The bound the spec derives (spec/40_oscillator.md section 1): the Saw value is defined and in [-1, +1] for every
parameter below 1; above 1 it is a value of [0, 1), negated in the second half-cycle; the pulse is +1 or -1, a draw is
in [-1, +1]; so every oscillator value is in [-1, +1] except in the one case of spec R79. -/
def Obligations.OscillatorValuesAreBounded : Prop :=
  (∀ phase parameter : Rat, 0 ≤ phase → phase < 1 → 0 ≤ parameter →
    (parameter < 1 → ∃ v, sawValue phase parameter = some v ∧ -1 ≤ v ∧ v ≤ 1) ∧
    (1 < parameter → ∃ v, sawValue phase parameter = some (if phase > 1 / 2 then -v else v) ∧ 0 ≤ v ∧ v < 1)) ∧
  (∀ phase parameter : Rat, pulseValue phase parameter = 1 ∨ pulseValue phase parameter = -1) ∧
  (∀ k : Nat, -1 ≤ noiseDraw k ∧ noiseDraw k ≤ 1) ∧
  (∀ (o : Osc) (d : Draws), 0 ≤ o.phase → o.phase < 1 → 0 ≤ o.parameter →
    ¬ (o.waveform = .saw ∧ o.parameter = 1 ∧ o.phase = 1 / 2) →
    -1 ≤ (oscValue o d).value ∧ (oscValue o d).value ≤ 1)

/-- A Noise voice takes exactly one draw (spec/40_oscillator.md section 1), in [-1, +1], whatever phase and parameter;
another voice takes none (the spec's D4; log 9). -/
def Obligations.NoiseTakesOneDrawPerSample : Prop :=
  ∀ (o : Osc) (d : Draws),
    (o.waveform = .noise →
      -1 ≤ (oscValue o d).value ∧ (oscValue o d).value ≤ 1 ∧ (oscValue o d).draws = { d with noise := d.noise + 1 } ∧
      ∀ phase parameter : Rat, oscValue { o with phase := phase, parameter := parameter } d = oscValue o d) ∧
    (o.waveform ≠ .noise → (oscValue o d).draws.noise = d.noise)

/-- Spec R83: the formula, octave doubling for the notes of [0,128), the table's entries for notes 0 to 11, and note
69 at 440 Hz. -/
def Obligations.FrequencyDoublesPerOctave : Prop :=
  ∀ c : Config, c.Valid →
    (∀ (n : Nat) (h : n % 12 < 12), frequency c.baseFreq n = c.baseFreq[n % 12] * 2 ^ (n / 12)) ∧
    (∀ n : Nat, n < 128 → frequency c.baseFreq (n + 12) = 2 * frequency c.baseFreq n) ∧
    (∀ n : Fin 12, frequency c.baseFreq n.val = c.baseFreq[n]) ∧ frequency c.baseFreq 69 = 440

/-- Spec R92, R94: the progress ratio, 1 when the state has at most one sample, and the amplitude by state. -/
def Obligations.AmplitudeByStateAndRatio : Prop :=
  ∀ e : Env,
    (e.samplesInState ≤ 1 → e.ratio = 1) ∧
    (2 ≤ e.samplesInState → e.ratio = (e.samplesDone : Rat) / ((e.samplesInState : Rat) - 1)) ∧
    (e.samplesDone + 1 = e.samplesInState → e.ratio = 1) ∧
    (e.state = .off → e.amp = 0) ∧ (e.state = .attack ∨ e.state = .attackReleasing → e.amp = e.ratio) ∧
    (e.state = .decay → e.amp = 1 + (e.sustain - 1) * e.ratio) ∧ (e.state = .sustain → e.amp = e.sustain) ∧
    (e.state = .release → e.amp = e.releaseLevel * (1 - e.ratio)) ∧
    (0 ≤ e.sustain → e.sustain ≤ 1 → 0 ≤ e.releaseLevel → e.releaseLevel ≤ 1 →
      (e.state.timed = true → e.samplesDone < e.samplesInState) → 0 ≤ e.amp ∧ e.amp ≤ 1)

/-- The conversion of a duration (spec/41_envelope.md section 1): the greatest number of samples that is at most `ms *
SAMPLE_RATE / 1000`, 0 exactly below one sample, and longer durations never get fewer. -/
def Obligations.DurationsRoundDownToSamples : Prop :=
  ∀ (sr : Nat) (ms : Rat), 0 ≤ ms →
    (msToSamples sr ms : Rat) ≤ ms * (sr : Rat) / 1000 ∧ ms * (sr : Rat) / 1000 < (msToSamples sr ms : Rat) + 1 ∧
    (msToSamples sr ms = 0 ↔ ms * (sr : Rat) < 1000) ∧ ∀ ms' : Rat, ms ≤ ms' → msToSamples sr ms ≤ msToSamples sr ms'

/-- The envelope's complete transition table, by state and event (trigger, stop, release, time elapsed), with the
registers each transition writes (spec R89, R90, R96 to R100). The registers and the level of a release and of a
deferred one are the spec's decision D22 (R90, R97); that the time has elapsed when `samples_in_state <= samples_done`
is its D23 (R95). -/
def Obligations.EnvelopeTransitionTable : Prop :=
  ∀ (sr : Nat) (e : Env),
    envTrigger sr e = { e with
      state := .attack, samplesDone := 0, samplesInState := msToSamples sr e.attack } ∧
    (envStop e).state = .off ∧
    (e.state = .off ∨ e.state = .attackReleasing ∨ e.state = .release → envRelease sr e = e) ∧
    (e.state = .attack → envRelease sr e = { e with state := .attackReleasing }) ∧
    (e.state = .decay → envRelease sr e = { e with
      state := .release, releaseLevel := 1 + (e.sustain - 1) * e.ratio, samplesDone := 0
      samplesInState := msToSamples sr e.release }) ∧
    (e.state = .sustain → envRelease sr e = { e with
      state := .release, releaseLevel := e.sustain, samplesDone := 0
      samplesInState := msToSamples sr e.release }) ∧
    (e.state = .off ∨ e.state = .sustain → settleOnce sr e = none) ∧
    (e.samplesDone < e.samplesInState → settleOnce sr e = none) ∧
    (e.samplesInState ≤ e.samplesDone →
      (e.state = .attack → settleOnce sr e = some { e with
        state := .decay, samplesDone := 0, samplesInState := msToSamples sr e.decay }) ∧
      (e.state = .attackReleasing → settleOnce sr e = some { e with
        state := .release, releaseLevel := 1, samplesDone := 0, samplesInState := msToSamples sr e.release }) ∧
      (e.state = .decay → settleOnce sr e = some { e with
        state := .sustain, samplesDone := 0, samplesInState := 0 }) ∧
      (e.state = .release → settleOnce sr e = some { e with state := .off, samplesDone := 0, samplesInState := 0 }))

/-- The settle loop (spec/41_envelope.md section 4, derived there; the cap is the spec's D23): the loop ends after at
most two transitions, so the cap changes no run. -/
def Obligations.SettleEndsWithinTwoTransitions : Prop :=
  ∀ (sr : Nat) (e : Env), settleOnce sr (settle sr e) = none ∧ ∀ n, 2 ≤ n → settleUpTo sr n e = settle sr e

/-- With sustain and release level at most 1 every amplitude is in [0, 1], and a sample keeps it so
(spec/41_envelope.md section 3). -/
def Obligations.AmplitudesStayInTheUnitInterval : Prop :=
  ∀ (sr : Nat) (e : Env), e.InRange → e.sustain ≤ 1 → e.releaseLevel ≤ 1 →
    0 ≤ envNextAmp sr e ∧ envNextAmp sr e ≤ 1 ∧
    (envNext sr e).InRange ∧ (envNext sr e).sustain ≤ 1 ∧ (envNext sr e).releaseLevel ≤ 1

/-- The attack ramp (spec/41_envelope.md section 5, the first testable property and the zero-length states of R103):
of the `n` samples after `T`, sample `k` (from 0) has amplitude `k / (n - 1)`, or 1 when `n = 1`, so the last has 1.
The sample after them, the first of all when `n = 0`, has amplitude 1 when the decay has two samples or more, else the
sustain level. An attack that has samples is left with its last one, for Decay at progress 0, or for Sustain when the
decay has no sample; an attack of none, with the first sample after `T`, which counts in the state settled into. -/
def Obligations.AttackRampReachesOneThenDecays : Prop :=
  ∀ (sr : Nat) (e : Env),
    let n := msToSamples sr e.attack
    let m := msToSamples sr e.decay
    let after := fun k : Nat => (envNext sr)^[k] (envTrigger sr e)
    (∀ k, k < n → envNextAmp sr (after k) = if n = 1 then 1 else (k : Rat) / ((n - 1 : Nat) : Rat)) ∧
    (2 ≤ m → envNextAmp sr (after n) = 1) ∧ (m ≤ 1 → envNextAmp sr (after n) = e.sustain) ∧
    (1 ≤ n →
      (1 ≤ m → (after n).state = .decay ∧ (after n).samplesDone = 0 ∧ (after n).samplesInState = m) ∧
      (m = 0 → (after n).state = .sustain ∧ (after n).samplesDone = 0)) ∧
    (n = 0 →
      (2 ≤ m → (after 1).state = .decay ∧ (after 1).samplesDone = 1 ∧ (after 1).samplesInState = m) ∧
      (m = 1 → (after 1).state = .sustain ∧ (after 1).samplesDone = 0) ∧
      (m = 0 → (after 1).state = .sustain ∧ (after 1).samplesDone = 1))

/-- A release during the attack does not cut the ramp (spec/41_envelope.md section 5, the third testable property and
R103): released after `j` of the `n` attack samples, or at once when `n = 0`, the remaining ones have the amplitudes
they would have had. Then the level is 1: the next amplitude is 1 when the release has two samples or more, else 0. An
attack that has samples is left with its last one, for Release at progress 0, or for Off when the release has no
sample; an attack of none, with the first sample, which counts in the state settled into. -/
def Obligations.ReleaseDuringAttackCompletesTheRamp : Prop :=
  ∀ (sr : Nat) (e : Env) (j : Nat),
    let n := msToSamples sr e.attack
    let m := msToSamples sr e.release
    let after := fun k : Nat => (envNext sr)^[k] (envTrigger sr e)
    let released := fun k : Nat => (envNext sr)^[k] (envRelease sr (after j))
    (j < n ∨ n = 0 ∧ j = 0) →
    (released 0).state = .attackReleasing ∧ (released 0).samplesDone = j ∧ (released 0).samplesInState = n ∧
    (∀ k, j + k < n → envNextAmp sr (released k) = envNextAmp sr (after (j + k))) ∧
    (2 ≤ m → envNextAmp sr (released (n - j)) = 1) ∧ (m ≤ 1 → envNextAmp sr (released (n - j)) = 0) ∧
    (1 ≤ n →
      (released (n - j)).releaseLevel = 1 ∧ (released (n - j)).samplesDone = 0 ∧
      (1 ≤ m → (released (n - j)).state = .release ∧ (released (n - j)).samplesInState = m) ∧
      (m = 0 → (released (n - j)).state = .off)) ∧
    (n = 0 →
      (released 1).releaseLevel = 1 ∧
      (2 ≤ m → (released 1).state = .release ∧ (released 1).samplesDone = 1 ∧ (released 1).samplesInState = m) ∧
      (m = 1 → (released 1).state = .off ∧ (released 1).samplesDone = 0) ∧
      (m = 0 → (released 1).state = .off ∧ (released 1).samplesDone = 1))

/-- The per-sample step `next()` (spec/41_envelope.md section 5; where the transition stands is the spec's D23):
settle, answer the amplitude, count the sample, settle again; it ends settled. So from Decay at any progress the
amplitudes ramp to sustain, and after the last sample the state is Sustain with both counters 0; Sustain and Off hold,
their amplitudes sustain and 0, and only count. Release from Sustain (the second testable property): the captured
level is sustain, the amplitudes ramp from it to 0 over the release's samples, and after them, or after one sample
when it has none, the state is Off. -/
def Obligations.DecaySustainReleaseOffBySample : Prop :=
  ∀ (sr : Nat) (e : Env),
    let after := fun k : Nat => (envNext sr)^[k] e
    let n := e.samplesInState
    let released := fun k : Nat => (envNext sr)^[k] (envRelease sr e)
    let m := msToSamples sr e.release
    envNextAmp sr e = (settle sr e).amp ∧
    envNext sr e = settle sr { settle sr e with samplesDone := (settle sr e).samplesDone + 1 } ∧
    settleOnce sr (envNext sr e) = none ∧
    (e.state = .decay → e.samplesDone < n →
      (∀ k, e.samplesDone + k < n →
        after k = { e with samplesDone := e.samplesDone + k } ∧
        envNextAmp sr (after k) =
          if n = 1 then e.sustain
          else 1 + (e.sustain - 1) * (((e.samplesDone + k : Nat) : Rat) / ((n - 1 : Nat) : Rat))) ∧
      envNextAmp sr (after (n - 1 - e.samplesDone)) = e.sustain ∧
      after (n - e.samplesDone) = { e with state := .sustain, samplesDone := 0, samplesInState := 0 }) ∧
    (e.state = .sustain → ∀ k,
      after k = { e with samplesDone := e.samplesDone + k } ∧ envNextAmp sr (after k) = e.sustain) ∧
    (e.state = .off → ∀ k, after k = { e with samplesDone := e.samplesDone + k } ∧ envNextAmp sr (after k) = 0) ∧
    (e.state = .sustain →
      (envRelease sr e).releaseLevel = e.sustain ∧
      (∀ k, k < m → envNextAmp sr (released k) =
        if m = 1 then 0 else e.sustain * (1 - (k : Rat) / ((m - 1 : Nat) : Rat))) ∧
      (1 ≤ m → envNextAmp sr (released (m - 1)) = 0 ∧ (released m).state = .off ∧ (released m).samplesDone = 0) ∧
      (m = 0 → envNextAmp sr (released 0) = 0 ∧ (released 1).state = .off ∧ (released 1).samplesDone = 1))

/-! ## The commands. `s` has the item's bytes consumed; each answers a next state on every operand. -/

/-- `Cv` (spec/44_config_commands.md section 1; the two checks are the spec's D8 and D9, the values of a fresh voice
other than waveform and ADSR its D6). -/
def Obligations.CvReplacesTheBank : Prop :=
  ∀ (n : IntLit) (s : State),
    (n.value = 0 → ∃ t, exec (.cv n) s = .next t ∧ FaultEntered .eConfig .nothing .nothing (.value 0) s t) ∧
    (s.cfg.maxVoices < n.value → n.value ≠ 0 →
      ∃ t, exec (.cv n) s = .next t ∧ FaultEntered .eAlloc .nothing .nothing (.value n.value) s t) ∧
    (1 ≤ n.value → n.value ≤ s.cfg.maxVoices →
      ∃ t, exec (.cv n) s = .next t ∧ t.nVoices = n.value ∧
        (∀ (i : Nat) (v : Voice), t.voices[i]? = some v →
          v.osc = ⟨.pulseWidth, 0, 0, 1 / 2, 0⟩ ∧ v.env = ⟨15, 40, 7 / 10, 10, .off, 0, 0, 0⟩ ∧ v.velocity = 1) ∧
        t.seq = { s.seq with sel := .single 0 } ∧ PortsKept s t ∧ FaultKept s t)

/-- `Ct` (spec/44_config_commands.md section 2; the floor and the two checks are the spec's D10). -/
def Obligations.CtSetsTheTickLength : Prop :=
  ∀ (n : IntLit) (s : State),
    (n.value = 0 ∨ 60 * s.cfg.sampleRate < n.value →
      ∃ t, exec (.ct n) s = .next t ∧ FaultEntered .eConfig .nothing .nothing (.value n.value) s t) ∧
    (1 ≤ n.value → n.value ≤ 60 * s.cfg.sampleRate →
      ∃ t, exec (.ct n) s = .next t ∧ t.seq = { s.seq with samplesPerTick := 60 * s.cfg.sampleRate / n.value } ∧
        1 ≤ t.seq.samplesPerTick ∧ t.seq.samplesPerTick * n.value ≤ 60 * s.cfg.sampleRate ∧
        60 * s.cfg.sampleRate < (t.seq.samplesPerTick + 1) * n.value ∧
        t.voices = s.voices ∧ PortsKept s t ∧ FaultKept s t)

/-- `//` and `/q` (spec/45_flow_commands.md section 1; the mode and what follows `/q` are the spec's D3, D25) end the
parse phase, with `should_stop` false and true, and write nothing else. -/
def Obligations.MarkersEndTheParsePhase : Prop :=
  ∀ s : State,
    (∃ t, exec .tick s = .next t ∧ t.seq = { s.seq with shouldStop := false, mode := .emit } ∧ t.voices = s.voices ∧
      PortsKept s t ∧ FaultKept s t) ∧
    (∃ t, exec .quit s = .next t ∧ t.seq = { s.seq with shouldStop := true, mode := .emit } ∧ t.voices = s.voices ∧
      PortsKept s t ∧ FaultKept s t)

/-- Spec R131, R132: `/a` and `/<int>` write the selector; an index outside the bank is the fault E_VOICE with the
index and the voice count, and the selector keeps its value. -/
def Obligations.SelectionCommandsWriteTheSelector : Prop :=
  ∀ (n : IntLit) (s : State),
    (∃ t, exec .selAll s = .next t ∧ t.seq = { s.seq with sel := .all } ∧ t.voices = s.voices ∧ PortsKept s t ∧
      FaultKept s t) ∧
    (n.value < s.nVoices → ∃ t, exec (.sel n) s = .next t ∧ t.seq = { s.seq with sel := .single n.value } ∧
      t.voices = s.voices ∧ PortsKept s t ∧ FaultKept s t) ∧
    (s.nVoices ≤ n.value → ∃ t, exec (.sel n) s = .next t ∧
      FaultEntered .eVoice .nothing .nothing (.pair n.value s.nVoices) s t)

/-- Items without effect (spec/45_flow_commands.md section 3): a comment and the six whitespace bytes change nothing
(the cursor has moved over their bytes). -/
def Obligations.SkippedItemsChangeNothing : Prop :=
  ∀ (body : List Byte) (closed : Bool) (s : State),
    exec (.comment body closed) s = .next s ∧ exec .wsTab s = .next s ∧ exec .wsLineFeed s = .next s ∧
    exec .wsVerticalTab s = .next s ∧ exec .wsFormFeed s = .next s ∧ exec .wsCarriageReturn s = .next s ∧
    exec .wsSpace s = .next s

/-- `A` (spec/46_voice_commands.md section 1; any operand is stored as written: the spec's D18, D21) writes the four
ADSR registers of the selected voices and nothing else. -/
def Obligations.AWritesTheFourAdsrRegisters : Prop :=
  ∀ (a d su r : FloatLit) (s : State), ∃ t, exec (.adsr a d su r) s = .next t ∧
    OnlySelectedWritten (fun v => { v with env :=
      { v.env with attack := a.value, decay := d.value, sustain := su.value, release := r.value } }) s t

/-- `P` (spec/46_voice_commands.md section 2; operands above 100 included: the spec's D18, log 18) writes `f / 100` to
the oscillator parameter of the selected voices and nothing else. -/
def Obligations.PWritesTheParameter : Prop :=
  ∀ (f : FloatLit) (s : State), ∃ t, exec (.param f) s = .next t ∧
    OnlySelectedWritten (fun v => { v with osc := { v.osc with parameter := f.value / 100 } }) s t

/-- `V` (spec/46_voice_commands.md section 2; operands above 100 included: the spec's D18, log 18) writes `f / 100` to
the velocity of the selected voices and nothing else. -/
def Obligations.VWritesTheVelocity : Prop :=
  ∀ (f : FloatLit) (s : State), ∃ t, exec (.vel f) s = .next t ∧
    OnlySelectedWritten (fun v => { v with velocity := f.value / 100 }) s t

/-- `N` (spec/46_voice_commands.md section 3; the check before any write is the spec's D33) writes the increment of
the selected voices and nothing else; a note of 128 or more is the fault E_NOTE and no voice is written. -/
def Obligations.NWritesTheIncrement : Prop :=
  ∀ (n : IntLit) (s : State),
    (n.value < 128 → ∃ t, exec (.note n) s = .next t ∧
      OnlySelectedWritten (fun v => { v with osc := { v.osc with
        phasePerSample := frequency s.cfg.baseFreq n.value / (s.cfg.sampleRate : Rat) } }) s t) ∧
    (128 ≤ n.value → ∃ t, exec (.note n) s = .next t ∧
      FaultEntered .eNote .nothing .nothing (.value n.value) s t)

/-- Spec R139, R140, R141: `Wp`, `Ws` and `Wn` write the waveform of the selected voices and nothing else. -/
def Obligations.WWritesTheWaveform : Prop :=
  ∀ s : State,
    (∃ t, exec .wavePulse s = .next t ∧
      OnlySelectedWritten (fun v => { v with osc := { v.osc with waveform := .pulseWidth } }) s t) ∧
    (∃ t, exec .waveSaw s = .next t ∧
      OnlySelectedWritten (fun v => { v with osc := { v.osc with waveform := .saw } }) s t) ∧
    (∃ t, exec .waveNoise s = .next t ∧
      OnlySelectedWritten (fun v => { v with osc := { v.osc with waveform := .noise } }) s t)

/-- Spec R142: `T` restarts the envelope of the selected voices, whatever its state, and writes nothing else. -/
def Obligations.TRestartsTheEnvelope : Prop :=
  ∀ s : State, ∃ t, exec .trigger s = .next t ∧
    OnlySelectedWritten (fun v => { v with env := { v.env with
      state := .attack, samplesDone := 0, samplesInState := msToSamples s.cfg.sampleRate v.env.attack } }) s t

/-- Spec R143: `R` releases each selected voice by its own state: deferred in Attack, at once from the current
amplitude in Decay and Sustain, no effect in AttackReleasing, Release and Off; nothing else is written. -/
def Obligations.RReleasesByState : Prop :=
  ∀ s : State, ∃ t, exec .release s = .next t ∧
    OnlySelectedWritten (fun v => match v.env.state with
      | .attack => { v with env := { v.env with state := .attackReleasing } }
      | .decay => { v with env := { v.env with
          state := .release, releaseLevel := v.env.amp, samplesDone := 0
          samplesInState := msToSamples s.cfg.sampleRate v.env.release } }
      | .sustain => { v with env := { v.env with
          state := .release, releaseLevel := v.env.sustain, samplesDone := 0
          samplesInState := msToSamples s.cfg.sampleRate v.env.release } }
      | .attackReleasing => v
      | .release => v
      | .off => v) s t

/-- `TT` is `T`, `RR` is `R`, and `R` then `T` leaves what `T` leaves but for the release level, which Attack does not
read (spec/46_voice_commands.md section 5). -/
def Obligations.GateCommandsRepeated : Prop :=
  ∀ s t r : State, exec .trigger s = .next t → exec .release s = .next r →
    exec .trigger t = .next t ∧ exec .release r = .next r ∧
    ∃ u, exec .trigger r = .next u ∧ u.seq = t.seq ∧ u.nVoices = t.nVoices ∧
      ∀ (i : Nat) (v w : Voice), u.voices[i]? = some v → t.voices[i]? = some w →
        (Selected s i → v = { w with env := { w.env with releaseLevel := v.env.releaseLevel } }) ∧
        (¬ Selected s i → v = w)

/-- Spec R106: `Voice.trigger(note)` sets the increment and restarts the envelope, and is exactly `N<note>` followed
by `T` on the same selection. -/
def Obligations.NoteThenTriggerIsVoiceTrigger : Prop :=
  ∀ (n : IntLit) (s : State), n.value < 128 →
    (∀ v : Voice, voiceTrigger s.cfg n.value v = { v with
      osc := { v.osc with phasePerSample := frequency s.cfg.baseFreq n.value / (s.cfg.sampleRate : Rat) }
      env := { v.env with
        state := .attack, samplesDone := 0, samplesInState := msToSamples s.cfg.sampleRate v.env.attack } }) ∧
    ∃ t u, exec (.note n) s = .next t ∧ exec .trigger t = .next u ∧
      OnlySelectedWritten (voiceTrigger s.cfg n.value) s u

/-- `P100` holds for one sample (spec/70_reset_and_hazards.md section 3): it writes 1, and the next advance wraps it
to 0 (while the parameter increment is 0, its only value). -/
def Obligations.P100HoldsForOneSample : Prop :=
  ∀ (f : FloatLit) (s : State), f.value = 100 → ∃ t, exec (.param f) s = .next t ∧
    ∀ (i : Nat) (v : Voice), t.voices[i]? = some v → Selected s i →
      v.osc.parameter = 1 ∧ (v.osc.parameterPerSample = 0 → (voiceNext s.cfg.sampleRate v).osc.parameter = 0)

/-! ## The whole machine -/

/-- Spec R148: fault entry writes the record and the mode, delivers the record, and changes nothing else. -/
def Obligations.FaultEntryWritesRecordAndMode : Prop :=
  ∀ (code : FaultCode) (got : Got) (exp : Expected) (aux : Aux) (s : State),
    FaultEntered code got exp aux s (raiseFatal code got exp aux s) ∧
    step (raiseFatal code got exp aux s) = .fault .faulted

/-- A step that enters Faulted is a command step whose item has written nothing but the cursor; it adds exactly one
record, at the cursor, and no sample (spec/60_exceptions.md sections 1, 3 and 5). -/
def Obligations.FaultsAreAtomic : Prop :=
  ∀ s t : State, step s = .next t → t.seq.mode = .faulted →
    s.seq.mode = .parse ∧ t.voices = s.voices ∧ t.seq.sel = s.seq.sel ∧
    t.seq.samplesPerTick = s.seq.samplesPerTick ∧ t.seq.samplesDone = s.seq.samplesDone ∧
    t.seq.shouldStop = s.seq.shouldStop ∧ PortsKept s t ∧
    ∃ r, t.fault = some r ∧ t.flt = s.flt ++ [r] ∧ r.line = t.seq.line ∧ r.col = t.seq.col ∧
      (r.got = .nothing ↔ r.exp = .nothing)

/-- Every step keeps the invariant: configuration, selector in the bank, positive tick length, ranges of every voice
register, envelope progress, agreement of mode, fault and ports, canonical stream (spec/10_state.md). -/
def Obligations.EveryStepKeepsTheInvariant : Prop :=
  ∀ s t : State, s.Inv → step s = .next t → t.Inv

/-- The invariant holds after reset under every valid strap, and of `State.reset`. -/
def Obligations.InvariantHoldsAtReset : Prop :=
  (∀ c : Config, c.Valid → (State.resetWith c).Inv) ∧ State.reset.Inv

/-- What the host may do between steps keeps the invariant (spec/60_exceptions.md section 8). -/
def Obligations.HostOperationsKeepTheInvariant : Prop :=
  ∀ s : State, s.Inv →
    (∀ b t, deliverByte b s = .next t → t.Inv) ∧ (signalEnd s).Inv ∧ (∀ b, (setReady b s).Inv) ∧
    (∀ c : Config, c.Valid → (assertReset c s).Inv)

/-- The state after reset, register by register, for every strap (spec/70_reset_and_hazards.md section 1; the values
the source leaves out are the spec's D6, D7). -/
def Obligations.ResetSetsEveryRegister : Prop :=
  ∀ (c : Config) (s : State),
    let t := assertReset c s
    t.nVoices = c.initVoices ∧
    (∀ (i : Nat) (v : Voice), t.voices[i]? = some v →
      v.osc = ⟨.pulseWidth, 0, 0, 1 / 2, 0⟩ ∧ v.env = ⟨15, 40, 7 / 10, 10, .off, 0, 0, 0⟩ ∧ v.velocity = 1) ∧
    t.seq = ⟨.single 0, c.initSamplesPerTick, 0, false, .parse, 0, 1, 1⟩ ∧ t.fault = none ∧ t.cfg = c ∧
    (∀ a, t.mem.read a = none)

/-- Commands before samples (spec/20_memory.md section 7, spec/43_sequencer_step.md section 3): a step in Parse
delivers no sample, counts none and takes no draw, and it leaves Parse for Emit only by executing `//` or `/q`, with
`should_stop` false or true; a step in Emit leaves the cursor, the selector and the tempo, and it leaves Emit for
Parse only with the sample that ends the tick. -/
def Obligations.CommandsComeBeforeSamples : Prop :=
  ∀ s t : State, step s = .next t →
    (s.seq.mode = .parse → t.smp = s.smp ∧ t.seq.samplesDone = s.seq.samplesDone ∧ t.draws = s.draws ∧
      (t.seq.mode = .parse ∨ t.seq.mode = .emit ∨ t.seq.mode = .faulted) ∧
      (t.seq.mode = .emit → ∃ rest,
        (decode s.cmdEnded (fetch s) = .ok .tick rest ∧ t.seq.shouldStop = false) ∨
        (decode s.cmdEnded (fetch s) = .ok .quit rest ∧ t.seq.shouldStop = true))) ∧
    (s.seq.mode = .emit → t.seq.pos = s.seq.pos ∧ t.seq.line = s.seq.line ∧ t.seq.col = s.seq.col ∧
      t.seq.sel = s.seq.sel ∧ t.seq.samplesPerTick = s.seq.samplesPerTick ∧ t.seq.shouldStop = s.seq.shouldStop ∧
      t.nVoices = s.nVoices ∧ FaultKept s t ∧
      (t.seq.mode = .parse → t.seq.shouldStop = false ∧ t.smp.length = s.smp.length + 1 ∧
        t.seq.samplesDone = s.seq.samplesDone + 1 ∧ t.seq.samplesDone % t.seq.samplesPerTick = 0))

/-- Along every run the cursor never goes back, the strap and the delivered stream stay, the samples counted never
decrease and the samples delivered are only added to (spec/10_state.md section 4, spec/60_exceptions.md section 8). -/
def Obligations.RunsOnlyMoveForward : Prop :=
  ∀ s t : State, Reaches s t →
    s.seq.pos ≤ t.seq.pos ∧ s.seq.samplesDone ≤ t.seq.samplesDone ∧ t.cfg = s.cfg ∧ t.mem = s.mem ∧
    t.cmdEnded = s.cmdEnded ∧ t.smpReady = s.smpReady ∧ s.smp <+: t.smp ∧ s.flt <+: t.flt

/-- Until a `T` executes, a bank whose envelopes are all Off stays so and every sample delivered is 0
(spec/42_voice_mixer.md section 3). -/
def Obligations.SilentUntilTriggered : Prop :=
  ∀ s t : State, AllOff s → step s = .next t →
    (∀ rest, s.seq.mode = .parse → decode s.cmdEnded (fetch s) ≠ .ok .trigger rest) →
    AllOff t ∧ ∃ ps, t.smp = s.smp ++ ps ∧ ∀ p ∈ ps, p.value = 0

/-- The mix reaches at most the sum of the velocities: with sustain and release level at most 1 and no Saw at the tie
of spec R79, the delivered sum is within plus and minus that (spec/42_voice_mixer.md section 3). -/
def Obligations.MixIsBoundedByTheVelocities : Prop :=
  ∀ s : State, s.Inv →
    (∀ v ∈ s.voices, v.env.sustain ≤ 1 ∧ v.env.releaseLevel ≤ 1 ∧
      ¬ (v.osc.waveform = .saw ∧ v.osc.parameter = 1 ∧ v.osc.phase = 1 / 2)) →
    -(s.voices.map (·.velocity)).sum ≤ (mix s).sum ∧ (mix s).sum ≤ (s.voices.map (·.velocity)).sum

/-- The tick lasts to the next multiple of the tick length (spec/70_reset_and_hazards.md section 3): from Emit at
count `d`, with a host that accepts samples, the mode is Parse again after `n - (d mod n)` samples and not before. -/
def Obligations.TickLastsToTheNextMultiple : Prop :=
  ∀ s : State, s.seq.mode = .emit → s.seq.shouldStop = false → 1 ≤ s.seq.samplesPerTick → s.smpReady = true →
    s.cfg.counterBits = none →
    let k := s.seq.samplesPerTick - s.seq.samplesDone % s.seq.samplesPerTick
    (∃ t : State, core.run k s = .next t ∧ t.seq.mode = .parse ∧ t.smp.length = s.smp.length + k ∧
      t.seq.samplesDone % t.seq.samplesPerTick = 0) ∧
    ∀ j, j < k → ∃ u : State, core.run j s = .next u ∧ u.seq.mode = .emit

/-- The two forms agree (spec/43_sequencer_step.md section 2): where one `next_sample()` of the source's form answers
within its fuel (the bound on the items of its parse phase is the model's own, log 24; the statement is for every
bound), a run of steps reaches its state but for the mode, which is Stopped after `/q` and otherwise Parse exactly at
a tick boundary; one sample more has been delivered. -/
def Obligations.NextSampleIsARunOfSteps : Prop :=
  ∀ (fuel : Nat) (s t : State), s.Inv → s.cfg.intMax = none → s.cfg.counterBits = none → s.smpReady = true →
    s.seq.mode = (if s.seq.samplesDone % s.seq.samplesPerTick = 0 then .parse else .emit) →
    nextSample fuel s = some t →
    ∃ (k : Nat) (u : State), core.run k s = .next u ∧ { u with seq := { u.seq with mode := t.seq.mode } } = t ∧
      u.seq.mode =
        (if u.seq.shouldStop = true then .stopped
         else if u.seq.samplesDone % u.seq.samplesPerTick = 0 then .parse else .emit) ∧
      t.smp.length = s.smp.length + 1

/-- The delivered stream: a write is read back, leaves every other offset as it was, and keeps the canonical form
(spec/20_memory.md section 1). -/
def Obligations.StreamReadsWhatWasDelivered : Prop :=
  ∀ (m : Memory) (a : Nat) (b : Byte),
    (m.write a b).read a = some b ∧ (∀ a', a' ≠ a → (m.write a b).read a' = m.read a') ∧
    (m.wf = true → (m.write a b).wf = true) ∧
    (m.wf = true → m.bytesFrom a = match m.read a with
      | none => []
      | some c => c :: m.bytesFrom (a + 1))

/-- A consumed byte is never read again: two canonical streams that agree from the cursor on give the same step
(spec/20_memory.md sections 1 and 10). -/
def Obligations.ConsumedBytesAreNeverReadAgain : Prop :=
  ∀ (s : State) (m : Memory), s.mem.wf = true → m.wf = true → (∀ a, s.seq.pos ≤ a → m.read a = s.mem.read a) →
    (∀ t, step s = .next t → step { s with mem := m } = .next { t with mem := m }) ∧
    (∀ f, step s = .fault f → step { s with mem := m } = .fault f) ∧
    (∀ r, step s = .refused r → step { s with mem := m } = .refused r)
end

