-- ==== Sys2Proof/Laws/Decode.lean ====
section
/-! SUPPORT. The parsers, one lemma each: what they answer on the bytes a literal is spelled with, and what their
answers say about the bytes they read. -/

namespace Sys2Proof.Laws

open Sys2Proof.Machine

@[simp] theorem digitOf_digitByte (d : Digit) : digitOf (digitByte d) = some d := by
  revert d; decide

theorem digitByte_of_digitOf {b : Byte} {d : Digit} (h : digitOf b = some d) : b = digitByte d := by
  unfold digitOf at h
  split at h
  · rename_i hb
    simp only [Option.some.injEq] at h
    subst h
    apply BitVec.eq_of_toNat_eq
    simp only [digitByte, BitVec.toNat_ofNat]
    omega
  · simp at h

/-- Digits read are the digits spelled, when what follows is no digit. -/
theorem takeDigits_append (ds : List Digit) {rest : List Byte} (h : ∀ b t, rest = b :: t → digitOf b = none) :
    takeDigits (ds.map digitByte ++ rest) = (ds, rest) := by
  induction ds with
  | nil =>
    cases rest with
    | nil => rfl
    | cons b t => simp [takeDigits, h b t rfl]
  | cons d ds ih => simp [takeDigits, ih]

/-- The bytes before the first non-digit are the spelling of the digits read. -/
theorem takeDigits_spec (bs : List Byte) :
    bs = (takeDigits bs).1.map digitByte ++ (takeDigits bs).2 ∧
    ∀ b t, (takeDigits bs).2 = b :: t → digitOf b = none := by
  induction bs with
  | nil => simp [takeDigits]
  | cons c bs ih =>
    unfold takeDigits
    cases hd : digitOf c with
    | none => simp only [List.map_nil, List.nil_append, true_and]; rintro b t ⟨rfl, rfl⟩; exact hd
    | some d =>
      simp only [List.map_cons, List.cons_append]
      exact ⟨by rw [digitByte_of_digitOf hd, ← ih.1], ih.2⟩

theorem andThen_ok_iff {α β : Type} {p : Parse α} {k : α → List Byte → Parse β} {b : β} {rest : List Byte} :
    p.andThen k = .ok b rest ↔ ∃ a r, p = .ok a r ∧ k a r = .ok b rest := by
  cases p <;> simp [Parse.andThen]

theorem endLiteral_ok_iff {α : Type} {ended : Bool} {a a' : α} {rest rest' : List Byte} :
    endLiteral ended a rest = .ok a' rest' ↔ a' = a ∧ rest' = rest ∧ (rest = [] → ended = true) := by
  unfold endLiteral
  cases rest with
  | nil => cases ended <;> simp [eq_comm]
  | cons b t => simp [eq_comm]

theorem needByte_ok_iff {α : Type} {ended : Bool} {exp : Expected} {bs : List Byte} {k : Byte → List Byte → Parse α}
    {a : α} {rest : List Byte} :
    needByte ended exp bs k = .ok a rest ↔ ∃ b t, bs = b :: t ∧ k b t = .ok a rest := by
  unfold needByte
  cases bs with
  | nil => cases ended <;> simp
  | cons b t => simp

end Sys2Proof.Laws
end

