-- ==== Sys2Proof/Laws/State.lean ====
section
/-! SUPPORT. One lemma per field and update of State: what each named update leaves in each field, true by rfl. -/

namespace Sys2Proof.Laws

open Sys2Proof.Machine

/-! consume -/
@[simp] theorem consume_cfg (bs : List Byte) (s : State) : (consume bs s).cfg = s.cfg := rfl
@[simp] theorem consume_mem (bs : List Byte) (s : State) : (consume bs s).mem = s.mem := rfl
@[simp] theorem consume_cmdEnded (bs : List Byte) (s : State) : (consume bs s).cmdEnded = s.cmdEnded := rfl
@[simp] theorem consume_smpReady (bs : List Byte) (s : State) : (consume bs s).smpReady = s.smpReady := rfl
@[simp] theorem consume_voices (bs : List Byte) (s : State) : (consume bs s).voices = s.voices := rfl
@[simp] theorem consume_seq (bs : List Byte) (s : State) : (consume bs s).seq = bs.foldl SeqRegs.advance s.seq := rfl
@[simp] theorem consume_fault (bs : List Byte) (s : State) : (consume bs s).fault = s.fault := rfl
@[simp] theorem consume_smp (bs : List Byte) (s : State) : (consume bs s).smp = s.smp := rfl
@[simp] theorem consume_flt (bs : List Byte) (s : State) : (consume bs s).flt = s.flt := rfl
@[simp] theorem consume_draws (bs : List Byte) (s : State) : (consume bs s).draws = s.draws := rfl

/-! consumeTo -/
@[simp] theorem consumeTo_cfg (rest : List Byte) (s : State) : (consumeTo rest s).cfg = s.cfg := rfl
@[simp] theorem consumeTo_mem (rest : List Byte) (s : State) : (consumeTo rest s).mem = s.mem := rfl
@[simp] theorem consumeTo_cmdEnded (rest : List Byte) (s : State) : (consumeTo rest s).cmdEnded = s.cmdEnded := rfl
@[simp] theorem consumeTo_smpReady (rest : List Byte) (s : State) : (consumeTo rest s).smpReady = s.smpReady := rfl
@[simp] theorem consumeTo_voices (rest : List Byte) (s : State) : (consumeTo rest s).voices = s.voices := rfl
@[simp] theorem consumeTo_fault (rest : List Byte) (s : State) : (consumeTo rest s).fault = s.fault := rfl
@[simp] theorem consumeTo_smp (rest : List Byte) (s : State) : (consumeTo rest s).smp = s.smp := rfl
@[simp] theorem consumeTo_flt (rest : List Byte) (s : State) : (consumeTo rest s).flt = s.flt := rfl
@[simp] theorem consumeTo_draws (rest : List Byte) (s : State) : (consumeTo rest s).draws = s.draws := rfl

/-! raiseFatal -/
@[simp] theorem raiseFatal_cfg (c : FaultCode) (g : Got) (e : Expected) (x : Aux) (s : State) : (raiseFatal c g e x s).cfg = s.cfg := rfl
@[simp] theorem raiseFatal_mem (c : FaultCode) (g : Got) (e : Expected) (x : Aux) (s : State) : (raiseFatal c g e x s).mem = s.mem := rfl
@[simp] theorem raiseFatal_cmdEnded (c : FaultCode) (g : Got) (e : Expected) (x : Aux) (s : State) : (raiseFatal c g e x s).cmdEnded = s.cmdEnded := rfl
@[simp] theorem raiseFatal_smpReady (c : FaultCode) (g : Got) (e : Expected) (x : Aux) (s : State) : (raiseFatal c g e x s).smpReady = s.smpReady := rfl
@[simp] theorem raiseFatal_voices (c : FaultCode) (g : Got) (e : Expected) (x : Aux) (s : State) : (raiseFatal c g e x s).voices = s.voices := rfl
@[simp] theorem raiseFatal_fault (c : FaultCode) (g : Got) (e : Expected) (x : Aux) (s : State) : (raiseFatal c g e x s).fault = some (faultRecord s.seq c g e x) := rfl
@[simp] theorem raiseFatal_smp (c : FaultCode) (g : Got) (e : Expected) (x : Aux) (s : State) : (raiseFatal c g e x s).smp = s.smp := rfl
@[simp] theorem raiseFatal_flt (c : FaultCode) (g : Got) (e : Expected) (x : Aux) (s : State) : (raiseFatal c g e x s).flt = s.flt ++ [faultRecord s.seq c g e x] := rfl
@[simp] theorem raiseFatal_draws (c : FaultCode) (g : Got) (e : Expected) (x : Aux) (s : State) : (raiseFatal c g e x s).draws = s.draws := rfl
@[simp] theorem raiseFatal_seq_sel (c : FaultCode) (g : Got) (e : Expected) (x : Aux) (s : State) : (raiseFatal c g e x s).seq.sel = s.seq.sel := rfl
@[simp] theorem raiseFatal_seq_samplesPerTick (c : FaultCode) (g : Got) (e : Expected) (x : Aux) (s : State) : (raiseFatal c g e x s).seq.samplesPerTick = s.seq.samplesPerTick := rfl
@[simp] theorem raiseFatal_seq_samplesDone (c : FaultCode) (g : Got) (e : Expected) (x : Aux) (s : State) : (raiseFatal c g e x s).seq.samplesDone = s.seq.samplesDone := rfl
@[simp] theorem raiseFatal_seq_shouldStop (c : FaultCode) (g : Got) (e : Expected) (x : Aux) (s : State) : (raiseFatal c g e x s).seq.shouldStop = s.seq.shouldStop := rfl
@[simp] theorem raiseFatal_seq_mode (c : FaultCode) (g : Got) (e : Expected) (x : Aux) (s : State) : (raiseFatal c g e x s).seq.mode = .faulted := rfl
@[simp] theorem raiseFatal_seq_pos (c : FaultCode) (g : Got) (e : Expected) (x : Aux) (s : State) : (raiseFatal c g e x s).seq.pos = s.seq.pos := rfl
@[simp] theorem raiseFatal_seq_line (c : FaultCode) (g : Got) (e : Expected) (x : Aux) (s : State) : (raiseFatal c g e x s).seq.line = s.seq.line := rfl
@[simp] theorem raiseFatal_seq_col (c : FaultCode) (g : Got) (e : Expected) (x : Aux) (s : State) : (raiseFatal c g e x s).seq.col = s.seq.col := rfl

/-! raiseValueFault -/
@[simp] theorem raiseValueFault_cfg (c : FaultCode) (x : Aux) (s : State) : (raiseValueFault c x s).cfg = s.cfg := rfl
@[simp] theorem raiseValueFault_mem (c : FaultCode) (x : Aux) (s : State) : (raiseValueFault c x s).mem = s.mem := rfl
@[simp] theorem raiseValueFault_cmdEnded (c : FaultCode) (x : Aux) (s : State) : (raiseValueFault c x s).cmdEnded = s.cmdEnded := rfl
@[simp] theorem raiseValueFault_smpReady (c : FaultCode) (x : Aux) (s : State) : (raiseValueFault c x s).smpReady = s.smpReady := rfl
@[simp] theorem raiseValueFault_voices (c : FaultCode) (x : Aux) (s : State) : (raiseValueFault c x s).voices = s.voices := rfl
@[simp] theorem raiseValueFault_fault (c : FaultCode) (x : Aux) (s : State) : (raiseValueFault c x s).fault = some (faultRecord s.seq c .nothing .nothing x) := rfl
@[simp] theorem raiseValueFault_smp (c : FaultCode) (x : Aux) (s : State) : (raiseValueFault c x s).smp = s.smp := rfl
@[simp] theorem raiseValueFault_flt (c : FaultCode) (x : Aux) (s : State) : (raiseValueFault c x s).flt = s.flt ++ [faultRecord s.seq c .nothing .nothing x] := rfl
@[simp] theorem raiseValueFault_draws (c : FaultCode) (x : Aux) (s : State) : (raiseValueFault c x s).draws = s.draws := rfl
@[simp] theorem raiseValueFault_seq_sel (c : FaultCode) (x : Aux) (s : State) : (raiseValueFault c x s).seq.sel = s.seq.sel := rfl
@[simp] theorem raiseValueFault_seq_samplesPerTick (c : FaultCode) (x : Aux) (s : State) : (raiseValueFault c x s).seq.samplesPerTick = s.seq.samplesPerTick := rfl
@[simp] theorem raiseValueFault_seq_samplesDone (c : FaultCode) (x : Aux) (s : State) : (raiseValueFault c x s).seq.samplesDone = s.seq.samplesDone := rfl
@[simp] theorem raiseValueFault_seq_shouldStop (c : FaultCode) (x : Aux) (s : State) : (raiseValueFault c x s).seq.shouldStop = s.seq.shouldStop := rfl
@[simp] theorem raiseValueFault_seq_mode (c : FaultCode) (x : Aux) (s : State) : (raiseValueFault c x s).seq.mode = .faulted := rfl
@[simp] theorem raiseValueFault_seq_pos (c : FaultCode) (x : Aux) (s : State) : (raiseValueFault c x s).seq.pos = s.seq.pos := rfl
@[simp] theorem raiseValueFault_seq_line (c : FaultCode) (x : Aux) (s : State) : (raiseValueFault c x s).seq.line = s.seq.line := rfl
@[simp] theorem raiseValueFault_seq_col (c : FaultCode) (x : Aux) (s : State) : (raiseValueFault c x s).seq.col = s.seq.col := rfl

/-! raiseSpellingFault -/
@[simp] theorem raiseSpellingFault_cfg (f : Spelling) (s : State) : (raiseSpellingFault f s).cfg = s.cfg := rfl
@[simp] theorem raiseSpellingFault_mem (f : Spelling) (s : State) : (raiseSpellingFault f s).mem = s.mem := rfl
@[simp] theorem raiseSpellingFault_cmdEnded (f : Spelling) (s : State) : (raiseSpellingFault f s).cmdEnded = s.cmdEnded := rfl
@[simp] theorem raiseSpellingFault_smpReady (f : Spelling) (s : State) : (raiseSpellingFault f s).smpReady = s.smpReady := rfl
@[simp] theorem raiseSpellingFault_voices (f : Spelling) (s : State) : (raiseSpellingFault f s).voices = s.voices := rfl
@[simp] theorem raiseSpellingFault_fault (f : Spelling) (s : State) : (raiseSpellingFault f s).fault = some (faultRecord s.seq f.code f.got f.exp .nothing) := rfl
@[simp] theorem raiseSpellingFault_smp (f : Spelling) (s : State) : (raiseSpellingFault f s).smp = s.smp := rfl
@[simp] theorem raiseSpellingFault_flt (f : Spelling) (s : State) : (raiseSpellingFault f s).flt = s.flt ++ [faultRecord s.seq f.code f.got f.exp .nothing] := rfl
@[simp] theorem raiseSpellingFault_draws (f : Spelling) (s : State) : (raiseSpellingFault f s).draws = s.draws := rfl
@[simp] theorem raiseSpellingFault_seq_sel (f : Spelling) (s : State) : (raiseSpellingFault f s).seq.sel = s.seq.sel := rfl
@[simp] theorem raiseSpellingFault_seq_samplesPerTick (f : Spelling) (s : State) : (raiseSpellingFault f s).seq.samplesPerTick = s.seq.samplesPerTick := rfl
@[simp] theorem raiseSpellingFault_seq_samplesDone (f : Spelling) (s : State) : (raiseSpellingFault f s).seq.samplesDone = s.seq.samplesDone := rfl
@[simp] theorem raiseSpellingFault_seq_shouldStop (f : Spelling) (s : State) : (raiseSpellingFault f s).seq.shouldStop = s.seq.shouldStop := rfl
@[simp] theorem raiseSpellingFault_seq_mode (f : Spelling) (s : State) : (raiseSpellingFault f s).seq.mode = .faulted := rfl
@[simp] theorem raiseSpellingFault_seq_pos (f : Spelling) (s : State) : (raiseSpellingFault f s).seq.pos = s.seq.pos := rfl
@[simp] theorem raiseSpellingFault_seq_line (f : Spelling) (s : State) : (raiseSpellingFault f s).seq.line = s.seq.line := rfl
@[simp] theorem raiseSpellingFault_seq_col (f : Spelling) (s : State) : (raiseSpellingFault f s).seq.col = s.seq.col := rfl

/-! forTargets -/
@[simp] theorem forTargets_cfg (f : Voice → Voice) (s : State) : (forTargets f s).cfg = s.cfg := rfl
@[simp] theorem forTargets_mem (f : Voice → Voice) (s : State) : (forTargets f s).mem = s.mem := rfl
@[simp] theorem forTargets_cmdEnded (f : Voice → Voice) (s : State) : (forTargets f s).cmdEnded = s.cmdEnded := rfl
@[simp] theorem forTargets_smpReady (f : Voice → Voice) (s : State) : (forTargets f s).smpReady = s.smpReady := rfl
@[simp] theorem forTargets_seq (f : Voice → Voice) (s : State) : (forTargets f s).seq = s.seq := rfl
@[simp] theorem forTargets_fault (f : Voice → Voice) (s : State) : (forTargets f s).fault = s.fault := rfl
@[simp] theorem forTargets_smp (f : Voice → Voice) (s : State) : (forTargets f s).smp = s.smp := rfl
@[simp] theorem forTargets_flt (f : Voice → Voice) (s : State) : (forTargets f s).flt = s.flt := rfl
@[simp] theorem forTargets_draws (f : Voice → Voice) (s : State) : (forTargets f s).draws = s.draws := rfl

/-! setWaveform -/
@[simp] theorem setWaveform_cfg (w : Waveform) (s : State) : (setWaveform w s).cfg = s.cfg := rfl
@[simp] theorem setWaveform_mem (w : Waveform) (s : State) : (setWaveform w s).mem = s.mem := rfl
@[simp] theorem setWaveform_cmdEnded (w : Waveform) (s : State) : (setWaveform w s).cmdEnded = s.cmdEnded := rfl
@[simp] theorem setWaveform_smpReady (w : Waveform) (s : State) : (setWaveform w s).smpReady = s.smpReady := rfl
@[simp] theorem setWaveform_seq (w : Waveform) (s : State) : (setWaveform w s).seq = s.seq := rfl
@[simp] theorem setWaveform_fault (w : Waveform) (s : State) : (setWaveform w s).fault = s.fault := rfl
@[simp] theorem setWaveform_smp (w : Waveform) (s : State) : (setWaveform w s).smp = s.smp := rfl
@[simp] theorem setWaveform_flt (w : Waveform) (s : State) : (setWaveform w s).flt = s.flt := rfl
@[simp] theorem setWaveform_draws (w : Waveform) (s : State) : (setWaveform w s).draws = s.draws := rfl

/-! endParse -/
@[simp] theorem endParse_cfg (b : Bool) (s : State) : (endParse b s).cfg = s.cfg := rfl
@[simp] theorem endParse_mem (b : Bool) (s : State) : (endParse b s).mem = s.mem := rfl
@[simp] theorem endParse_cmdEnded (b : Bool) (s : State) : (endParse b s).cmdEnded = s.cmdEnded := rfl
@[simp] theorem endParse_smpReady (b : Bool) (s : State) : (endParse b s).smpReady = s.smpReady := rfl
@[simp] theorem endParse_voices (b : Bool) (s : State) : (endParse b s).voices = s.voices := rfl
@[simp] theorem endParse_fault (b : Bool) (s : State) : (endParse b s).fault = s.fault := rfl
@[simp] theorem endParse_smp (b : Bool) (s : State) : (endParse b s).smp = s.smp := rfl
@[simp] theorem endParse_flt (b : Bool) (s : State) : (endParse b s).flt = s.flt := rfl
@[simp] theorem endParse_draws (b : Bool) (s : State) : (endParse b s).draws = s.draws := rfl
@[simp] theorem endParse_seq_sel (b : Bool) (s : State) : (endParse b s).seq.sel = s.seq.sel := rfl
@[simp] theorem endParse_seq_samplesPerTick (b : Bool) (s : State) : (endParse b s).seq.samplesPerTick = s.seq.samplesPerTick := rfl
@[simp] theorem endParse_seq_samplesDone (b : Bool) (s : State) : (endParse b s).seq.samplesDone = s.seq.samplesDone := rfl
@[simp] theorem endParse_seq_shouldStop (b : Bool) (s : State) : (endParse b s).seq.shouldStop = b := rfl
@[simp] theorem endParse_seq_mode (b : Bool) (s : State) : (endParse b s).seq.mode = .emit := rfl
@[simp] theorem endParse_seq_pos (b : Bool) (s : State) : (endParse b s).seq.pos = s.seq.pos := rfl
@[simp] theorem endParse_seq_line (b : Bool) (s : State) : (endParse b s).seq.line = s.seq.line := rfl
@[simp] theorem endParse_seq_col (b : Bool) (s : State) : (endParse b s).seq.col = s.seq.col := rfl

/-! produceSample -/
@[simp] theorem produceSample_cfg (s : State) : (produceSample s).cfg = s.cfg := rfl
@[simp] theorem produceSample_mem (s : State) : (produceSample s).mem = s.mem := rfl
@[simp] theorem produceSample_cmdEnded (s : State) : (produceSample s).cmdEnded = s.cmdEnded := rfl
@[simp] theorem produceSample_smpReady (s : State) : (produceSample s).smpReady = s.smpReady := rfl
@[simp] theorem produceSample_voices (s : State) : (produceSample s).voices = (mix s).voices := rfl
@[simp] theorem produceSample_fault (s : State) : (produceSample s).fault = s.fault := rfl
@[simp] theorem produceSample_smp (s : State) : (produceSample s).smp = s.smp ++ [⟨(mix s).sum, s.seq.shouldStop⟩] := rfl
@[simp] theorem produceSample_flt (s : State) : (produceSample s).flt = s.flt := rfl
@[simp] theorem produceSample_draws (s : State) : (produceSample s).draws = (mix s).draws := rfl
@[simp] theorem produceSample_seq_sel (s : State) : (produceSample s).seq.sel = s.seq.sel := rfl
@[simp] theorem produceSample_seq_samplesPerTick (s : State) : (produceSample s).seq.samplesPerTick = s.seq.samplesPerTick := rfl
@[simp] theorem produceSample_seq_samplesDone (s : State) : (produceSample s).seq.samplesDone = s.seq.samplesDone + 1 := rfl
@[simp] theorem produceSample_seq_shouldStop (s : State) : (produceSample s).seq.shouldStop = s.seq.shouldStop := rfl
@[simp] theorem produceSample_seq_mode (s : State) : (produceSample s).seq.mode = s.seq.mode := rfl
@[simp] theorem produceSample_seq_pos (s : State) : (produceSample s).seq.pos = s.seq.pos := rfl
@[simp] theorem produceSample_seq_line (s : State) : (produceSample s).seq.line = s.seq.line := rfl
@[simp] theorem produceSample_seq_col (s : State) : (produceSample s).seq.col = s.seq.col := rfl

/-! emitSample -/
@[simp] theorem emitSample_cfg (s : State) : (emitSample s).cfg = s.cfg := rfl
@[simp] theorem emitSample_mem (s : State) : (emitSample s).mem = s.mem := rfl
@[simp] theorem emitSample_cmdEnded (s : State) : (emitSample s).cmdEnded = s.cmdEnded := rfl
@[simp] theorem emitSample_smpReady (s : State) : (emitSample s).smpReady = s.smpReady := rfl
@[simp] theorem emitSample_voices (s : State) : (emitSample s).voices = (mix s).voices := rfl
@[simp] theorem emitSample_fault (s : State) : (emitSample s).fault = s.fault := rfl
@[simp] theorem emitSample_smp (s : State) : (emitSample s).smp = s.smp ++ [⟨(mix s).sum, s.seq.shouldStop⟩] := rfl
@[simp] theorem emitSample_flt (s : State) : (emitSample s).flt = s.flt := rfl
@[simp] theorem emitSample_draws (s : State) : (emitSample s).draws = (mix s).draws := rfl
@[simp] theorem emitSample_seq_sel (s : State) : (emitSample s).seq.sel = s.seq.sel := rfl
@[simp] theorem emitSample_seq_samplesPerTick (s : State) : (emitSample s).seq.samplesPerTick = s.seq.samplesPerTick := rfl
@[simp] theorem emitSample_seq_samplesDone (s : State) : (emitSample s).seq.samplesDone = s.seq.samplesDone + 1 := rfl
@[simp] theorem emitSample_seq_shouldStop (s : State) : (emitSample s).seq.shouldStop = s.seq.shouldStop := rfl
@[simp] theorem emitSample_seq_mode (s : State) : (emitSample s).seq.mode = modeAfterSample { s.seq with samplesDone := s.seq.samplesDone + 1 } := rfl
@[simp] theorem emitSample_seq_pos (s : State) : (emitSample s).seq.pos = s.seq.pos := rfl
@[simp] theorem emitSample_seq_line (s : State) : (emitSample s).seq.line = s.seq.line := rfl
@[simp] theorem emitSample_seq_col (s : State) : (emitSample s).seq.col = s.seq.col := rfl

/-! withFetchWord -/
@[simp] theorem withFetchWord_cfg (n w : Nat) (s : State) : (s.withFetchWord n w).cfg = s.cfg := rfl
@[simp] theorem withFetchWord_mem (n w : Nat) (s : State) : (s.withFetchWord n w).mem = s.mem.writeAll s.seq.pos (tableBytes n w) := rfl
@[simp] theorem withFetchWord_cmdEnded (n w : Nat) (s : State) : (s.withFetchWord n w).cmdEnded = s.cmdEnded := rfl
@[simp] theorem withFetchWord_smpReady (n w : Nat) (s : State) : (s.withFetchWord n w).smpReady = s.smpReady := rfl
@[simp] theorem withFetchWord_voices (n w : Nat) (s : State) : (s.withFetchWord n w).voices = s.voices := rfl
@[simp] theorem withFetchWord_fault (n w : Nat) (s : State) : (s.withFetchWord n w).fault = s.fault := rfl
@[simp] theorem withFetchWord_smp (n w : Nat) (s : State) : (s.withFetchWord n w).smp = s.smp := rfl
@[simp] theorem withFetchWord_flt (n w : Nat) (s : State) : (s.withFetchWord n w).flt = s.flt := rfl
@[simp] theorem withFetchWord_draws (n w : Nat) (s : State) : (s.withFetchWord n w).draws = s.draws := rfl
@[simp] theorem withFetchWord_seq_sel (n w : Nat) (s : State) : (s.withFetchWord n w).seq.sel = s.seq.sel := rfl
@[simp] theorem withFetchWord_seq_samplesPerTick (n w : Nat) (s : State) : (s.withFetchWord n w).seq.samplesPerTick = s.seq.samplesPerTick := rfl
@[simp] theorem withFetchWord_seq_samplesDone (n w : Nat) (s : State) : (s.withFetchWord n w).seq.samplesDone = s.seq.samplesDone := rfl
@[simp] theorem withFetchWord_seq_shouldStop (n w : Nat) (s : State) : (s.withFetchWord n w).seq.shouldStop = s.seq.shouldStop := rfl
@[simp] theorem withFetchWord_seq_mode (n w : Nat) (s : State) : (s.withFetchWord n w).seq.mode = .parse := rfl
@[simp] theorem withFetchWord_seq_pos (n w : Nat) (s : State) : (s.withFetchWord n w).seq.pos = s.seq.pos := rfl
@[simp] theorem withFetchWord_seq_line (n w : Nat) (s : State) : (s.withFetchWord n w).seq.line = s.seq.line := rfl
@[simp] theorem withFetchWord_seq_col (n w : Nat) (s : State) : (s.withFetchWord n w).seq.col = s.seq.col := rfl

/-! signalEnd -/
@[simp] theorem signalEnd_cfg (s : State) : (signalEnd s).cfg = s.cfg := rfl
@[simp] theorem signalEnd_mem (s : State) : (signalEnd s).mem = s.mem := rfl
@[simp] theorem signalEnd_cmdEnded (s : State) : (signalEnd s).cmdEnded = true := rfl
@[simp] theorem signalEnd_smpReady (s : State) : (signalEnd s).smpReady = s.smpReady := rfl
@[simp] theorem signalEnd_voices (s : State) : (signalEnd s).voices = s.voices := rfl
@[simp] theorem signalEnd_seq (s : State) : (signalEnd s).seq = s.seq := rfl
@[simp] theorem signalEnd_fault (s : State) : (signalEnd s).fault = s.fault := rfl
@[simp] theorem signalEnd_smp (s : State) : (signalEnd s).smp = s.smp := rfl
@[simp] theorem signalEnd_flt (s : State) : (signalEnd s).flt = s.flt := rfl
@[simp] theorem signalEnd_draws (s : State) : (signalEnd s).draws = s.draws := rfl

/-! setReady -/
@[simp] theorem setReady_cfg (b : Bool) (s : State) : (setReady b s).cfg = s.cfg := rfl
@[simp] theorem setReady_mem (b : Bool) (s : State) : (setReady b s).mem = s.mem := rfl
@[simp] theorem setReady_cmdEnded (b : Bool) (s : State) : (setReady b s).cmdEnded = s.cmdEnded := rfl
@[simp] theorem setReady_smpReady (b : Bool) (s : State) : (setReady b s).smpReady = b := rfl
@[simp] theorem setReady_voices (b : Bool) (s : State) : (setReady b s).voices = s.voices := rfl
@[simp] theorem setReady_seq (b : Bool) (s : State) : (setReady b s).seq = s.seq := rfl
@[simp] theorem setReady_fault (b : Bool) (s : State) : (setReady b s).fault = s.fault := rfl
@[simp] theorem setReady_smp (b : Bool) (s : State) : (setReady b s).smp = s.smp := rfl
@[simp] theorem setReady_flt (b : Bool) (s : State) : (setReady b s).flt = s.flt := rfl
@[simp] theorem setReady_draws (b : Bool) (s : State) : (setReady b s).draws = s.draws := rfl

end Sys2Proof.Laws
end

