-- ==== Sys2Proof/Laws/Numbers.lean ====
section
/-! SUPPORT. The wrap of spec R9, floors, literal values, and frequencies. -/

namespace Sys2Proof.Laws

open Sys2Proof.Machine

/-- The model's wrap is the fractional part (spec R9), so the library's laws of `Int.fract` apply to it. -/
theorem frac_eq_fract (q : Quantity) : frac q = Int.fract q := rfl

theorem frac_nonneg (q : Quantity) : 0 ≤ frac q := Int.fract_nonneg q

theorem frac_lt_one (q : Quantity) : frac q < 1 := Int.fract_lt_one q

theorem frac_of_unit {q : Quantity} (h0 : 0 ≤ q) (h1 : q < 1) : frac q = q := Int.fract_eq_self.2 ⟨h0, h1⟩

/-- A wrap inside a sum under a wrap may be dropped: the accumulation law of spec R82. -/
theorem frac_frac_add (a b : Quantity) : frac (frac a + b) = frac (a + b) := by
  simp only [frac_eq_fract]
  have h : Int.fract a + b = a + b - (⌊a⌋ : Int) := by rw [Int.fract]; ring
  rw [h, Int.fract_sub_intCast]

/-- One more digit after those read (spec R59). -/
theorem digitsValue_append (v : Nat) (ds : List Digit) (d : Digit) :
    digitsValue v (ds ++ [d]) = digitsValue v ds * 10 + d.val := by
  induction ds generalizing v with
  | nil => rfl
  | cons e ds ih => exact ih _

/-- One more digit after the point adds `d / 10^k` (spec R60). -/
theorem fractionValue_append (scale : Quantity) (ds : List Digit) (d : Digit) :
    fractionValue scale (ds ++ [d]) = fractionValue scale ds + scale / 10 ^ (ds.length + 1) * (d.val : Quantity) := by
  induction ds generalizing scale with
  | nil => simp [fractionValue]
  | cons e ds ih =>
    simp only [List.cons_append, fractionValue, ih, List.length_cons]
    rw [show scale / 10 / 10 ^ (ds.length + 1) = scale / 10 ^ (ds.length + 1 + 1) by
      rw [div_div, ← pow_succ']]
    ring

theorem fractionValue_nonneg {scale : Quantity} (h : 0 ≤ scale) (ds : List Digit) : 0 ≤ fractionValue scale ds := by
  induction ds generalizing scale with
  | nil => exact le_rfl
  | cons d ds ih =>
    have h10 : 0 ≤ scale / 10 := by positivity
    exact add_nonneg (mul_nonneg h10 (by exact_mod_cast Nat.zero_le _)) (ih h10)

/-- No literal is negative (spec R60: "There is no sign"). -/
theorem floatValue_nonneg (l : FloatLit) : 0 ≤ l.value := by
  unfold FloatLit.value
  cases l.frac with
  | none => simp
  | some ds => exact add_nonneg (by exact_mod_cast Nat.zero_le _) (fractionValue_nonneg (by norm_num) ds)

theorem percent_nonneg (f : FloatLit) : 0 ≤ percent f := div_nonneg (floatValue_nonneg f) (by norm_num)

/-- Every increment `set_note` stores is non-negative (spec R16). -/
theorem frequency_nonneg {t : Vector Quantity 12} (h : ∀ n : Fin 12, 0 < t[n]) (note : Nat) : 0 ≤ frequency t note :=
  mul_nonneg (h ⟨note % 12, Nat.mod_lt _ (by decide)⟩).le (by positivity)

end Sys2Proof.Laws
end

