-- ==== Sys2Proof/Laws/Envelope.lean ====
section
/-! SUPPORT. The envelope engine: what a settle and a sample can do. -/

namespace Sys2Proof.Laws

open Sys2Proof.Machine

/-- Everything a time-elapsed transition can be (spec R95 to R100). -/
theorem settleOnce_cases {sr : Nat} {e e' : Env} (h : settleOnce sr e = some e') :
    e.samplesInState ≤ e.samplesDone ∧
    ((e.state = .attack ∧ e' = e.enter sr .decay e.decay) ∨
     (e.state = .attackReleasing ∧ e' = ({ e with releaseLevel := 1 }).enter sr .release e.release) ∨
     (e.state = .decay ∧ e' = e.rest .sustain) ∨
     (e.state = .release ∧ e' = e.rest .off)) := by
  unfold settleOnce at h
  split at h
  · rename_i hc
    simp only [Bool.and_eq_true, decide_eq_true_eq] at hc
    refine ⟨hc.2, ?_⟩
    split at h <;> simp_all
  · simp at h

/-- No transition applies exactly when the state is untimed or its time has not elapsed. -/
theorem settleOnce_none {sr : Nat} {e : Env} :
    settleOnce sr e = none ↔ (e.state.timed = true → e.samplesDone < e.samplesInState) := by
  unfold settleOnce
  constructor
  · intro h ht
    by_contra hc
    rw [if_pos (by simp [ht]; omega)] at h
    revert ht h
    cases e.state <;> simp [EnvState.timed]
  · intro h
    split
    · rename_i hc
      simp only [Bool.and_eq_true, decide_eq_true_eq] at hc
      have := h hc.1
      omega
    · rfl

@[simp] theorem settle_of_none {sr : Nat} {e : Env} (h : settleOnce sr e = none) : settle sr e = e := by
  simp [settle, Config.maxChain, settleUpTo, h]

/-- A settle ends settled: after at most two transitions none applies (spec R101). -/
theorem settle_settled (sr : Nat) (e : Env) : settleOnce sr (settle sr e) = none := by
  unfold settle Config.maxChain
  simp only [settleUpTo]
  cases h1 : settleOnce sr e with
  | none => exact h1
  | some e1 =>
    simp only
    cases h2 : settleOnce sr e1 with
    | none => exact h2
    | some e2 =>
      simp only
      obtain ⟨-, ⟨-, rfl⟩ | ⟨-, rfl⟩ | ⟨-, rfl⟩ | ⟨-, rfl⟩⟩ := settleOnce_cases h1 <;>
      obtain ⟨-, ⟨hs, rfl⟩ | ⟨hs, rfl⟩ | ⟨hs, rfl⟩ | ⟨hs, rfl⟩⟩ := settleOnce_cases h2 <;>
      simp_all [Env.enter, Env.rest, settleOnce, EnvState.timed]

/-- A settled envelope is left as it is. -/
theorem settle_settle (sr : Nat) (e : Env) : settle sr (settle sr e) = settle sr e := settle_of_none (settle_settled sr e)

/-- Nothing happens before the time has elapsed. -/
theorem settle_of_lt {sr : Nat} {e : Env} (h : e.samplesDone < e.samplesInState) : settle sr e = e :=
  settle_of_none (settleOnce_none.2 fun _ => h)

/-- Nothing happens in Sustain and Off. -/
theorem settle_of_untimed {sr : Nat} {e : Env} (h : e.state.timed = false) : settle sr e = e :=
  settle_of_none (settleOnce_none.2 fun ht => by simp [h] at ht)

/-- A settle whose first transition leads to a settled envelope stops there. -/
theorem settle_of_once {sr : Nat} {e e' : Env} (h : settleOnce sr e = some e') (h' : settleOnce sr e' = none) :
    settle sr e = e' := by
  simp [settle, Config.maxChain, settleUpTo, h, h']

/-- A settle of two transitions (spec R101: a zero-length state passed through). -/
theorem settle_of_twice {sr : Nat} {e e' e'' : Env} (h : settleOnce sr e = some e') (h' : settleOnce sr e' = some e'') :
    settle sr e = e'' := by
  simp [settle, Config.maxChain, settleUpTo, h, h']

/-- A sample that does not complete its state only counts. -/
theorem envNext_of_lt {sr : Nat} {e : Env} (h : e.samplesDone + 1 < e.samplesInState) :
    envNext sr e = { e with samplesDone := e.samplesDone + 1 } := by
  unfold envNext
  simp only [settle_of_lt (sr := sr) (e := e) (by omega)]
  exact settle_of_lt h

/-- A sample in Sustain or Off only counts. -/
theorem envNext_of_untimed {sr : Nat} {e : Env} (h : e.state.timed = false) :
    envNext sr e = { e with samplesDone := e.samplesDone + 1 } := by
  unfold envNext
  simp only [settle_of_untimed (sr := sr) h]
  exact settle_of_untimed h

/-- A property that every time-elapsed transition keeps is kept by a settle. -/
theorem settle_induct {sr : Nat} {P : Env → Prop} (hstep : ∀ e e', settleOnce sr e = some e' → P e → P e') {e : Env}
    (h : P e) : P (settle sr e) := by
  unfold settle
  generalize Config.maxChain = n
  induction n generalizing e with
  | zero => exact h
  | succ n ih =>
    unfold settleUpTo
    split
    · exact h
    · rename_i e' he
      exact ih (hstep e e' he h)

/-- A settle leaves the four ADSR registers as they are. -/
theorem settle_adsr (sr : Nat) (e : Env) :
    (settle sr e).attack = e.attack ∧ (settle sr e).decay = e.decay ∧ (settle sr e).sustain = e.sustain ∧
    (settle sr e).release = e.release := by
  refine settle_induct (P := fun x => x.attack = e.attack ∧ x.decay = e.decay ∧ x.sustain = e.sustain ∧
    x.release = e.release) ?_ ⟨rfl, rfl, rfl, rfl⟩
  intro x x' hx hp
  obtain ⟨-, ⟨-, rfl⟩ | ⟨-, rfl⟩ | ⟨-, rfl⟩ | ⟨-, rfl⟩⟩ := settleOnce_cases hx <;> exact hp

/-- A sample leaves the four ADSR registers as they are. -/
theorem envNext_adsr (sr : Nat) (e : Env) :
    (envNext sr e).attack = e.attack ∧ (envNext sr e).decay = e.decay ∧ (envNext sr e).sustain = e.sustain ∧
    (envNext sr e).release = e.release := by
  obtain ⟨h1, h2, h3, h4⟩ := settle_adsr sr e
  obtain ⟨k1, k2, k3, k4⟩ := settle_adsr sr { settle sr e with samplesDone := (settle sr e).samplesDone + 1 }
  exact ⟨k1.trans h1, k2.trans h2, k3.trans h3, k4.trans h4⟩

/-- The progress ratio of a state with a sample left is in [0, 1] (spec R92). -/
theorem ratio_unit {e : Env} (h : e.samplesDone < e.samplesInState ∨ e.samplesInState ≤ 1) :
    0 ≤ e.ratio ∧ e.ratio ≤ 1 := by
  unfold Env.ratio
  split
  · norm_num
  · rename_i hn
    have hlt : e.samplesDone ≤ e.samplesInState - 1 := by omega
    have hpos : (0 : Quantity) < ((e.samplesInState - 1 : Nat) : Quantity) := by exact_mod_cast (by omega)
    exact ⟨div_nonneg (by exact_mod_cast Nat.zero_le _) hpos.le, (div_le_one hpos).2 (by exact_mod_cast hlt)⟩

/-- The amplitude of a settled envelope is not negative. -/
theorem amp_nonneg {e : Env} (hs : 0 ≤ e.sustain) (hl : 0 ≤ e.releaseLevel)
    (h : e.state.timed = true → e.samplesDone < e.samplesInState ∨ e.samplesInState ≤ 1) : 0 ≤ e.amp := by
  unfold Env.amp
  split <;> rename_i hst <;> simp only [hst, EnvState.timed, forall_true_left] at h
  · exact le_rfl
  · exact (ratio_unit h).1
  · exact (ratio_unit h).1
  · obtain ⟨h0, h1⟩ := ratio_unit h
    nlinarith
  · exact hs
  · obtain ⟨h0, h1⟩ := ratio_unit h
    exact mul_nonneg hl (by linarith)

/-- The invariant of an envelope with its strict form after a settle. -/
theorem settle_inRange {sr : Nat} {e : Env}
    (h : 0 ≤ e.attack ∧ 0 ≤ e.decay ∧ 0 ≤ e.sustain ∧ 0 ≤ e.release ∧ 0 ≤ e.releaseLevel)
    (hu : e.state.timed = false → e.samplesInState = 0) :
    (settle sr e).InRange ∧ ((settle sr e).state.timed = true → (settle sr e).samplesDone < (settle sr e).samplesInState) := by
  have hset := settleOnce_none.1 (settle_settled sr e)
  obtain ⟨h0, h1, h2, h3, h4, h5⟩ := settle_induct (sr := sr) (P := fun x => 0 ≤ x.attack ∧ 0 ≤ x.decay ∧ 0 ≤ x.sustain ∧
    0 ≤ x.release ∧ 0 ≤ x.releaseLevel ∧ (x.state.timed = false → x.samplesInState = 0)) (e := e) (by
      intro x x' hx ⟨p0, p1, p2, p3, p4, p5⟩
      obtain ⟨-, ⟨-, rfl⟩ | ⟨-, rfl⟩ | ⟨-, rfl⟩ | ⟨-, rfl⟩⟩ := settleOnce_cases hx <;>
      simp_all [Env.enter, Env.rest, EnvState.timed]) ⟨h.1, h.2.1, h.2.2.1, h.2.2.2.1, h.2.2.2.2, hu⟩
  refine ⟨⟨h0, h1, h2, h3, h4, fun ht => (hset ht).le, fun hd => hset (by simp [hd, EnvState.timed]), h5⟩, hset⟩

/-- A sample keeps the envelope's invariant. -/
theorem envNext_inRange {sr : Nat} {e : Env} (h : e.InRange) : (envNext sr e).InRange := by
  obtain ⟨h0, h1, h2, h3, h4, -, -, h7⟩ := h
  obtain ⟨⟨k0, k1, k2, k3, k4, -, -, k7⟩, -⟩ := settle_inRange (sr := sr) ⟨h0, h1, h2, h3, h4⟩ h7
  exact (settle_inRange (sr := sr) (e := { settle sr e with samplesDone := (settle sr e).samplesDone + 1 })
    ⟨k0, k1, k2, k3, k4⟩ k7).1

theorem envTrigger_inRange {sr : Nat} {e : Env} (h : e.InRange) : (envTrigger sr e).InRange := by
  obtain ⟨h0, h1, h2, h3, h4, -, -, -⟩ := h
  exact ⟨h0, h1, h2, h3, h4, fun _ => Nat.zero_le _, fun hd => by simp [envTrigger, Env.enter] at hd,
    fun ht => by simp [envTrigger, Env.enter, EnvState.timed] at ht⟩

theorem envRelease_inRange {sr : Nat} {e : Env} (h : e.InRange) : (envRelease sr e).InRange := by
  obtain ⟨h0, h1, h2, h3, h4, h5, h6, h7⟩ := h
  have ha : e.state = .decay ∨ e.state = .sustain → 0 ≤ e.amp := by
    intro hs
    refine amp_nonneg h2 h4 fun ht => ?_
    rcases hs with hs | hs
    · exact .inl (h6 hs)
    · simp [hs, EnvState.timed] at ht
  unfold envRelease
  split <;> rename_i hst
  · exact ⟨h0, h1, h2, h3, h4, fun _ => h5 (by simp [hst, EnvState.timed]), fun hd => by simp at hd,
      fun ht => by simp [EnvState.timed] at ht⟩
  · exact ⟨h0, h1, h2, h3, ha (.inl hst), fun _ => Nat.zero_le _, fun hd => by simp [Env.enter] at hd,
      fun ht => by simp [Env.enter, EnvState.timed] at ht⟩
  · exact ⟨h0, h1, h2, h3, ha (.inr hst), fun _ => Nat.zero_le _, fun hd => by simp [Env.enter] at hd,
      fun ht => by simp [Env.enter, EnvState.timed] at ht⟩
  all_goals exact ⟨h0, h1, h2, h3, h4, h5, h6, h7⟩

end Sys2Proof.Laws
end

