-- ==== Sys2Proof/Laws/Mixer.lean ====
section
/-! SUPPORT. The voice and the mixer: what one sample does to the bank. -/

namespace Sys2Proof.Laws

open Sys2Proof.Machine

/-- The mixer advances every voice once, each on its own (spec R111). -/
theorem mixFrom_voices (sr : Nat) (vs : List Voice) (d : Draws) (acc : Quantity) :
    (mixFrom sr vs d acc).voices = vs.map (voiceNext sr) := by
  induction vs generalizing d acc with
  | nil => rfl
  | cons v vs ih => simp [mixFrom, ih]

theorem mix_voices (s : State) : (mix s).voices = s.voices.map (voiceNext s.cfg.sampleRate) :=
  mixFrom_voices _ _ _ _

/-- The running sum only adds: the accumulator may be taken out. -/
theorem mixFrom_acc (sr : Nat) (vs : List Voice) (d : Draws) (acc : Quantity) :
    (mixFrom sr vs d acc).sum = acc + (mixFrom sr vs d 0).sum ∧
    (mixFrom sr vs d acc).draws = (mixFrom sr vs d 0).draws := by
  induction vs generalizing d acc with
  | nil => simp [mixFrom]
  | cons v vs ih =>
    obtain ⟨h1, h2⟩ := ih (voiceSample sr v d).draws (acc + (voiceSample sr v d).value)
    obtain ⟨h3, h4⟩ := ih (voiceSample sr v d).draws (0 + (voiceSample sr v d).value)
    refine ⟨?_, ?_⟩
    · simp only [mixFrom]; rw [h1, h3]; ring
    · simp only [mixFrom]; rw [h2, h4]

/-- The oscillator keeps its ranges over a sample (spec R82). -/
theorem oscAdvance_inRange {o : Osc} (h : o.InRange) : (oscAdvance o).InRange := by
  obtain ⟨-, -, h2, -, h4⟩ := h
  exact ⟨frac_nonneg _, frac_lt_one _, h2, frac_nonneg _, h4⟩

/-- A voice keeps its ranges over a sample. -/
theorem voiceNext_inRange {sr : Nat} {v : Voice} (h : v.InRange) : (voiceNext sr v).InRange :=
  ⟨oscAdvance_inRange h.1, envNext_inRange h.2.1, h.2.2⟩

/-- A draw is in [-1, +1] (spec R80), whatever the free value. -/
theorem noiseDraw_unit (k : Nat) : -1 ≤ noiseDraw k ∧ noiseDraw k ≤ 1 := by
  unfold noiseDraw
  split
  · norm_num
  · split
    · norm_num
    · constructor <;> linarith

end Sys2Proof.Laws
end

