-- ==== Sys2Proof/Laws/Memory.lean ====
section
/-! SUPPORT. The laws of the delivered stream: read after write, the canonical form, what a fetch sees. -/

namespace Sys2Proof.Laws

open Sys2Proof.Machine

@[simp] theorem read_nil (a : Nat) : Memory.read [] a = none := rfl

theorem read_write_same (m : Memory) (a : Nat) (b : Byte) : (m.write a b).read a = some b := by
  induction m with
  | nil => simp [Memory.write, Memory.read]
  | cons c m ih =>
    obtain ⟨x, y⟩ := c
    by_cases h1 : a < x
    · simp [Memory.write, Memory.read, h1]
    · by_cases h2 : a = x
      · simp [Memory.write, Memory.read, h2]
      · simp [Memory.write, Memory.read, h1, h2, ih, Ne.symm h2]

theorem read_write_other (m : Memory) (a a' : Nat) (b : Byte) (h : a' ≠ a) :
    (m.write a b).read a' = m.read a' := by
  induction m with
  | nil => simp [Memory.write, Memory.read, Ne.symm h]
  | cons c m ih =>
    obtain ⟨x, y⟩ := c
    by_cases h1 : a < x
    · simp [Memory.write, Memory.read, h1, Ne.symm h]
    · by_cases h2 : a = x
      · subst h2
        simp [Memory.write, Memory.read, Ne.symm h]
      · simp [Memory.write, Memory.read, h1, h2, ih]

/-- A lower bound on the offsets may be lowered. -/
theorem risingFrom_mono {lo lo' : Nat} (h : lo' ≤ lo) {m : Memory} (hm : Memory.risingFrom lo m = true) :
    Memory.risingFrom lo' m = true := by
  cases m with
  | nil => rfl
  | cons c m =>
    obtain ⟨x, y⟩ := c
    simp only [Memory.risingFrom, Bool.and_eq_true, decide_eq_true_eq] at hm ⊢
    exact ⟨by omega, hm.2⟩

/-- A write at or above the bound keeps the offsets strictly rising from it. -/
theorem risingFrom_write {m : Memory} {lo a : Nat} (b : Byte) (hlo : lo ≤ a)
    (hm : Memory.risingFrom lo m = true) : Memory.risingFrom lo (m.write a b) = true := by
  induction m generalizing lo with
  | nil => simp [Memory.write, Memory.risingFrom, hlo]
  | cons c m ih =>
    obtain ⟨x, y⟩ := c
    simp only [Memory.risingFrom, Bool.and_eq_true, decide_eq_true_eq] at hm
    by_cases h1 : a < x
    · simp only [Memory.write, h1, if_true, Memory.risingFrom, Bool.and_eq_true, decide_eq_true_eq]
      exact ⟨hlo, by omega, hm.2⟩
    · by_cases h2 : a = x
      · subst h2
        simp only [Memory.write, lt_self_iff_false, if_false, if_true, Memory.risingFrom, Bool.and_eq_true,
          decide_eq_true_eq]
        exact hm
      · simp only [Memory.write, h1, h2, if_false, Memory.risingFrom, Bool.and_eq_true, decide_eq_true_eq]
        exact ⟨hm.1, ih (by omega) hm.2⟩

/-- Every write keeps the canonical form. -/
theorem write_wf {m : Memory} (a : Nat) (b : Byte) (h : m.wf = true) : (m.write a b).wf = true :=
  risingFrom_write b (Nat.zero_le a) h

theorem writeAll_wf (bs : List Byte) {m : Memory} (a : Nat) (h : m.wf = true) : (m.writeAll a bs).wf = true := by
  induction bs generalizing m a with
  | nil => exact h
  | cons b bs ih => exact ih (a + 1) (write_wf a b h)

/-- Offsets below the bound are not listed. -/
theorem read_below {m : Memory} {lo a : Nat} (hm : Memory.risingFrom lo m = true) (h : a < lo) : m.read a = none := by
  induction m generalizing lo with
  | nil => rfl
  | cons c m ih =>
    obtain ⟨x, y⟩ := c
    simp only [Memory.risingFrom, Bool.and_eq_true, decide_eq_true_eq] at hm
    simp only [Memory.read, show x ≠ a by omega, if_false]
    exact ih hm.2 (by omega)

/-- A fetch sees the byte at its offset, then the fetch from the next offset: the stream read byte by byte. -/
theorem bytesFrom_eq {m : Memory} (hm : m.wf = true) (a : Nat) :
    m.bytesFrom a = match m.read a with
      | none => []
      | some b => b :: m.bytesFrom (a + 1) := by
  suffices H : ∀ (m : Memory) (lo : Nat), Memory.risingFrom lo m = true →
      m.bytesFrom a = match m.read a with
        | none => []
        | some b => b :: m.bytesFrom (a + 1) from H m 0 hm
  intro m
  induction m with
  | nil => intro lo _; rfl
  | cons c m ih =>
    obtain ⟨x, y⟩ := c
    intro lo h
    simp only [Memory.risingFrom, Bool.and_eq_true, decide_eq_true_eq] at h
    rcases Nat.lt_trichotomy x a with hxa | hxa | hxa
    · simp only [Memory.bytesFrom, Memory.read, hxa, show x ≠ a by omega, show x < a + 1 by omega, if_true, if_false]
      exact ih _ h.2
    · subst hxa
      simp [Memory.bytesFrom, Memory.read]
    · have := read_below h.2 (show a < x + 1 by omega)
      simp [Memory.bytesFrom, Memory.read, show ¬ x < a by omega, show x ≠ a by omega, this]

/-- The `k`-th byte a fetch sees is the byte at offset `a + k`, for as long as none before it is missing. -/
theorem bytesFrom_getElem? {m : Memory} (hm : m.wf = true) (a k : Nat) (h : ∀ j < k, (m.read (a + j)).isSome) :
    (m.bytesFrom a)[k]? = m.read (a + k) := by
  induction k generalizing a with
  | zero => rw [bytesFrom_eq hm a]; cases m.read a <;> simp_all
  | succ k ih =>
    rw [bytesFrom_eq hm a]
    have h0 := h 0 (by omega)
    simp only [Nat.add_zero] at h0
    obtain ⟨b, hb⟩ := Option.isSome_iff_exists.1 h0
    simp only [hb, List.getElem?_cons_succ]
    rw [ih (a + 1) fun j hj => by have := h (j + 1) (by omega); rwa [show a + 1 + j = a + (j + 1) by omega]]
    congr 1; omega

/-- In a canonical stream what a fetch sees depends only on the bytes at and above its offset. -/
theorem bytesFrom_congr {m m' : Memory} (hm : m.wf = true) (hm' : m'.wf = true) {a : Nat}
    (h : ∀ x, a ≤ x → m.read x = m'.read x) : m.bytesFrom a = m'.bytesFrom a := by
  suffices H : ∀ (n a : Nat), (m.bytesFrom a).length ≤ n → (∀ x, a ≤ x → m.read x = m'.read x) →
      m.bytesFrom a = m'.bytesFrom a from H _ a le_rfl h
  intro n
  induction n with
  | zero =>
    intro a hl h
    have hnil : m.bytesFrom a = [] := List.length_eq_zero_iff.1 (by omega)
    rw [bytesFrom_eq hm a] at hnil
    rw [bytesFrom_eq hm a, bytesFrom_eq hm' a, ← h a le_rfl]
    cases hr : m.read a with
    | none => rfl
    | some b => simp [hr] at hnil
  | succ n ih =>
    intro a hl h
    rw [bytesFrom_eq hm a] at hl ⊢
    rw [bytesFrom_eq hm' a, ← h a le_rfl]
    cases hr : m.read a with
    | none => rfl
    | some b =>
      simp only [hr, List.length_cons] at hl
      simp only
      rw [ih (a + 1) (by omega) fun x hx => h x (by omega)]

/-- Delivered without a gap, the next offset is the number of bytes delivered. -/
theorem nextOffset_of_contiguous {m : Memory} (h : m.contiguous = true) : m.nextOffset = m.length := by
  have h' : m.map (·.1) = List.range m.length := by simpa [Memory.contiguous] using h
  unfold Memory.nextOffset
  cases hl : m.getLast? with
  | none => simp [List.getLast?_eq_none_iff.1 hl]
  | some c =>
    have hne : m ≠ [] := by rintro rfl; simp at hl
    have h1 : (m.map (·.1)).getLast? = some c.1 := by simp [List.getLast?_map, hl]
    rw [h', List.getLast?_range] at h1
    have : m.length ≠ 0 := fun h0 => hne (List.length_eq_zero_iff.1 h0)
    simp only [this, if_false, Option.some.injEq] at h1
    simp only
    omega

/-- Writing above every listed offset appends. -/
theorem write_append {m : Memory} {a : Nat} (b : Byte) (h : ∀ c ∈ m, c.1 < a) : m.write a b = m ++ [(a, b)] := by
  induction m with
  | nil => rfl
  | cons c m ih =>
    obtain ⟨x, y⟩ := c
    have hx := h (x, y) (by simp)
    simp only at hx
    simp only [Memory.write, show ¬ a < x by omega, show a ≠ x by omega, if_false, List.cons_append]
    rw [ih fun c hc => h c (by simp [hc])]

/-- The next byte delivered leaves the stream without a gap, one byte longer. -/
theorem write_next_contiguous {m : Memory} (b : Byte) (h : m.contiguous = true) :
    (m.write m.nextOffset b).contiguous = true ∧ (m.write m.nextOffset b).length = m.length + 1 := by
  have h' : m.map (·.1) = List.range m.length := by simpa [Memory.contiguous] using h
  rw [nextOffset_of_contiguous h, write_append b]
  · simp [Memory.contiguous, h', List.range_succ]
  · intro c hc
    have : c.1 ∈ m.map (·.1) := List.mem_map_of_mem hc
    rw [h'] at this
    exact List.mem_range.1 this

/-- Of a stream without a gap a fetch from offset `a` sees exactly the bytes after the first `a`. -/
theorem bytesFrom_length {m : Memory} (hw : m.wf = true) (hc : m.contiguous = true) (a : Nat) :
    (m.bytesFrom a).length = m.length - a := by
  have hc' : m.map (·.1) = List.range m.length := by simpa [Memory.contiguous] using hc
  have hread : ∀ x, (m.read x).isSome ↔ x < m.length := by
    have key : ∀ (m : Memory) (x : Nat), (m.read x).isSome ↔ x ∈ m.map (·.1) := by
      intro m x
      induction m with
      | nil => simp
      | cons c m ih =>
        obtain ⟨y, b⟩ := c
        by_cases hy : y = x
        · simp [Memory.read, hy]
        · simp only [Memory.read, hy, if_false, List.map_cons, List.mem_cons, Ne.symm hy, false_or, ih]
    intro x
    rw [key, hc', List.mem_range]
  suffices H : ∀ n a, m.length - a = n → (m.bytesFrom a).length = n from H _ a rfl
  intro n
  induction n with
  | zero =>
    intro a ha
    rw [bytesFrom_eq hw a]
    cases hr : m.read a with
    | none => rfl
    | some b => have := (hread a).1 (by simp [hr]); omega
  | succ n ih =>
    intro a ha
    rw [bytesFrom_eq hw a]
    cases hr : m.read a with
    | none => have := (hread a).2 (by omega); simp [hr] at this
    | some b => simp [ih (a + 1) (by omega)]

end Sys2Proof.Laws
end

