-- ==== Sys2Proof/Laws/Ops.lean ====
section
/-! SUPPORT. What the shared operations can do: the cursor, fault entry, the selected voices. -/

namespace Sys2Proof.Laws

open Sys2Proof.Machine

/-! The cursor. -/

@[simp] theorem advance_sel (q : SeqRegs) (b : Byte) : (q.advance b).sel = q.sel := by unfold SeqRegs.advance; split <;> rfl
@[simp] theorem advance_samplesPerTick (q : SeqRegs) (b : Byte) : (q.advance b).samplesPerTick = q.samplesPerTick := by
  unfold SeqRegs.advance; split <;> rfl
@[simp] theorem advance_samplesDone (q : SeqRegs) (b : Byte) : (q.advance b).samplesDone = q.samplesDone := by
  unfold SeqRegs.advance; split <;> rfl
@[simp] theorem advance_shouldStop (q : SeqRegs) (b : Byte) : (q.advance b).shouldStop = q.shouldStop := by
  unfold SeqRegs.advance; split <;> rfl
@[simp] theorem advance_mode (q : SeqRegs) (b : Byte) : (q.advance b).mode = q.mode := by unfold SeqRegs.advance; split <;> rfl
@[simp] theorem advance_pos (q : SeqRegs) (b : Byte) : (q.advance b).pos = q.pos + 1 := by unfold SeqRegs.advance; split <;> rfl

/-- Everything consuming bytes can do to the sequencer registers: the cursor alone moves, the position by one a byte,
and line and column stay at least 1. -/
theorem foldl_advance (bs : List Byte) (q : SeqRegs) :
    (bs.foldl SeqRegs.advance q).sel = q.sel ∧ (bs.foldl SeqRegs.advance q).samplesPerTick = q.samplesPerTick ∧
    (bs.foldl SeqRegs.advance q).samplesDone = q.samplesDone ∧ (bs.foldl SeqRegs.advance q).shouldStop = q.shouldStop ∧
    (bs.foldl SeqRegs.advance q).mode = q.mode ∧ (bs.foldl SeqRegs.advance q).pos = q.pos + bs.length ∧
    (1 ≤ q.line → 1 ≤ (bs.foldl SeqRegs.advance q).line) ∧ (1 ≤ q.col → 1 ≤ (bs.foldl SeqRegs.advance q).col) := by
  induction bs generalizing q with
  | nil => simp
  | cons b bs ih =>
    obtain ⟨h1, h2, h3, h4, h5, h6, h7, h8⟩ := ih (q.advance b)
    refine ⟨by simpa using h1, by simpa using h2, by simpa using h3, by simpa using h4, by simpa using h5, ?_, ?_, ?_⟩
    · simp only [List.foldl_cons, List.length_cons, h6, advance_pos]; omega
    · intro h; exact h7 (by unfold SeqRegs.advance; split <;> simp_all)
    · intro h; exact h8 (by unfold SeqRegs.advance; split <;> simp)

@[simp] theorem consume_seq_sel (bs : List Byte) (s : State) : (consume bs s).seq.sel = s.seq.sel :=
  (foldl_advance bs s.seq).1
@[simp] theorem consume_seq_samplesPerTick (bs : List Byte) (s : State) :
    (consume bs s).seq.samplesPerTick = s.seq.samplesPerTick := (foldl_advance bs s.seq).2.1
@[simp] theorem consume_seq_samplesDone (bs : List Byte) (s : State) :
    (consume bs s).seq.samplesDone = s.seq.samplesDone := (foldl_advance bs s.seq).2.2.1
@[simp] theorem consume_seq_shouldStop (bs : List Byte) (s : State) :
    (consume bs s).seq.shouldStop = s.seq.shouldStop := (foldl_advance bs s.seq).2.2.2.1
@[simp] theorem consume_seq_mode (bs : List Byte) (s : State) : (consume bs s).seq.mode = s.seq.mode :=
  (foldl_advance bs s.seq).2.2.2.2.1
@[simp] theorem consume_seq_pos (bs : List Byte) (s : State) :
    (consume bs s).seq.pos = s.seq.pos + bs.length := (foldl_advance bs s.seq).2.2.2.2.2.1

/-- `consumeTo` is `consume` of the fetched bytes before `rest`. -/
theorem consumeTo_eq (rest : List Byte) (s : State) :
    consumeTo rest s = consume ((fetch s).take ((fetch s).length - rest.length)) s := rfl

theorem consumeTo_of_fetch {s : State} {bs rest : List Byte} (h : fetch s = bs ++ rest) :
    consumeTo rest s = consume bs s := by
  rw [consumeTo_eq, h]
  simp

/-- In a canonical stream the head of the fetched bytes is what `CmdPeek()` finds (spec R42). -/
theorem cmdPeek_eq {s : State} (h : s.mem.wf = true) :
    cmdPeek s = match fetch s with
      | b :: _ => .byte b
      | [] => if s.cmdEnded then .eof else .undelivered := by
  unfold cmdPeek fetch
  rw [bytesFrom_eq h s.seq.pos]
  cases s.mem.read s.seq.pos <;> rfl

/-- In a canonical stream `CmdTake()` consumes the head of the fetched bytes (spec R43). -/
theorem cmdTake_eq {s : State} (h : s.mem.wf = true) {b : Byte} {t : List Byte} (hf : fetch s = b :: t) :
    cmdTake s = consume [b] s ∧ fetch (cmdTake s) = t := by
  unfold fetch at hf
  rw [bytesFrom_eq h s.seq.pos] at hf
  cases hr : s.mem.read s.seq.pos with
  | none => simp [hr] at hf
  | some c =>
    simp only [hr, List.cons.injEq] at hf
    obtain ⟨rfl, rfl⟩ := hf
    constructor
    · simp [cmdTake, hr, consume]
    · simp [fetch, cmdTake, hr]

/-! The selected voices. -/

/-- Modifying each index of `is` in turn touches exactly the listed positions, each once when listed once. -/
theorem foldl_modify_getElem? (f : Voice → Voice) (is : List Nat) (hn : is.Nodup) (vs : List Voice) (i : Nat) :
    (is.foldl (fun vs i => vs.modify i f) vs)[i]? = if i ∈ is then vs[i]?.map f else vs[i]? := by
  induction is generalizing vs with
  | nil => simp
  | cons j is ih =>
    obtain ⟨hj, hn'⟩ := List.nodup_cons.1 hn
    rw [List.foldl_cons, ih hn', List.getElem?_modify]
    by_cases hij : j = i
    · subst hij
      simp [hj]
    · by_cases hm : i ∈ is
      · simp [hm, hij]
      · simp [hm, hij, Ne.symm hij]

theorem targets_nodup (s : State) : (targets s).Nodup := by
  unfold targets
  split
  · simp
  · exact List.nodup_range

/-- Everything `forTargets` can do to the bank: each existing voice is written by `f` if selected, else unchanged. -/
theorem forTargets_getElem? (f : Voice → Voice) (s : State) (i : Nat) :
    (forTargets f s).voices[i]? = if i ∈ targets s then s.voices[i]?.map f else s.voices[i]? :=
  foldl_modify_getElem? f _ (targets_nodup s) _ _

@[simp] theorem forTargets_length (f : Voice → Voice) (s : State) : (forTargets f s).voices.length = s.voices.length := by
  unfold forTargets
  simp only
  induction targets s generalizing s with
  | nil => rfl
  | cons j is ih =>
    rw [List.foldl_cons]
    have := ih { s with voices := s.voices.modify j f }
    simpa using this

/-- An existing voice is a target exactly when it is selected (spec R124). -/
theorem mem_targets_iff {s : State} {i : Nat} {v : Voice} (h : s.voices[i]? = some v) :
    i ∈ targets s ↔ s.seq.sel = .single i ∨ s.seq.sel = .all := by
  have hi : i < s.voices.length := by
    rcases Nat.lt_or_ge i s.voices.length with h' | h'
    · exact h'
    · simp [List.getElem?_eq_none h'] at h
  unfold targets
  cases hs : s.seq.sel with
  | single j => simp [eq_comm]
  | all => simp [State.nVoices, hi]

/-- A property of every voice is kept when `f` keeps it. -/
theorem forTargets_forall {P : Voice → Prop} {f : Voice → Voice} (hf : ∀ v, P v → P (f v)) {s : State}
    (h : ∀ v ∈ s.voices, P v) : ∀ v ∈ (forTargets f s).voices, P v := by
  intro v hv
  obtain ⟨i, hi⟩ := List.getElem?_of_mem hv
  rw [forTargets_getElem?] at hi
  split at hi
  · cases hw : s.voices[i]? with
    | none => simp [hw] at hi
    | some w =>
      simp only [hw, Option.map_some, Option.some.injEq] at hi
      exact hi ▸ hf w (h w (List.mem_of_getElem? hw))
  · exact h v (List.mem_of_getElem? hi)

end Sys2Proof.Laws
end

