-- ==== Sys2Proof/Laws/Exec.lean ====
section
/-! SUPPORT. Everything executing an item can do (spec R117): one case per kind of effect, and every item completes. -/

namespace Sys2Proof.Laws

open Sys2Proof.Machine

/-- The per-voice write of an item (spec R135 to R143), for the configuration `c`. -/
inductive VoiceWrite (c : Config) : Instr → (Voice → Voice) → Prop where
  | adsr (a d su r : FloatLit) : VoiceWrite c (.adsr a d su r) fun v =>
      { v with env := { v.env with attack := a.value, decay := d.value, sustain := su.value, release := r.value } }
  | param (f : FloatLit) : VoiceWrite c (.param f) fun v => { v with osc := { v.osc with parameter := percent f } }
  | vel (f : FloatLit) : VoiceWrite c (.vel f) fun v => { v with velocity := percent f }
  | note (n : IntLit) (h : n.value < 128) : VoiceWrite c (.note n) fun v => { v with osc := setNote c n.value v.osc }
  | wavePulse : VoiceWrite c .wavePulse fun v => { v with osc := { v.osc with waveform := .pulseWidth } }
  | waveSaw : VoiceWrite c .waveSaw fun v => { v with osc := { v.osc with waveform := .saw } }
  | waveNoise : VoiceWrite c .waveNoise fun v => { v with osc := { v.osc with waveform := .noise } }
  | trigger : VoiceWrite c .trigger (voiceRetrigger c)
  | release : VoiceWrite c .release (voiceRelease c)

/-- What executing item `i` at `s` leaves. -/
inductive ExecShape (i : Instr) (s : State) : State → Prop where
  | valueFault (code : FaultCode) (aux : Aux) (hi : endsParse i = false) : ExecShape i s (raiseValueFault code aux s)
  | newBank (n : Nat) (h1 : 1 ≤ n) (h2 : n ≤ s.cfg.maxVoices) (hi : endsParse i = false) :
      ExecShape i s { s with voices := List.replicate n voiceInit, seq := { s.seq with sel := .single 0 } }
  | tempo (n : Nat) (h : 1 ≤ n) (hi : endsParse i = false) :
      ExecShape i s { s with seq := { s.seq with samplesPerTick := n } }
  | endOfParse (stop : Bool) (h : i = .tick ∧ stop = false ∨ i = .quit ∧ stop = true) (hi : endsParse i = true) :
      ExecShape i s (endParse stop s)
  | select (sel : Selector) (h : sel.inBank s.nVoices = true) (hi : endsParse i = false) :
      ExecShape i s { s with seq := { s.seq with sel := sel } }
  | voiceWrite (f : Voice → Voice) (h : VoiceWrite s.cfg i f) (hi : endsParse i = false) : ExecShape i s (forTargets f s)
  | nothing (hi : endsParse i = false) : ExecShape i s s

/-- Every item completes, and with one of the effects above. -/
theorem exec_shape (i : Instr) (s : State) : ∃ t, exec i s = .next t ∧ ExecShape i s t := by
  cases i with
  | cv n =>
    show ∃ t, execCv n s = .next t ∧ ExecShape _ s t
    unfold execCv
    split
    · exact ⟨_, rfl, .valueFault _ _ rfl⟩
    · split
      · exact ⟨_, rfl, .valueFault _ _ rfl⟩
      · exact ⟨_, rfl, .newBank _ (by omega) (by omega) rfl⟩
  | ct n =>
    show ∃ t, execCt n s = .next t ∧ ExecShape _ s t
    unfold execCt
    split
    · exact ⟨_, rfl, .valueFault _ _ rfl⟩
    · split
      · exact ⟨_, rfl, .valueFault _ _ rfl⟩
      · exact ⟨_, rfl, .tempo _ (by omega) rfl⟩
  | tick => exact ⟨_, rfl, .endOfParse _ (.inl ⟨rfl, rfl⟩) rfl⟩
  | quit => exact ⟨_, rfl, .endOfParse _ (.inr ⟨rfl, rfl⟩) rfl⟩
  | selAll => exact ⟨_, rfl, .select _ rfl rfl⟩
  | sel n =>
    show ∃ t, execSel n s = .next t ∧ ExecShape _ s t
    unfold execSel
    split
    · exact ⟨_, rfl, .valueFault _ _ rfl⟩
    · exact ⟨_, rfl, .select _ (by simp only [Selector.inBank, decide_eq_true_eq]; omega) rfl⟩
  | adsr a d su r => exact ⟨_, rfl, .voiceWrite _ (.adsr a d su r) rfl⟩
  | param f => exact ⟨_, rfl, .voiceWrite _ (.param f) rfl⟩
  | vel f => exact ⟨_, rfl, .voiceWrite _ (.vel f) rfl⟩
  | note n =>
    show ∃ t, execNote n s = .next t ∧ ExecShape _ s t
    unfold execNote
    split
    · exact ⟨_, rfl, .valueFault _ _ rfl⟩
    · exact ⟨_, rfl, .voiceWrite _ (.note n (by omega)) rfl⟩
  | wavePulse => exact ⟨_, rfl, .voiceWrite _ .wavePulse rfl⟩
  | waveSaw => exact ⟨_, rfl, .voiceWrite _ .waveSaw rfl⟩
  | waveNoise => exact ⟨_, rfl, .voiceWrite _ .waveNoise rfl⟩
  | trigger => exact ⟨_, rfl, .voiceWrite _ .trigger rfl⟩
  | release => exact ⟨_, rfl, .voiceWrite _ .release rfl⟩
  | comment body closed => exact ⟨_, rfl, .nothing rfl⟩
  | wsTab => exact ⟨_, rfl, .nothing rfl⟩
  | wsLineFeed => exact ⟨_, rfl, .nothing rfl⟩
  | wsVerticalTab => exact ⟨_, rfl, .nothing rfl⟩
  | wsFormFeed => exact ⟨_, rfl, .nothing rfl⟩
  | wsCarriageReturn => exact ⟨_, rfl, .nothing rfl⟩
  | wsSpace => exact ⟨_, rfl, .nothing rfl⟩

theorem exec_shape_of_next {i : Instr} {s t : State} (h : exec i s = .next t) : ExecShape i s t := by
  obtain ⟨t', h', hs⟩ := exec_shape i s
  rw [h] at h'
  cases h'
  exact hs

/-- A fresh voice is in range (spec R105). -/
theorem voiceInit_inRange : voiceInit.InRange := by
  refine ⟨⟨?_, ?_, ?_, ?_, ?_⟩, ⟨?_, ?_, ?_, ?_, ?_, ?_, ?_, ?_⟩, ?_⟩ <;>
  norm_num [voiceInit, Config.defPhase, Config.defPhaseInc, Config.defParameter, Config.defParamInc, Config.defAttack,
    Config.defDecay, Config.defSustain, Config.defRelease, Config.defVelocity, EnvState.timed]
  decide

/-- Every per-voice write keeps a voice in range. -/
theorem voiceWrite_inRange {c : Config} (hc : c.Valid) {i : Instr} {f : Voice → Voice} (h : VoiceWrite c i f) {v : Voice}
    (hv : v.InRange) : (f v).InRange := by
  obtain ⟨⟨o0, o1, o2, o3, o4⟩, he, hvel⟩ := hv
  cases h with
  | adsr a d su r =>
    obtain ⟨-, -, -, -, h4, h5, h6, h7⟩ := he
    exact ⟨⟨o0, o1, o2, o3, o4⟩, ⟨floatValue_nonneg a, floatValue_nonneg d, floatValue_nonneg su, floatValue_nonneg r, h4, h5, h6, h7⟩,
      hvel⟩
  | param f => exact ⟨⟨o0, o1, o2, percent_nonneg f, o4⟩, he, hvel⟩
  | vel f => exact ⟨⟨o0, o1, o2, o3, o4⟩, he, percent_nonneg f⟩
  | note n hn =>
    exact ⟨⟨o0, o1, div_nonneg (frequency_nonneg hc.2.2.2.2.1 _) (by exact_mod_cast Nat.zero_le _), o3, o4⟩, he, hvel⟩
  | wavePulse => exact ⟨⟨o0, o1, o2, o3, o4⟩, he, hvel⟩
  | waveSaw => exact ⟨⟨o0, o1, o2, o3, o4⟩, he, hvel⟩
  | waveNoise => exact ⟨⟨o0, o1, o2, o3, o4⟩, he, hvel⟩
  | trigger => exact ⟨⟨o0, o1, o2, o3, o4⟩, envTrigger_inRange he, hvel⟩
  | release => exact ⟨⟨o0, o1, o2, o3, o4⟩, envRelease_inRange he, hvel⟩

end Sys2Proof.Laws
end

