-- ==== Sys2Proof/Laws/PerInstr.lean ====
section
/-! SUPPORT. A statement about every item, one lemma per constructor: its bytes begin with the fixed bytes its row of
spec/opcode_table.json matches (spec R74). -/

namespace Sys2Proof.Laws

/-- The item's encoding begins with its row's fixed bytes. -/
def TableMatch.Statement (i : Instr) : Prop := tableMatch i <+: encode i

theorem TableMatch.cv (n : IntLit) : TableMatch.Statement (.cv n) := ⟨_, rfl⟩
theorem TableMatch.ct (n : IntLit) : TableMatch.Statement (.ct n) := ⟨_, rfl⟩
theorem TableMatch.tick : TableMatch.Statement .tick := ⟨_, rfl⟩
theorem TableMatch.quit : TableMatch.Statement .quit := ⟨_, rfl⟩
theorem TableMatch.selAll : TableMatch.Statement .selAll := ⟨_, rfl⟩
theorem TableMatch.sel (n : IntLit) : TableMatch.Statement (.sel n) := ⟨_, rfl⟩
theorem TableMatch.adsr (a d s r : FloatLit) : TableMatch.Statement (.adsr a d s r) := ⟨_, rfl⟩
theorem TableMatch.param (f : FloatLit) : TableMatch.Statement (.param f) := ⟨_, rfl⟩
theorem TableMatch.vel (f : FloatLit) : TableMatch.Statement (.vel f) := ⟨_, rfl⟩
theorem TableMatch.note (n : IntLit) : TableMatch.Statement (.note n) := ⟨_, rfl⟩
theorem TableMatch.wavePulse : TableMatch.Statement .wavePulse := ⟨_, rfl⟩
theorem TableMatch.waveSaw : TableMatch.Statement .waveSaw := ⟨_, rfl⟩
theorem TableMatch.waveNoise : TableMatch.Statement .waveNoise := ⟨_, rfl⟩
theorem TableMatch.trigger : TableMatch.Statement .trigger := ⟨_, rfl⟩
theorem TableMatch.release : TableMatch.Statement .release := ⟨_, rfl⟩
theorem TableMatch.comment (body : List Byte) (closed : Bool) : TableMatch.Statement (.comment body closed) := ⟨_, rfl⟩
theorem TableMatch.wsTab : TableMatch.Statement .wsTab := ⟨_, rfl⟩
theorem TableMatch.wsLineFeed : TableMatch.Statement .wsLineFeed := ⟨_, rfl⟩
theorem TableMatch.wsVerticalTab : TableMatch.Statement .wsVerticalTab := ⟨_, rfl⟩
theorem TableMatch.wsFormFeed : TableMatch.Statement .wsFormFeed := ⟨_, rfl⟩
theorem TableMatch.wsCarriageReturn : TableMatch.Statement .wsCarriageReturn := ⟨_, rfl⟩
theorem TableMatch.wsSpace : TableMatch.Statement .wsSpace := ⟨_, rfl⟩

end Sys2Proof.Laws
end

