-- ==== Sys2Proof/Laws/Step.lean ====
section
/-! SUPPORT. Everything one step can do (spec R115): one case per kind of step, guards included. -/

namespace Sys2Proof.Laws

open Sys2Proof.Machine

/-- What a step from `s` leaves. -/
inductive StepShape (s : State) : State → Prop where
  | inputMissing (hm : s.seq.mode = .parse) (hd : decode s.cmdEnded (fetch s) = .wait) : StepShape s s
  | misspelled (f : Spelling) (rest : List Byte) (hm : s.seq.mode = .parse)
      (hd : decode s.cmdEnded (fetch s) = .fatal f rest) : StepShape s (raiseSpellingFault f (consumeTo rest s))
  | item (i : Instr) (rest : List Byte) (t : State) (hm : s.seq.mode = .parse)
      (hd : decode s.cmdEnded (fetch s) = .ok i rest) (hi : aboveIntMax s.cfg i = false)
      (he : exec i (consumeTo rest s) = .next t) : StepShape s t
  | sample (hm : s.seq.mode = .emit) (hr : s.smpReady = true) : StepShape s (emitSample s)
  | notAccepted (hm : s.seq.mode = .emit) (hr : s.smpReady = false) : StepShape s s

theorem withinCounters_next_iff {o : Host.Outcome State Fault Refusal} {t : State} :
    withinCounters o = .next t ↔ o = .next t ∧ countersFit t = true := by
  cases o with
  | next s =>
    simp only [withinCounters, Host.Outcome.next.injEq]
    by_cases hs : countersFit s = true
    · rw [if_pos hs]
      simp only [Host.Outcome.next.injEq]
      exact ⟨fun h => ⟨h, h ▸ hs⟩, fun h => h.1⟩
    · rw [if_neg hs]
      simp only [reduceCtorEq, false_iff, not_and]
      exact fun h => h ▸ hs
  | fault f => simp [withinCounters]
  | refused r => simp [withinCounters]

/-- With no COUNTER_BITS set nothing is refused for a counter. -/
theorem countersFit_unlimited {s : State} (h : s.cfg.counterBits = none) : countersFit s = true := by
  simp [countersFit, h]

/-- A step that answers a next state is one of the five kinds. -/
theorem step_shape {s t : State} (h : step s = .next t) : StepShape s t ∧ countersFit t = true := by
  unfold step at h
  split at h
  · rename_i hm
    obtain ⟨h, hf⟩ := withinCounters_next_iff.1 h
    refine ⟨?_, hf⟩
    unfold cmdStep at h
    split at h
    · rename_i hd
      cases h
      exact .inputMissing hm hd
    · rename_i f rest hd
      cases h
      exact .misspelled f rest hm hd
    · rename_i i rest hd
      split at h
      · simp at h
      · rename_i hi
        exact .item i rest t hm hd (by simpa using hi) h
  · rename_i hm
    obtain ⟨h, hf⟩ := withinCounters_next_iff.1 h
    refine ⟨?_, hf⟩
    unfold emitStep at h
    split at h
    · rename_i hr
      cases h
      exact .sample hm hr
    · rename_i hr
      cases h
      exact .notAccepted hm (by simpa using hr)
  · simp at h
  · simp at h

end Sys2Proof.Laws
end

