-- ==== Sys2Proof/Tests/Slice0.lean ====
section
/-! SUPPORT. Tests on fixed values, each expected value taken from the spec (the rule or vector is named), and for each
statement with hypotheses a theorem that shows inputs meeting them. -/

open Sys2Proof Sys2Proof.Machine

namespace Sys2Proof.Tests

/-! Small states. -/

/-- The reset state with the bytes `bs` delivered and end of input signalled. -/
def start (bs : List Byte) : State :=
  { State.reset with mem := Memory.writeAll [] 0 bs, cmdEnded := true }

/-- The reset state of `n` voices. -/
def bank (n : Nat) (s : State) : State := { s with voices := List.replicate n voiceInit }

/-- The next state of an outcome that has one. -/
def nextOf : Host.Outcome State Fault Refusal → Option State
  | .next s => some s
  | .fault _ => none
  | .refused _ => none

/-- A property of the next state. -/
def nextHas (o : Host.Outcome State Fault Refusal) (p : State → Bool) : Bool := (nextOf o).any p

/-- The state in Emit. -/
def emitting (s : State) : State := { s with seq := { s.seq with mode := .emit } }

/-- Voice 0 of a state has the property. -/
def voice0 (p : Voice → Bool) (s : State) : Bool := (s.voices[0]?).any p

/-- The record a state holds (spec/95_test_vectors.md: code, line, column, got, expected, aux). -/
def faultIs (code : FaultCode) (line col : Nat) (got : Got) (exp : Expected) (aux : Aux) (s : State) : Bool :=
  s.fault == some ⟨code, line, col, got, exp, aux⟩ && s.seq.mode == .faulted

/-- An envelope with `A4,3,0.5,2` (spec/95_test_vectors.md section 2.2) in `st`, at `done` of `len`. -/
def env (st : EnvState) (done len : Nat) (level : Quantity) : Env := ⟨4, 3, 1 / 2, 2, st, len, done, level⟩

/-! Decoding: every constructor, from bytes written out from spec/30_encoding.md. -/

theorem test_decode_cv : decode false [0x43#8, 0x76#8, 0x33#8, 0x2F#8] = .ok (.cv ⟨[3]⟩) [0x2F#8] := by decide
theorem test_decode_ct : decode true [0x43#8, 0x74#8, 0x31#8, 0x32#8, 0x30#8] = .ok (.ct ⟨[1, 2, 0]⟩) [] := by decide
theorem test_decode_tick : decode false [0x2F#8, 0x2F#8, 0x2F#8] = .ok .tick [0x2F#8] := by decide
theorem test_decode_quit : decode false [0x2F#8, 0x71#8] = .ok .quit [] := by decide
theorem test_decode_selAll : decode false [0x2F#8, 0x61#8] = .ok .selAll [] := by decide
theorem test_decode_sel : decode false [0x2F#8, 0x31#8, 0x61#8] = .ok (.sel ⟨[1]⟩) [0x61#8] := by decide
theorem test_decode_adsr :
    decode true [0x41#8, 0x34#8, 0x2C#8, 0x33#8, 0x2C#8, 0x30#8, 0x2E#8, 0x35#8, 0x2C#8, 0x32#8] =
      .ok (.adsr ⟨[4], none⟩ ⟨[3], none⟩ ⟨[0], some [5]⟩ ⟨[2], none⟩) [] := by decide
theorem test_decode_param : decode false [0x50#8, 0x31#8, 0x2E#8, 0x32#8, 0x2E#8] =
    .ok (.param ⟨[1], some [2]⟩) [0x2E#8] := by decide
theorem test_decode_vel : decode true [0x56#8, 0x38#8, 0x30#8] = .ok (.vel ⟨[8, 0], none⟩) [] := by decide
theorem test_decode_note : decode false [0x4E#8, 0x36#8, 0x39#8, 0x54#8] = .ok (.note ⟨[6, 9]⟩) [0x54#8] := by decide
theorem test_decode_wavePulse : decode false [0x57#8, 0x70#8] = .ok .wavePulse [] := by decide
theorem test_decode_waveSaw : decode false [0x57#8, 0x73#8] = .ok .waveSaw [] := by decide
theorem test_decode_waveNoise : decode false [0x57#8, 0x6E#8] = .ok .waveNoise [] := by decide
theorem test_decode_trigger : decode false [0x54#8, 0x54#8] = .ok .trigger [0x54#8] := by decide
theorem test_decode_release : decode false [0x52#8] = .ok .release [] := by decide
theorem test_decode_comment : decode false [0x23#8, 0x20#8, 0xFF#8, 0x0A#8, 0x0A#8] =
    .ok (.comment [0x20#8, 0xFF#8] true) [0x0A#8] := by decide
theorem test_decode_comment_at_end : decode true [0x23#8, 0x54#8] = .ok (.comment [0x54#8] false) [] := by decide
theorem test_decode_wsTab : decode false [0x09#8] = .ok .wsTab [] := by decide
theorem test_decode_wsLineFeed : decode false [0x0A#8] = .ok .wsLineFeed [] := by decide
theorem test_decode_wsVerticalTab : decode false [0x0B#8] = .ok .wsVerticalTab [] := by decide
theorem test_decode_wsFormFeed : decode false [0x0C#8] = .ok .wsFormFeed [] := by decide
theorem test_decode_wsCarriageReturn : decode false [0x0D#8] = .ok .wsCarriageReturn [] := by decide
theorem test_decode_wsSpace : decode false [0x20#8, 0x20#8] = .ok .wsSpace [0x20#8] := by decide

/-- Spec R151, R154: one spelling fault a site. -/
theorem test_decode_faults :
    decode true [0x78#8] = .fatal ⟨.eSyntax, .byte 0x78#8, .command⟩ [0x78#8] ∧
    decode true [0x57#8, 0x71#8] = .fatal ⟨.eSyntax, .byte 0x71#8, .waveLetter⟩ [0x71#8] ∧
    decode true [0x4E#8, 0x2D#8] = .fatal ⟨.eSyntax, .byte 0x2D#8, .digit⟩ [0x2D#8] ∧
    decode true [0x50#8, 0x2E#8] = .fatal ⟨.eEof, .eof, .digit⟩ [] ∧
    decode true [0x41#8, 0x31#8, 0x2C#8, 0x32#8, 0x2C#8, 0x33#8] = .fatal ⟨.eEof, .eof, .char 0x2C#8⟩ [] ∧
    decode false [0x41#8, 0x31#8, 0x2E#8, 0x32#8, 0x2E#8, 0x33#8] =
      .fatal ⟨.eSyntax, .byte 0x2E#8, .char 0x2C#8⟩ [0x2E#8, 0x33#8] := by decide

/-- Spec R61, R42: a literal at the end of what has been delivered waits. -/
theorem test_decode_waits :
    decode false [0x4E#8, 0x36#8] = .wait ∧ decode false [0x43#8] = .wait ∧ decode false [] = .wait ∧
    decode false [0x23#8, 0x54#8] = .wait := by decide

/-- Table words (opcode_table.json): `Cv`, `P`, `A` and `#` with their operands left out, `//` and a byte of no row. -/
theorem test_tableWords :
    decodeTableWord 16 0x7643 = some (.cv ⟨[0]⟩) ∧ decodeTableWord 8 0x50 = some (.param ⟨[0], none⟩) ∧
    decodeTableWord 8 0x41 = some (.adsr ⟨[0], none⟩ ⟨[0], none⟩ ⟨[0], none⟩ ⟨[0], none⟩) ∧
    decodeTableWord 8 0x23 = some (.comment [] true) ∧ decodeTableWord 16 0x2F2F = some .tick ∧
    decodeTableWord 8 0x2F = some (.sel ⟨[0]⟩) ∧ decodeTableWord 8 0x78 = none := by decide

/-- The same words with the first byte most significant, as the table's match column prints them (spec R74). -/
theorem test_tableWords_as_printed :
    decodeTableWord 16 0x4376 = some (.cv ⟨[0]⟩) ∧ decodeTableWord 16 0x4374 = some (.ct ⟨[0]⟩) ∧
    decodeTableWord 16 0x2F71 = some .quit ∧ decodeTableWord 16 0x2F61 = some .selAll ∧
    decodeTableWord 16 0x5770 = some .wavePulse ∧ decodeTableWord 16 0x5773 = some .waveSaw ∧
    decodeTableWord 16 0x576E = some .waveNoise := by decide

/-- A table word placed by `withFetchWord` is what the next step runs: `/q` ends the parse phase. -/
theorem test_withFetchWord : nextHas (step (State.reset.withFetchWord 16 0x712F)) (fun t =>
    t.seq.shouldStop && t.seq.mode == .emit && t.seq.pos == 2) = true := by decide +kernel

/-! Well-formedness: an ill-formed term for each check, refused. -/

theorem test_wf_int_without_digits : (Instr.cv ⟨[]⟩).wf = false ∧ (Instr.ct ⟨[]⟩).wf = false ∧
    (Instr.sel ⟨[]⟩).wf = false ∧ (Instr.note ⟨[]⟩).wf = false := by decide
theorem test_wf_float_without_digits : (Instr.param ⟨[], none⟩).wf = false ∧ (Instr.vel ⟨[], some []⟩).wf = false := by
  decide
theorem test_wf_adsr_each_operand :
    (Instr.adsr ⟨[], none⟩ ⟨[1], none⟩ ⟨[1], none⟩ ⟨[1], none⟩).wf = false ∧
    (Instr.adsr ⟨[1], none⟩ ⟨[], some []⟩ ⟨[1], none⟩ ⟨[1], none⟩).wf = false ∧
    (Instr.adsr ⟨[1], none⟩ ⟨[1], none⟩ ⟨[], none⟩ ⟨[1], none⟩).wf = false ∧
    (Instr.adsr ⟨[1], none⟩ ⟨[1], none⟩ ⟨[1], none⟩ ⟨[], some []⟩).wf = false := by decide
theorem test_wf_comment_with_line_feed : (Instr.comment [0x54#8, 0x0A#8] true).wf = false := by decide

/-! Reset. -/

theorem test_reset : State.reset.voices.length = 1 ∧ State.reset.seq.samplesPerTick = 4 ∧ State.reset.mem.wf = true := by
  decide

/-! One step of each instruction. -/

/-- Spec R127 example 1: `Cv3` makes three voices with the default ADSR. -/
theorem test_cv : nextHas (step (start [0x43#8, 0x76#8, 0x33#8])) (fun t =>
    t.nVoices == 3 && voice0 (fun v => v.env.attack == 15 && v.env.sustain == 7 / 10 && v.osc.waveform == .pulseWidth) t &&
    t.seq.sel == .single 0) = true := by decide +kernel
/-- Spec R150: `Cv17` over 16 voices is E_ALLOC at 1:5, 17. -/
theorem test_cv_over_capacity : nextHas (step (start [0x43#8, 0x76#8, 0x31#8, 0x37#8]))
    (faultIs .eAlloc 1 5 .nothing .nothing (.value 17)) = true := by decide +kernel
/-- Spec R128: `Ct7000` at 1000 Hz is 8. -/
theorem test_ct : nextHas (step (start [0x43#8, 0x74#8, 0x37#8, 0x30#8, 0x30#8, 0x30#8])) (fun t =>
    t.seq.samplesPerTick == 8) = true := by decide +kernel
/-- Spec R155: `Ct0` is E_CONFIG at 1:4. -/
theorem test_ct_zero : nextHas (step (start [0x43#8, 0x74#8, 0x30#8]))
    (faultIs .eConfig 1 4 .nothing .nothing (.value 0)) = true := by decide +kernel
/-- Spec R129. -/
theorem test_tick : nextHas (step (start [0x2F#8, 0x2F#8])) (fun t => t.seq.mode == .emit && !t.seq.shouldStop) = true := by
  decide +kernel
/-- Spec R130. -/
theorem test_quit : nextHas (step (start [0x2F#8, 0x71#8])) (fun t => t.seq.mode == .emit && t.seq.shouldStop) = true := by
  decide +kernel
/-- Spec R131. -/
theorem test_selAll : nextHas (step (start [0x2F#8, 0x61#8])) (fun t => t.seq.sel == .all) = true := by decide +kernel
/-- Spec R132: `/2` on three voices. -/
theorem test_sel : nextHas (step (bank 3 (start [0x2F#8, 0x32#8]))) (fun t => t.seq.sel == .single 2) = true := by
  decide +kernel
/-- Spec R152: `/3` on three voices is E_VOICE (3, 3). -/
theorem test_sel_outside : nextHas (step (bank 3 (start [0x2F#8, 0x33#8])))
    (faultIs .eVoice 1 3 .nothing .nothing (.pair 3 3)) = true := by decide +kernel
/-- Spec R135's example. -/
theorem test_adsr : nextHas (exec (.adsr ⟨[4], none⟩ ⟨[3], none⟩ ⟨[0], some [5]⟩ ⟨[2], none⟩) State.reset) (voice0 fun v =>
    v.env.attack == 4 && v.env.decay == 3 && v.env.sustain == 1 / 2 && v.env.release == 2 &&
    v.env.samplesInState == 0) = true := by decide +kernel
/-- Spec R136: `P12.5` is 1/8. -/
theorem test_param : nextHas (step (start [0x50#8, 0x31#8, 0x32#8, 0x2E#8, 0x35#8])) (voice0 fun v =>
    v.osc.parameter == 1 / 8) = true := by decide +kernel
/-- Spec R137: `V050.0` is 1/2. -/
theorem test_vel : nextHas (step (start [0x56#8, 0x30#8, 0x35#8, 0x30#8, 0x2E#8, 0x30#8])) (voice0 fun v =>
    v.velocity == 1 / 2) = true := by decide +kernel
/-- Spec R85: note 69 at 1000 Hz is 11/25. -/
theorem test_note : nextHas (exec (.note ⟨[6, 9]⟩) State.reset) (voice0 fun v => v.osc.phasePerSample == 11 / 25) = true := by
  decide +kernel
/-- Spec R153: `N128`, here at 1:5. -/
theorem test_note_outside : nextHas (step (start [0x4E#8, 0x31#8, 0x32#8, 0x38#8]))
    (faultIs .eNote 1 5 .nothing .nothing (.value 128)) = true := by decide +kernel
/-- Spec R139. -/
theorem test_wavePulse : nextHas (exec .wavePulse State.reset) (voice0 fun v => v.osc.waveform == .pulseWidth) = true := by
  decide +kernel
/-- Spec R140. -/
theorem test_waveSaw : nextHas (step (start [0x57#8, 0x73#8])) (voice0 fun v => v.osc.waveform == .saw) = true := by
  decide +kernel
/-- Spec R141. -/
theorem test_waveNoise : nextHas (step (start [0x57#8, 0x6E#8])) (voice0 fun v => v.osc.waveform == .noise) = true := by
  decide +kernel
/-- Spec R142's example: the default attack at 1000 Hz is 15 samples. -/
theorem test_trigger : nextHas (step (start [0x54#8])) (voice0 fun v =>
    v.env.state == .attack && v.env.samplesInState == 15 && v.env.samplesDone == 0) = true := by decide +kernel
/-- Spec R143's example: in Sustain at 1/2. -/
theorem test_release : envRelease 1000 (env .sustain 7 0 0) = env .release 0 2 (1 / 2) := by decide +kernel
/-- Spec R90's example: in Decay, 2 of 5, from 1 to 1/2. -/
theorem test_release_in_decay : (envRelease 1000 (env .decay 2 5 0)).releaseLevel = 3 / 4 := by decide +kernel
/-- Spec R133's example: `# set up`, then the line feed. -/
theorem test_comment : nextHas (step (start [0x23#8, 0x20#8, 0x73#8, 0x65#8, 0x74#8, 0x20#8, 0x75#8, 0x70#8, 0x0A#8]))
    (fun t => t.seq.pos == 9 && t.seq.line == 2 && t.seq.col == 1 && t.seq.mode == .parse) = true := by decide +kernel
/-- Spec R33, R134: 0x0A starts a line, the other whitespace bytes do not (0x0D among them). -/
theorem test_whitespace :
    nextHas (step (start [0x0A#8])) (fun t => t.seq.line == 2 && t.seq.col == 1) = true ∧
    nextHas (step (start [0x0D#8])) (fun t => t.seq.line == 1 && t.seq.col == 2) = true ∧
    nextHas (step (start [0x09#8])) (fun t => t.seq.col == 2 && t.seq.mode == .parse) = true ∧
    nextHas (step (start [0x0B#8])) (fun t => t.seq.col == 2 && t.seq.mode == .parse) = true ∧
    nextHas (step (start [0x0C#8])) (fun t => t.seq.col == 2 && t.seq.mode == .parse) = true ∧
    nextHas (step (start [0x20#8])) (fun t => t.seq.col == 2 && t.seq.mode == .parse) = true := by decide +kernel

/-! The sample path. -/

/-- spec/95_test_vectors.md section 2.1, pulse: the tie, and above it. -/
theorem test_pulse : pulseValue (1 / 2) (1 / 2) = -1 ∧ pulseValue (51 / 100) (1 / 2) = 1 ∧ pulseValue 0 0 = -1 ∧
    pulseValue (999 / 1000) 1 = -1 := by decide +kernel
/-- spec/95_test_vectors.md section 2.1, Saw. -/
theorem test_saw : sawValue (5 / 16) (1 / 4) = some (1 / 2) ∧ sawValue (5 / 8) (1 / 4) = some (-1 / 3) ∧
    sawValue (1 / 2) (3 / 4) = some 0 ∧ sawValue 0 0 = some 1 ∧ sawValue (15 / 16) 0 = some (-7 / 8) ∧
    sawValue (5 / 8) 1 = some (-3 / 4) ∧ sawValue (1 / 2) 1 = none := by decide +kernel
/-- spec/95_test_vectors.md section 2.1, advance. -/
theorem test_advance : oscAdvance ⟨.saw, 9 / 10, 11 / 25, 1, 0⟩ = ⟨.saw, 17 / 50, 11 / 25, 0, 0⟩ ∧
    oscAdvance ⟨.noise, 0, 5 / 2, 3 / 2, 0⟩ = ⟨.noise, 1 / 2, 5 / 2, 1 / 2, 0⟩ := by decide +kernel
/-- spec/95_test_vectors.md section 2.1, frequency. -/
theorem test_frequency : frequency Config.standardBaseFreq 60 = 2616255652992 / 10000000000 ∧
    frequency Config.standardBaseFreq 127 = 125438539513856 / 10000000000 := by decide +kernel
/-- Spec R88: 15 ms at 44100 Hz, 1.5 ms at 1000 Hz, 0.9 ms at 1000 Hz. -/
theorem test_msToSamples : msToSamples 44100 15 = 661 ∧ msToSamples 1000 (3 / 2) = 1 ∧ msToSamples 1000 (9 / 10) = 0 := by
  decide +kernel
/-- Spec R102's example: the second attack sample is 1/3; the fourth ends the attack. -/
theorem test_envelope : envNextAmp 1000 (env .attack 1 4 0) = 1 / 3 ∧ envNextAmp 1000 (env .attack 3 4 0) = 1 ∧
    envNext 1000 (env .attack 3 4 0) = env .decay 0 3 0 ∧ envNextAmp 1000 (env .decay 1 3 0) = 3 / 4 := by decide +kernel
/-- Spec R103: `A0,0,s,0` then `T` reaches Sustain at once; `T` `R` with a zero attack starts Release at 1 (vector E8). -/
theorem test_zero_lengths : envNextAmp 1000 ⟨0, 0, 1 / 2, 0, .attack, 0, 0, 0⟩ = 1 / 2 ∧
    (envNext 1000 ⟨0, 0, 1 / 2, 0, .attack, 0, 0, 0⟩).state = .sustain ∧
    envNextAmp 1000 ⟨0, 2, 1 / 2, 2, .attackReleasing, 0, 0, 0⟩ = 1 := by decide +kernel
/-- Spec R109's example: `-1`, `3/4`, `1/2`. -/
theorem test_voice : (voiceSample 1000 ⟨⟨.pulseWidth, 0, 0, 1 / 2, 0⟩, env .decay 1 3 0, 1 / 2⟩ ⟨0, 0⟩).value = -3 / 8 := by
  decide +kernel
/-- Spec R118, R129's example: the first sample of a fresh bank is 0 and the tick goes on; at the fourth it ends. -/
theorem test_emit :
    nextHas (step (emitting State.reset)) (fun t => t.smp == [⟨0, false⟩] && t.seq.mode == .emit) = true ∧
    nextHas (step { emitting State.reset with seq := { (emitting State.reset).seq with samplesDone := 3 } }) (fun t =>
      t.seq.samplesDone == 4 && t.seq.mode == .parse) = true := by decide +kernel

/-! Inputs that meet the hypotheses of the statements, one theorem a statement, each clause at a boundary where it has
one. -/

/-- `start` with three voices, all selected, and a trigger pending. -/
def chord : State :=
  let s := bank 3 (start [0x54#8])
  { s with seq := { s.seq with sel := .all } }

/-- A state in Stopped, and one in Faulted. -/
def stoppedState : State := { State.reset with seq := { State.reset.seq with mode := .stopped } }
def faultedState : State := raiseValueFault .eNote (.value 128) State.reset

theorem witness_DecodeOfEncodeGivesItemBack :
    ((Instr.note ⟨[6, 9]⟩).wf = true ∧ (Instr.note ⟨[6, 9]⟩).endedBy false [0x54#8] = true) ∧
    ((Instr.param ⟨[], some [5]⟩).wf = true ∧ (Instr.param ⟨[], some [5]⟩).endedBy false [0x2E#8] = true) ∧
    ((Instr.comment [0xFF#8] false).wf = true ∧ (Instr.comment [0xFF#8] false).endedBy true [] = true) ∧
    ((Instr.adsr ⟨[1], none⟩ ⟨[1], some []⟩ ⟨[], some [5]⟩ ⟨[0], none⟩).wf = true ∧
      (Instr.adsr ⟨[1], none⟩ ⟨[1], some []⟩ ⟨[], some [5]⟩ ⟨[0], none⟩).endedBy true [] = true) := by decide

theorem witness_DecodedBytesAreTheItemsSpelling :
    decode true [0x43#8, 0x76#8, 0x30#8] = .ok (.cv ⟨[0]⟩) [] ∧ decode false [0x20#8, 0x54#8] = .ok .wsSpace [0x54#8] := by
  decide

theorem witness_FirstByteDispatchIsComplete : ∀ b ∈ [0x00#8, 0x08#8, 0x0E#8, 0x21#8, 0x30#8, 0x61#8, 0x74#8, 0xFF#8],
    b ∉ [0x09#8, 0x0A#8, 0x0B#8, 0x0C#8, 0x0D#8, 0x20#8, 0x23#8, 0x2F#8, 0x41#8, 0x43#8, 0x4E#8, 0x50#8, 0x52#8, 0x54#8,
      0x56#8, 0x57#8] := by decide

theorem witness_SecondByteDispatchIsComplete :
    (0x56#8 ≠ 0x76#8 ∧ 0x56#8 ≠ 0x74#8) ∧
    ((0x3A#8 : Byte) ≠ 0x2F#8 ∧ (0x3A#8 : Byte) ≠ 0x71#8 ∧ (0x3A#8 : Byte) ≠ 0x61#8 ∧ ∀ d, (0x3A#8 : Byte) ≠ digitByte d) ∧
    ((0x71#8 : Byte) ≠ 0x70#8 ∧ (0x71#8 : Byte) ≠ 0x73#8 ∧ (0x71#8 : Byte) ≠ 0x6E#8) := by decide

theorem witness_IntLiteralIsGreedyAndExact :
    (∀ d, (0x2F#8 : Byte) ≠ digitByte d) ∧ (∀ d, (0x3A#8 : Byte) ≠ digitByte d) ∧
    (([0, 0, 7] : List Digit) ≠ [] ∧ endsInt false [0x3A#8] = true ∧ endsInt true [] = true) := by decide

theorem witness_FloatLiteralIsGreedyAndExact :
    ((∀ d, (0x2F#8 : Byte) ≠ digitByte d) ∧ (0x2F#8 : Byte) ≠ 0x2E#8) ∧
    ((FloatLit.mk [5] (some [])).wf = true ∧ endsFloat false ⟨[5], some []⟩ [0x2E#8] = true) ∧
    ((FloatLit.mk [5] none).wf = true ∧ endsFloat true ⟨[5], none⟩ [] = true) ∧
    (∀ d, (0x2E#8 : Byte) ≠ digitByte d) ∧
    ((0x2D#8 : Byte) ≠ 0x2C#8 ∧ endsFloat false ⟨[1], none⟩ [0x2D#8] = true) ∧
    ((0x2E#8 : Byte) ≠ 0x2C#8 ∧ endsFloat true ⟨[1], some [2]⟩ [0x2E#8, 0x33#8] = true) ∧
    ((FloatLit.mk [1] none).wf = true ∧ (FloatLit.mk [1] (some [2])).wf = true) := by decide

theorem witness_StepRunsDecodedItem : (start [0x54#8]).seq.mode = .parse ∧
    decode (start [0x54#8]).cmdEnded (fetch (start [0x54#8])) = .ok .trigger [] ∧
    aboveIntMax (start [0x54#8]).cfg .trigger = false := by decide

theorem witness_StepRunsSpelledItem : (start [0x4E#8, 0x39#8, 0x54#8]).seq.mode = .parse ∧
    fetch (start [0x4E#8, 0x39#8, 0x54#8]) = encode (.note ⟨[9]⟩) ++ [0x54#8] ∧ (Instr.note ⟨[9]⟩).wf = true ∧
    (Instr.note ⟨[9]⟩).endedBy (start [0x4E#8, 0x39#8, 0x54#8]).cmdEnded [0x54#8] = true ∧
    (start [0x4E#8, 0x39#8, 0x54#8]).cfg.intMax = none ∧ (start [0x4E#8, 0x39#8, 0x54#8]).cfg.counterBits = none := by
  decide

theorem witness_CursorFollowsTheBytes :
    (start [0x0A#8]).mem.read (start [0x0A#8]).seq.pos = some 0x0A#8 ∧
    (start [0x0D#8]).mem.read (start [0x0D#8]).seq.pos = some 0x0D#8 ∧ (0x0D#8 : Byte) ≠ 0x0A#8 ∧
    (start [0x0D#8]).mem.wf = true := by decide

theorem witness_MisspelledItemEntersFault :
    ((start [0x57#8, 0x71#8]).seq.mode = .parse ∧
      decode (start [0x57#8, 0x71#8]).cmdEnded (fetch (start [0x57#8, 0x71#8])) =
        .fatal ⟨.eSyntax, .byte 0x71#8, .waveLetter⟩ [0x71#8]) ∧
    ((start [0x57#8]).seq.mode = .parse ∧
      decode (start [0x57#8]).cmdEnded (fetch (start [0x57#8])) = .fatal ⟨.eEof, .eof, .waveLetter⟩ []) := by decide

theorem witness_CoreHoldsWhileHostIsNotReady :
    (State.reset.seq.mode = .parse ∧ decode State.reset.cmdEnded (fetch State.reset) = .wait) ∧
    ((emitting (setReady false State.reset)).seq.mode = .emit ∧
      (emitting (setReady false State.reset)).smpReady = false) ∧
    ((Instr.note ⟨[6, 9]⟩).wf = true ∧ encode (.note ⟨[6, 9]⟩) = [0x4E#8, 0x36#8] ++ [0x39#8] ∧
      decode false [0x4E#8, 0x36#8] = .wait) ∧
    ((Instr.note ⟨[6]⟩).wf = true ∧ (Instr.note ⟨[6]⟩).endedBy false [] = false) ∧
    ((Instr.param ⟨[5], some []⟩).wf = true ∧ (Instr.param ⟨[5], some []⟩).endedBy false [] = false) ∧
    ((Instr.comment [] false).wf = true ∧ (Instr.comment [] false).endedBy false [] = false) := by decide

theorem witness_TerminalModesHaveNoStep : stoppedState.seq.mode = .stopped ∧ faultedState.seq.mode = .faulted := by decide

theorem witness_EmitStepDeliversOneSample :
    (emitting State.reset).seq.mode = .emit ∧ (emitting State.reset).smpReady = true := by decide

theorem witness_MixSumsVoicesInIndexOrder : chord.voices[2]? = some voiceInit := by decide +kernel

theorem witness_VoiceAdvanceIsTheProduct :
    -1 ≤ (oscValue voiceInit.osc ⟨0, 0⟩).value ∧ (oscValue voiceInit.osc ⟨0, 0⟩).value ≤ 1 ∧
    0 ≤ envNextAmp 1000 voiceInit.env ∧ envNextAmp 1000 voiceInit.env ≤ 1 ∧ 0 ≤ voiceInit.velocity ∧
    voiceInit.velocity ≤ 1 := by decide +kernel

theorem witness_PhaseAccumulates : 1 ≤ (1 : Nat) := by decide

theorem witness_PulseIsStrictlyAboveParameter :
    ((51 / 100 : Rat) > 1 / 2) ∧ (¬ (1 / 2 : Rat) > 1 / 2) ∧ ((0 : Rat) < 1 / 100) ∧
    ((999 / 1000 : Rat) < 1 ∧ (1 : Rat) ≤ 1) := by decide +kernel

theorem witness_SawIsTheFoldedRamp :
    ((0 : Rat) ≤ 5 / 16 ∧ (5 / 16 : Rat) < 1 ∧ (0 : Rat) ≤ 1 / 4 ∧ ¬ ((1 / 4 : Rat) = 1 ∧ (5 / 16 : Rat) = 1 / 2)) ∧
    ((0 : Rat) ≤ 1 / 2 ∧ (1 / 2 : Rat) < 1 ∧ (0 : Rat) ≤ 0 ∧ (0 : Rat) < 1) ∧
    ((0 : Rat) ≤ 1 / 4 ∧ (0 : Rat) < 1 / 4 ∧ (1 / 4 : Rat) < 1 / 2) := by decide +kernel

theorem witness_SawUnspecifiedOnlyAtTheTie :
    (∃ o : Osc, o.waveform = .saw ∧ o.parameter = 1 ∧ o.phase = 1 / 2) ∧
    ((0 : Rat) ≤ 0 ∧ (0 : Rat) < 1 ∧ (0 : Rat) ≠ 1 / 2) :=
  ⟨⟨⟨.saw, 1 / 2, 0, 1, 0⟩, rfl, rfl, rfl⟩, by decide +kernel⟩

theorem witness_OscillatorValuesAreBounded :
    ((0 : Rat) ≤ 1 / 2 ∧ (1 / 2 : Rat) < 1 ∧ (0 : Rat) ≤ 0 ∧ (0 : Rat) < 1) ∧
    ((0 : Rat) ≤ 3 / 2 ∧ (1 : Rat) < 3 / 2) ∧
    (0 ≤ voiceInit.osc.phase ∧ voiceInit.osc.phase < 1 ∧ 0 ≤ voiceInit.osc.parameter ∧
      ¬ (voiceInit.osc.waveform = .saw ∧ voiceInit.osc.parameter = 1 ∧ voiceInit.osc.phase = 1 / 2)) := by decide +kernel

theorem witness_NoiseTakesOneDrawPerSample :
    (∃ o : Osc, o.waveform = .noise) ∧ (∃ o : Osc, o.waveform ≠ .noise) :=
  ⟨⟨⟨.noise, 0, 0, 0, 0⟩, rfl⟩, ⟨⟨.saw, 0, 0, 0, 0⟩, by decide⟩⟩

theorem witness_FrequencyDoublesPerOctave : Config.standard.Valid ∧ 127 % 12 < 12 := by decide +kernel

theorem witness_AmplitudeByStateAndRatio :
    ((env .attack 0 1 0).samplesInState ≤ 1) ∧ (2 ≤ (env .attack 0 2 0).samplesInState) ∧
    ((env .attack 0 1 0).samplesDone < (env .attack 0 1 0).samplesInState) ∧
    ((env .attack 3 4 0).samplesDone + 1 = (env .attack 3 4 0).samplesInState) ∧ (env .off 0 0 0).state = .off ∧
    (env .attackReleasing 0 1 0).state = .attackReleasing ∧ (env .decay 0 1 0).state = .decay ∧
    (env .sustain 0 0 0).state = .sustain ∧ (env .release 0 1 0).state = .release ∧
    (0 ≤ (env .release 0 1 1).sustain ∧ (env .release 0 1 1).sustain ≤ 1 ∧ 0 ≤ (env .release 0 1 1).releaseLevel ∧
      (env .release 0 1 1).releaseLevel ≤ 1 ∧
      ((env .release 0 1 1).state.timed = true → (env .release 0 1 1).samplesDone < (env .release 0 1 1).samplesInState)) := by
  decide +kernel

theorem witness_DurationsRoundDownToSamples : (0 : Rat) ≤ 0 ∧ (0 : Rat) ≤ 1 ∧ ((0 : Rat) * (1000 : Nat) < 1000) := by
  decide +kernel

theorem witness_EnvelopeTransitionTable :
    (env .off 0 0 0).state = .off ∧ (env .attackReleasing 1 4 0).state = .attackReleasing ∧
    (env .release 1 2 1).state = .release ∧ (env .attack 1 4 0).state = .attack ∧ (env .decay 1 3 0).state = .decay ∧
    (env .sustain 1 0 0).state = .sustain ∧ (env .attack 3 4 0).samplesDone < (env .attack 3 4 0).samplesInState ∧
    (env .attack 4 4 0).samplesInState ≤ (env .attack 4 4 0).samplesDone ∧
    (env .decay 0 0 0).samplesInState ≤ (env .decay 0 0 0).samplesDone := by decide

theorem witness_SettleEndsWithinTwoTransitions : 2 ≤ (2 : Nat) := by decide

theorem witness_AmplitudesStayInTheUnitInterval :
    (env .decay 2 3 1).InRange ∧ (env .decay 2 3 1).sustain ≤ 1 ∧ (env .decay 2 3 1).releaseLevel ≤ 1 := by decide +kernel

/-- Attacks and decays of no, one, two and four samples. -/
theorem witness_AttackRampReachesOneThenDecays :
    msToSamples 1000 0 = 0 ∧ msToSamples 1000 (9 / 10) = 0 ∧ msToSamples 1000 1 = 1 ∧ 0 < msToSamples 1000 1 ∧
    msToSamples 1000 2 = 2 ∧ 3 < msToSamples 1000 4 := by decide +kernel

/-- Released before the first and the last of four samples, and at once in an attack of none. -/
theorem witness_ReleaseDuringAttackCompletesTheRamp :
    (0 < msToSamples 1000 (env .off 0 0 0).attack ∧ 3 + 0 < msToSamples 1000 (env .off 0 0 0).attack ∧
      2 ≤ msToSamples 1000 (env .off 0 0 0).release) ∧
    msToSamples 1000 0 = 0 ∧ msToSamples 1000 1 = 1 := by decide +kernel

/-- Decay at its first and its last sample, and of one sample; releases of one sample and of none. -/
theorem witness_DecaySustainReleaseOffBySample :
    ((env .decay 0 3 0).state = .decay ∧ (env .decay 0 3 0).samplesDone + 2 < (env .decay 0 3 0).samplesInState) ∧
    (env .decay 2 3 0).samplesDone < (env .decay 2 3 0).samplesInState ∧
    (env .decay 0 1 0).samplesDone < (env .decay 0 1 0).samplesInState ∧
    (env .off 0 0 0).state = .off ∧
    ((env .sustain 0 0 0).state = .sustain ∧ 1 < msToSamples 1000 (env .sustain 0 0 0).release) ∧
    msToSamples 1000 1 = 1 ∧ msToSamples 1000 (9 / 10) = 0 := by decide +kernel

theorem witness_CvReplacesTheBank :
    (IntLit.mk [0]).value = 0 ∧ (State.reset.cfg.maxVoices < (IntLit.mk [1, 7]).value ∧ (IntLit.mk [1, 7]).value ≠ 0) ∧
    (1 ≤ (IntLit.mk [1]).value ∧ (IntLit.mk [1]).value ≤ State.reset.cfg.maxVoices) ∧
    (1 ≤ (IntLit.mk [1, 6]).value ∧ (IntLit.mk [1, 6]).value ≤ State.reset.cfg.maxVoices) := by decide

theorem witness_CtSetsTheTickLength :
    (IntLit.mk [0]).value = 0 ∧ 60 * State.reset.cfg.sampleRate < (IntLit.mk [6, 0, 0, 0, 1]).value ∧
    (1 ≤ (IntLit.mk [6, 0, 0, 0, 0]).value ∧ (IntLit.mk [6, 0, 0, 0, 0]).value ≤ 60 * State.reset.cfg.sampleRate) := by
  decide

theorem witness_SelectionCommandsWriteTheSelector :
    (IntLit.mk [2]).value < chord.nVoices ∧ chord.nVoices ≤ (IntLit.mk [3]).value := by decide +kernel

/-- The voices the per-voice statements speak of: a bank of three, selected one or all. -/
theorem witness_perVoiceStatements :
    (chord.voices[0]? = some voiceInit ∧ chord.voices[2]? = some voiceInit ∧ Selected chord 0 ∧ Selected chord 2) ∧
    ((bank 3 State.reset).voices[1]? = some voiceInit ∧ Selected (bank 3 State.reset) 0 ∧
      ¬ Selected (bank 3 State.reset) 1) := by decide +kernel

theorem witness_NWritesTheIncrement : (IntLit.mk [1, 2, 7]).value < 128 ∧ 128 ≤ (IntLit.mk [1, 2, 8]).value := by decide

theorem witness_GateCommandsRepeated : ∃ t r : State, exec .trigger chord = .next t ∧ exec .release chord = .next r :=
  ⟨_, _, rfl, rfl⟩

theorem witness_NoteThenTriggerIsVoiceTrigger : (IntLit.mk [6, 9]).value < 128 := by decide

theorem witness_P100HoldsForOneSample :
    (FloatLit.mk [1, 0, 0] none).value = 100 ∧ voiceInit.osc.parameterPerSample = 0 := by decide +kernel

theorem witness_FaultsAreAtomic : ∃ t : State, step (start [0x78#8]) = .next t ∧ t.seq.mode = .faulted := by
  refine ⟨raiseSpellingFault ⟨.eSyntax, .byte 0x78#8, .command⟩ (consumeTo [0x78#8] (start [0x78#8])), ?_, ?_⟩
  · rfl
  · rfl

theorem witness_EveryStepKeepsTheInvariant : (start [0x54#8]).Inv ∧ (nextOf (step (start [0x54#8]))).isSome = true := by
  decide +kernel

theorem witness_InvariantHoldsAtReset : Config.standard.Valid := by decide +kernel

theorem witness_HostOperationsKeepTheInvariant :
    State.reset.Inv ∧ (nextOf (deliverByte 0x54#8 State.reset)).isSome = true ∧ Config.standard.Valid := by decide +kernel

theorem witness_ResetSetsEveryRegister : (assertReset Config.standard faultedState).voices[0]? = some voiceInit := by
  decide +kernel

theorem witness_CommandsComeBeforeSamples :
    ((start [0x54#8]).seq.mode = .parse ∧ (nextOf (step (start [0x54#8]))).isSome = true) ∧
    nextHas (step (start [0x2F#8, 0x2F#8])) (fun t => t.seq.mode == .emit && !t.seq.shouldStop) = true ∧
    nextHas (step (start [0x2F#8, 0x71#8])) (fun t => t.seq.mode == .emit && t.seq.shouldStop) = true ∧
    ((emitting State.reset).seq.mode = .emit ∧ (nextOf (step (emitting State.reset))).isSome = true) ∧
    nextHas (step { emitting State.reset with seq := { (emitting State.reset).seq with samplesDone := 3 } }) (fun t =>
      t.seq.mode == .parse) = true := by decide +kernel

theorem witness_RunsOnlyMoveForward : ∃ t : State, Reaches (emitting State.reset) t ∧ t.smp.length = 1 :=
  ⟨emitSample (emitting State.reset), .step .refl rfl, rfl⟩

theorem witness_SilentUntilTriggered :
    AllOff (start [0x52#8]) ∧ (nextOf (step (start [0x52#8]))).isSome = true ∧
    ∀ rest, decode (start [0x52#8]).cmdEnded (fetch (start [0x52#8])) ≠ .ok .trigger rest := by
  refine ⟨by decide +kernel, by decide +kernel, fun rest h => ?_⟩
  have h' : decode (start [0x52#8]).cmdEnded (fetch (start [0x52#8])) = .ok .release [] := by decide
  rw [h'] at h
  simp at h

theorem witness_MixIsBoundedByTheVelocities : chord.Inv ∧ ∀ v ∈ chord.voices,
    v.env.sustain ≤ 1 ∧ v.env.releaseLevel ≤ 1 ∧
    ¬ (v.osc.waveform = .saw ∧ v.osc.parameter = 1 ∧ v.osc.phase = 1 / 2) := by decide +kernel

theorem witness_TickLastsToTheNextMultiple :
    (emitting State.reset).seq.mode = .emit ∧ (emitting State.reset).seq.shouldStop = false ∧
    1 ≤ (emitting State.reset).seq.samplesPerTick ∧ (emitting State.reset).smpReady = true ∧
    (emitting State.reset).cfg.counterBits = none := by decide

/-- A state in Emit, one sample of its tick delivered. -/
def midTick : State :=
  { emitting State.reset with smp := [⟨0, false⟩], seq := { (emitting State.reset).seq with samplesDone := 1 } }

/-- At a tick boundary (`/q`, one item of fuel), and inside a tick (no fuel needed). -/
theorem witness_NextSampleIsARunOfSteps :
    (midTick.Inv ∧ midTick.cfg.intMax = none ∧ midTick.cfg.counterBits = none ∧ midTick.smpReady = true ∧
      midTick.seq.mode = .emit ∧ midTick.seq.samplesDone % midTick.seq.samplesPerTick ≠ 0 ∧
      (nextSample 0 midTick).isSome = true) ∧
    (start [0x2F#8, 0x71#8]).Inv ∧ (start [0x2F#8, 0x71#8]).cfg.intMax = none ∧
    (start [0x2F#8, 0x71#8]).cfg.counterBits = none ∧ (start [0x2F#8, 0x71#8]).smpReady = true ∧
    (start [0x2F#8, 0x71#8]).seq.mode = .parse ∧
    (start [0x2F#8, 0x71#8]).seq.samplesDone % (start [0x2F#8, 0x71#8]).seq.samplesPerTick = 0 ∧
    (nextSample 1 (start [0x2F#8, 0x71#8])).isSome = true :=
  ⟨by decide +kernel, by decide +kernel⟩

theorem witness_StreamReadsWhatWasDelivered : (start [0x54#8, 0x52#8]).mem.wf = true ∧ (1 : Nat) ≠ 0 := by decide

/-- The stream of `T` at offset 1, with and without a byte before it, and the cursor at 1. -/
theorem witness_ConsumedBytesAreNeverReadAgain :
    let s := { start [0x52#8, 0x54#8] with seq := { (start [0x52#8, 0x54#8]).seq with pos := 1 } }
    s.mem.wf = true ∧ Memory.wf [(1, 0x54#8)] = true ∧
    (∀ a, s.seq.pos ≤ a → Memory.read [(1, 0x54#8)] a = s.mem.read a) ∧ (nextOf (step s)).isSome = true := by
  refine ⟨by decide, by decide, fun a ha => ?_, by decide +kernel⟩
  have ha' : 1 ≤ a := ha
  have h0 : (0 : Nat) ≠ a := by omega
  simp [start, Memory.writeAll, Memory.write, Memory.read, h0]

end Sys2Proof.Tests
end

section
/-! SUPPORT. The dispatch tables of spec R63 and R64 and the integer literal of spec R59: what the decoder's parsers
answer on the first bytes they read. Settles O4, O5 and O6. -/

namespace Sys2Proof.Proofs

open Sys2Proof.Machine Sys2Proof.Laws

/-! Bytes that are no digit. -/

theorem digitOf_eq_none {b : Byte} (hb : ∀ d, b ≠ digitByte d) : digitOf b = none :=
  Option.eq_none_iff_forall_ne_some.2 fun d hd => hb d (digitByte_of_digitOf hd)

/-- What `endsInt` allows after a literal does not begin with a digit. -/
theorem digitOf_eq_none_of_endsInt {ended : Bool} {rest : List Byte} (h : endsInt ended rest = true) :
    ∀ b t, rest = b :: t → digitOf b = none := by
  rintro b t rfl
  exact Option.isNone_iff_eq_none.1 h

theorem endLiteral_of_endsInt {α : Type} {ended : Bool} (a : α) {rest : List Byte} (h : endsInt ended rest = true) :
    endLiteral ended a rest = .ok a rest := by
  refine endLiteral_ok_iff.2 ⟨rfl, rfl, ?_⟩
  rintro rfl
  exact h

/-! `ParseInt()`, spec R59. -/

theorem parseInt_nonDigit (ended : Bool) {b : Byte} (hb : ∀ d, b ≠ digitByte d) (t : List Byte) :
    parseInt ended (b :: t) = unexpected .digit b t := by
  simp [parseInt, needByte, digitOf_eq_none hb]

/-- From a digit on, the literal is the longest run of digits, and ends as spec R61 has it. -/
theorem parseInt_digit (ended : Bool) (d : Digit) (t : List Byte) :
    parseInt ended (digitByte d :: t) =
      endLiteral ended ⟨(takeDigits (digitByte d :: t)).1⟩ (takeDigits (digitByte d :: t)).2 := by
  simp [parseInt, needByte]

theorem parseInt_append {ended : Bool} {ds : List Digit} {rest : List Byte} (hds : ds ≠ [])
    (hrest : endsInt ended rest = true) : parseInt ended (ds.map digitByte ++ rest) = .ok ⟨ds⟩ rest := by
  obtain ⟨d, ds, rfl⟩ := List.exists_cons_of_ne_nil hds
  have hrun := takeDigits_append (d :: ds) (digitOf_eq_none_of_endsInt hrest)
  rw [List.map_cons, List.cons_append] at hrun ⊢
  rw [parseInt_digit, hrun]
  exact endLiteral_of_endsInt _ hrest

/-! First-byte dispatch, spec R63. -/

theorem decode_slash (ended : Bool) (t : List Byte) : decode ended (0x2F#8 :: t) = decodeSlash ended t := rfl

theorem decode_config (ended : Bool) (t : List Byte) : decode ended (0x43#8 :: t) = decodeConfig ended t := rfl

theorem decode_wave (ended : Bool) (t : List Byte) : decode ended (0x57#8 :: t) = decodeWave ended t := rfl

/-- A byte that begins no item is the offending byte, and is not consumed. -/
theorem decode_otherByte (ended : Bool) {b : Byte} (t : List Byte)
    (hb : b ∉ [0x09#8, 0x0A#8, 0x0B#8, 0x0C#8, 0x0D#8, 0x20#8, 0x23#8, 0x2F#8, 0x41#8, 0x43#8, 0x4E#8, 0x50#8,
      0x52#8, 0x54#8, 0x56#8, 0x57#8]) :
    decode ended (b :: t) = unexpected .command b t := by
  simp only [List.mem_cons, List.not_mem_nil, or_false, not_or] at hb
  simp [decode, needByte, hb]

/-! Second-byte dispatch, spec R64. -/

theorem decodeConfig_otherByte (ended : Bool) {b : Byte} (t : List Byte) (hv : b ≠ 0x76#8) (ht : b ≠ 0x74#8) :
    decodeConfig ended (b :: t) = unexpected .configLetter b t := by
  simp [decodeConfig, needByte, hv, ht]

theorem decodeWave_otherByte (ended : Bool) {b : Byte} (t : List Byte) (hp : b ≠ 0x70#8) (hs : b ≠ 0x73#8)
    (hn : b ≠ 0x6E#8) : decodeWave ended (b :: t) = unexpected .waveLetter b t := by
  simp [decodeWave, needByte, hp, hs, hn]

/-- The digits are none of the three letters after `/`, so the order of the tests does not matter. -/
theorem digitByte_ne_slashLetter (d : Digit) :
    digitByte d ≠ 0x2F#8 ∧ digitByte d ≠ 0x71#8 ∧ digitByte d ≠ 0x61#8 := by
  revert d; decide

theorem decodeSlash_digit (ended : Bool) (d : Digit) (t : List Byte) :
    decodeSlash ended (digitByte d :: t) =
      (parseInt ended (digitByte d :: t)).andThen fun n rest => .ok (.sel n) rest := by
  obtain ⟨hs, hq, ha⟩ := digitByte_ne_slashLetter d
  simp [decodeSlash, needByte, hs, hq, ha]

theorem decodeSlash_otherByte (ended : Bool) {b : Byte} (t : List Byte) (hs : b ≠ 0x2F#8) (hq : b ≠ 0x71#8)
    (ha : b ≠ 0x61#8) (hd : ∀ d, b ≠ digitByte d) : decodeSlash ended (b :: t) = unexpected .slashSuffix b t := by
  simp [decodeSlash, needByte, hs, hq, ha, digitOf_eq_none hd]

/-! The statements. -/

/-- Settles O6: the run of digits is read by `takeDigits_append`, its value digit by digit by `digitsValue_append`. -/
theorem intLiteralIsGreedyAndExact : Obligations.IntLiteralIsGreedyAndExact := by
  unfold Obligations.IntLiteralIsGreedyAndExact
  refine ⟨rfl, ?nonDigit, ?run, ?oneDigit, ?nextDigit, ?leadingZero⟩
  case nonDigit => exact fun ended b t hb => parseInt_nonDigit ended hb t
  case run => exact fun ended ds rest => parseInt_append
  case oneDigit => exact fun d => by simp [IntLit.value, digitsValue]
  case nextDigit => exact fun ds d => digitsValue_append 0 ds d
  case leadingZero => exact fun ds => rfl

/-- Settles O4: each byte of the table is its own branch of the dispatch, and every other byte reaches the last. -/
theorem firstByteDispatchIsComplete : Obligations.FirstByteDispatchIsComplete := by
  unfold Obligations.FirstByteDispatchIsComplete
  intro ended t
  exact ⟨rfl, rfl, rfl, rfl, rfl, rfl, rfl, decode_slash ended t, rfl, decode_config ended t, rfl, rfl, rfl, rfl, rfl,
    decode_wave ended t, fun _ => decode_otherByte ended t, rfl⟩

/-- Settles O5: the first byte selects the second table, whose rows are its branches; `w` and `c` begin no item. -/
theorem secondByteDispatchIsComplete : Obligations.SecondByteDispatchIsComplete := by
  unfold Obligations.SecondByteDispatchIsComplete
  intro ended t
  simp only [decode_config, decode_slash, decode_wave]
  refine ⟨rfl, rfl, ?config, rfl, rfl, rfl, rfl, ?digit, ?slash, rfl, rfl, rfl, rfl, ?wave, rfl,
    decode_otherByte ended t (by decide), decode_otherByte ended t (by decide)⟩
  case config => exact fun b => decodeConfig_otherByte ended t
  case digit => exact fun d => decodeSlash_digit ended d t
  case slash => exact fun b => decodeSlash_otherByte ended t
  case wave => exact fun b => decodeWave_otherByte ended t

end Sys2Proof.Proofs
end

section
/-! SUPPORT. The waveform values of spec R76 and R77 and the note frequencies of R83: the folded phase and the ramp over
it, the one condition under which the Saw is defined, and the octave. Settles O19, O23 and O18. -/

namespace Sys2Proof.Proofs

open Sys2Proof.Machine

/-! The pulse, spec R76. -/

theorem pulseValue_of_gt {phase parameter : Quantity} (h : phase > parameter) : pulseValue phase parameter = 1 :=
  if_pos h

theorem pulseValue_of_le {phase parameter : Quantity} (h : phase ≤ parameter) : pulseValue phase parameter = -1 :=
  if_neg h.not_gt

/-! The folded phase `p'`, spec R77. -/

theorem foldedPhase_eq_min (phase : Quantity) : foldedPhase phase = 2 * min phase (1 - phase) := by
  rw [foldedPhase, min_def]

theorem foldedPhase_mirror (phase : Quantity) : foldedPhase (1 - phase) = foldedPhase phase := by
  rw [foldedPhase_eq_min, foldedPhase_eq_min, sub_sub_cancel, min_comm]

@[simp] theorem foldedPhase_zero : foldedPhase 0 = 0 := by norm_num [foldedPhase]

theorem foldedPhase_half : foldedPhase (1 / 2) = 1 := by norm_num [foldedPhase]

/-- `p'` reaches 1 at phase 1/2 only. -/
theorem foldedPhase_lt_one {phase : Quantity} (h : phase ≠ 1 / 2) : foldedPhase phase < 1 := by
  rw [foldedPhase_eq_min]
  rcases h.lt_or_gt with h | h
  · linarith [min_le_left phase (1 - phase)]
  · linarith [min_le_right phase (1 - phase)]

/-! The Saw, spec R77. -/

/-- The ramp over the folded phase, before the sign of the half-cycle: up to 1 at `p = parameter`, then down to 0. -/
def foldedRamp (p parameter : Quantity) : Quantity :=
  if p < parameter then p / parameter else (1 - p) / (1 - parameter)

/-- Only at the tie of spec R79 do both branches of the Saw fail. -/
theorem foldedPhase_lt_or_ne_one {phase parameter : Quantity} (h : ¬ (parameter = 1 ∧ phase = 1 / 2)) :
    foldedPhase phase < parameter ∨ parameter ≠ 1 := by
  by_cases h1 : parameter = 1
  · subst h1
    exact .inl (foldedPhase_lt_one fun hp => h ⟨rfl, hp⟩)
  · exact .inr h1

/-- Off the tie the Saw is the folded ramp, negated in the second half-cycle. -/
theorem sawValue_eq_foldedRamp {phase parameter : Quantity} (h : ¬ (parameter = 1 ∧ phase = 1 / 2)) :
    sawValue phase parameter =
      some ((if phase > 1 / 2 then -1 else 1) * foldedRamp (foldedPhase phase) parameter) := by
  unfold sawValue foldedRamp
  rcases foldedPhase_lt_or_ne_one h with hlt | hne
  · simp [hlt]
  · by_cases hlt : foldedPhase phase < parameter
    · simp [hlt]
    · simp [hlt, hne]

theorem sawValue_firstHalf {phase parameter : Quantity} (h : phase < 1 / 2) :
    sawValue phase parameter = some (foldedRamp (foldedPhase phase) parameter) := by
  rw [sawValue_eq_foldedRamp fun hp => h.ne hp.2, if_neg h.not_gt, one_mul]

theorem sawValue_secondHalf {phase parameter : Quantity} (h : 1 / 2 < phase) :
    sawValue phase parameter = some (-foldedRamp (foldedPhase phase) parameter) := by
  rw [sawValue_eq_foldedRamp fun hp => h.ne' hp.2, if_pos h, neg_one_mul]

theorem sawValue_half {parameter : Quantity} (h : parameter < 1) : sawValue (1 / 2) parameter = some 0 := by
  rw [sawValue_eq_foldedRamp fun hp => h.ne hp.1, foldedPhase_half]
  simp [foldedRamp, h.not_gt]

theorem sawValue_zero {parameter : Quantity} (h : 0 < parameter) : sawValue 0 parameter = some 0 := by
  rw [sawValue_firstHalf (by norm_num)]
  simp [foldedRamp, h]

theorem sawValue_zero_zero : sawValue 0 0 = some 1 := by
  rw [sawValue_firstHalf (by norm_num)]
  simp [foldedRamp]

/-- The second half-cycle is the mirror image of the first, negated. -/
theorem sawValue_mirror {phase : Quantity} (parameter : Quantity) (h : phase < 1 / 2) :
    sawValue (1 - phase) parameter = (sawValue phase parameter).map fun v => -v := by
  have hmirror : 1 / 2 < 1 - phase := by linarith
  rw [sawValue_secondHalf hmirror, sawValue_firstHalf h, foldedPhase_mirror, Option.map_some]

/-! Note to frequency, spec R83. -/

theorem frequency_add_twelve (table : Vector Quantity 12) (note : Nat) :
    frequency table (note + 12) = 2 * frequency table note := by
  simp only [frequency, Nat.add_mod_right, Nat.add_div_right note (by decide : 0 < 12), pow_succ]
  ring

theorem frequency_of_lt {table : Vector Quantity 12} {note : Nat} (h : note < 12) :
    frequency table note = table[note] := by
  simp [frequency, Nat.mod_eq_of_lt h, Nat.div_eq_of_lt h]

/-- Note 69 is entry 9, five octaves up. -/
theorem frequency_sixtyNine (table : Vector Quantity 12) : frequency table 69 = table[9] * 2 ^ 5 := rfl

/-! The statements. -/

/-- Settles O19: off the tie the Saw is the folded ramp with the half-cycle's sign, and the folded phase is the same at
the mirrored phase. -/
theorem sawIsTheFoldedRamp : Obligations.SawIsTheFoldedRamp := by
  unfold Obligations.SawIsTheFoldedRamp
  intro phase parameter _ _ _
  refine ⟨fun htie => ?formula, sawValue_half, sawValue_zero, sawValue_zero_zero, fun _ => sawValue_mirror parameter⟩
  case formula => rw [sawValue_eq_foldedRamp htie, foldedPhase_eq_min, foldedRamp]

/-- Settles O23: twelve notes up keep the entry and add one to the octave; note 69 is 55/4 times 32. -/
theorem frequencyDoublesPerOctave : Obligations.FrequencyDoublesPerOctave := by
  unfold Obligations.FrequencyDoublesPerOctave
  rintro c ⟨-, -, -, -, -, hnine, -⟩
  refine ⟨fun n _ => rfl, fun n _ => frequency_add_twelve c.baseFreq n, fun n => frequency_of_lt n.isLt, ?note69⟩
  case note69 =>
    rw [frequency_sixtyNine, hnine]
    norm_num

/-- Settles O18: every clause is one side of the strict comparison. -/
theorem pulseIsStrictlyAboveParameter : Obligations.PulseIsStrictlyAboveParameter := by
  unfold Obligations.PulseIsStrictlyAboveParameter
  intro phase parameter
  exact ⟨pulseValue_of_gt, fun h => pulseValue_of_le (not_lt.1 h), pulseValue_of_le le_rfl, pulseValue_of_gt,
    pulseValue_of_le le_rfl, fun hphase hpar => pulseValue_of_le (hphase.le.trans hpar)⟩

end Sys2Proof.Proofs
end

section
/-! SUPPORT. The envelope's progress ratio of spec R92 and its amplitude of spec R94: an equation per case and the upper
bound of the amplitude. Settles O24. -/

namespace Sys2Proof.Proofs

open Sys2Proof.Machine Sys2Proof.Laws

/-! The progress ratio, spec R92. -/

theorem ratio_of_le_one {e : Env} (h : e.samplesInState ≤ 1) : e.ratio = 1 := if_pos h

/-- From two samples on the divisor is positive, so its subtraction in the naturals is exact. -/
theorem ratio_of_two_le {e : Env} (h : 2 ≤ e.samplesInState) :
    e.ratio = (e.samplesDone : Quantity) / ((e.samplesInState : Quantity) - 1) := by
  rw [Env.ratio, if_neg (by omega), Nat.cast_sub (by omega), Nat.cast_one]

/-- The last sample of a state, however long, has ratio 1. -/
theorem ratio_lastSample {e : Env} (h : e.samplesDone + 1 = e.samplesInState) : e.ratio = 1 := by
  rcases Nat.lt_or_ge 1 e.samplesInState with hlong | hshort
  · have hdone : (e.samplesDone : Quantity) ≠ 0 := Nat.cast_ne_zero.2 (by omega)
    rw [ratio_of_two_le hlong, ← h, Nat.cast_succ, add_sub_cancel_right, div_self hdone]
  · exact ratio_of_le_one hshort

/-! The amplitude, spec R94. -/

theorem amp_off {e : Env} (h : e.state = .off) : e.amp = 0 := by simp [Env.amp, h]

theorem amp_attack {e : Env} (h : e.state = .attack ∨ e.state = .attackReleasing) : e.amp = e.ratio := by
  rcases h with h | h <;> simp [Env.amp, h]

theorem amp_decay {e : Env} (h : e.state = .decay) : e.amp = 1 + (e.sustain - 1) * e.ratio := by simp [Env.amp, h]

theorem amp_sustain {e : Env} (h : e.state = .sustain) : e.amp = e.sustain := by simp [Env.amp, h]

theorem amp_release {e : Env} (h : e.state = .release) : e.amp = e.releaseLevel * (1 - e.ratio) := by
  simp [Env.amp, h]

/-- The attack ramps are the ratio itself; the decay falls from 1, and the release is a part of its level. -/
theorem amp_le_one {e : Env} (hs : e.sustain ≤ 1) (hl : e.releaseLevel ≤ 1)
    (h : e.state.timed = true → e.samplesDone < e.samplesInState ∨ e.samplesInState ≤ 1) : e.amp ≤ 1 := by
  have hratio (ht : e.state.timed = true) : 0 ≤ e.ratio ∧ e.ratio ≤ 1 := ratio_unit (h ht)
  cases hst : e.state <;> simp only [hst, EnvState.timed, forall_true_left] at hratio
  case off => exact (amp_off hst).trans_le zero_le_one
  case attack => exact (amp_attack (.inl hst)).trans_le hratio.2
  case attackReleasing => exact (amp_attack (.inr hst)).trans_le hratio.2
  case decay =>
    have hfall : (e.sustain - 1) * e.ratio ≤ 0 := mul_nonpos_of_nonpos_of_nonneg (sub_nonpos.2 hs) hratio.1
    linarith [amp_decay hst]
  case sustain => exact (amp_sustain hst).trans_le hs
  case release =>
    rw [amp_release hst]
    exact mul_le_one₀ hl (sub_nonneg.2 hratio.2) (sub_le_self 1 hratio.1)

/-! The statement. -/

/-- Settles O24: an equation per case of the two definitions, and the bound from the ratio's own range. -/
theorem amplitudeByStateAndRatio : Obligations.AmplitudeByStateAndRatio := by
  unfold Obligations.AmplitudeByStateAndRatio
  intro e
  refine ⟨ratio_of_le_one, ratio_of_two_le, ratio_lastSample, amp_off, amp_attack, amp_decay, amp_sustain, amp_release,
    fun hs0 hs1 hl0 hl1 hleft => ?bound⟩
  case bound =>
    have htimed (ht : e.state.timed = true) : e.samplesDone < e.samplesInState ∨ e.samplesInState ≤ 1 := .inl (hleft ht)
    exact ⟨amp_nonneg hs0 hl0 htimed, amp_le_one hs1 hl1 htimed⟩

end Sys2Proof.Proofs
end

section
/-! SUPPORT. The writes of the per-voice commands (spec R124): what a write of the selected voices leaves, and two of
them in turn; `N`, `T` and the voice's own trigger as such writes. Settles O45. -/

namespace Sys2Proof.Proofs

open Sys2Proof.Machine Sys2Proof.Laws

/-! Writes of the selected voices, spec R124. -/

theorem forTargets_onlySelectedWritten (f : Voice → Voice) (s : State) : OnlySelectedWritten f s (forTargets f s) := by
  refine ⟨⟨forTargets_length f s, fun i v hv => ?voice⟩, rfl, ⟨rfl, fun _ => rfl, rfl, rfl, rfl, rfl⟩, rfl, rfl⟩
  case voice =>
    simp only [forTargets_getElem?, mem_targets_iff hv, hv, Option.map_some]
    exact (apply_ite some _ _ _).symm

/-- Two writes of one selection are one write, the second function after the first. -/
theorem onlySelectedWritten_comp {f g : Voice → Voice} {s t u : State} (hf : OnlySelectedWritten f s t)
    (hg : OnlySelectedWritten g t u) : OnlySelectedWritten (g ∘ f) s u := by
  obtain ⟨⟨hlen, hvoices⟩, hseq, ⟨hcfg, hmem, hended, hready, hsmp, hdraws⟩, hfault, hflt⟩ := hf
  obtain ⟨⟨hlen', hvoices'⟩, hseq', ⟨hcfg', hmem', hended', hready', hsmp', hdraws'⟩, hfault', hflt'⟩ := hg
  refine ⟨⟨hlen'.trans hlen, fun i v hv => ?voice⟩, hseq'.trans hseq,
    ⟨hcfg'.trans hcfg, fun a => (hmem' a).trans (hmem a), hended'.trans hended, hready'.trans hready, hsmp'.trans hsmp,
      hdraws'.trans hdraws⟩, hfault'.trans hfault, hflt'.trans hflt⟩
  case voice =>
    have hu := hvoices' i _ (hvoices i v hv)
    by_cases hsel : Selected s i
    · have hsel' : Selected t i := by rwa [Selected, hseq]
      rw [if_pos hsel, if_pos hsel'] at hu
      rw [if_pos hsel, hu, Function.comp_apply]
    · have hsel' : ¬ Selected t i := by rwa [Selected, hseq]
      rw [if_neg hsel, if_neg hsel'] at hu
      rw [if_neg hsel, hu]

/-! `N` and `T`, spec R138 and R142. -/

theorem exec_note_of_lt {n : IntLit} (s : State) (h : n.value < 128) :
    exec (.note n) s = .next (forTargets (fun v => { v with osc := setNote s.cfg n.value v.osc }) s) :=
  if_neg h.not_ge

theorem exec_trigger (s : State) : exec .trigger s = .next (forTargets (voiceRetrigger s.cfg) s) := rfl

/-! The voice's trigger, spec R106. -/

/-- Setting the note and then restarting the envelope is the voice's trigger (spec R85, R107). -/
theorem voiceRetrigger_comp_setNote (c : Config) (note : Nat) :
    (voiceRetrigger c ∘ fun v => { v with osc := setNote c note v.osc }) = voiceTrigger c note := rfl

/-- The trigger written out: the increment of the oscillator, and the envelope at the start of its attack. -/
theorem voiceTrigger_eq (c : Config) (note : Nat) (v : Voice) :
    voiceTrigger c note v = { v with
      osc := { v.osc with phasePerSample := frequency c.baseFreq note / (c.sampleRate : Quantity) }
      env := { v.env with
        state := .attack, samplesDone := 0, samplesInState := msToSamples c.sampleRate v.env.attack } } := rfl

/-! The statement. -/

/-- Settles O45: `N` and `T` write the same selection, so they are one write by the composition of their functions, and
that composition is the voice's trigger. -/
theorem noteThenTriggerIsVoiceTrigger : Obligations.NoteThenTriggerIsVoiceTrigger := by
  unfold Obligations.NoteThenTriggerIsVoiceTrigger
  intro n s hn
  refine ⟨voiceTrigger_eq s.cfg n.value, _, _, exec_note_of_lt s hn, exec_trigger _, ?written⟩
  case written =>
    rw [forTargets_cfg, ← voiceRetrigger_comp_setNote]
    exact onlySelectedWritten_comp (forTargets_onlySelectedWritten _ s) (forTargets_onlySelectedWritten _ _)

end Sys2Proof.Proofs
end

section
/-! SUPPORT. The sample of a voice (spec R109): its value is the product of three factors, so it is at most the velocity
in magnitude. Settles O16. -/

namespace Sys2Proof.Proofs

open Sys2Proof.Machine

theorem voiceSample_value (sr : Nat) (v : Voice) (d : Draws) :
    (voiceSample sr v d).value = (oscValue v.osc d).value * envNextAmp sr v.env * v.velocity := rfl

/-- Only the oscillator takes free values. -/
theorem voiceSample_draws (sr : Nat) (v : Voice) (d : Draws) :
    (voiceSample sr v d).draws = (oscValue v.osc d).draws := rfl

/-- The bound spec R112 derives from R109: with oscillator and amplitude in their ranges, the velocity bounds the
sample. -/
theorem abs_voiceSample_le_velocity {sr : Nat} {v : Voice} {d : Draws} (hosc : |(oscValue v.osc d).value| ≤ 1)
    (hamp0 : 0 ≤ envNextAmp sr v.env) (hamp1 : envNextAmp sr v.env ≤ 1) (hvel : 0 ≤ v.velocity) :
    |(voiceSample sr v d).value| ≤ v.velocity := by
  have hfactor : |(oscValue v.osc d).value| * envNextAmp sr v.env ≤ 1 := mul_le_one₀ hosc hamp0 hamp1
  rw [voiceSample_value, abs_mul, abs_mul, abs_of_nonneg hamp0, abs_of_nonneg hvel]
  exact mul_le_of_le_one_left hvel hfactor

/-- Settles O16: the equations of the two halves of the voice's advance, and the bound by the velocity. -/
theorem voiceAdvanceIsTheProduct : Obligations.VoiceAdvanceIsTheProduct := by
  unfold Obligations.VoiceAdvanceIsTheProduct
  intro sr v d
  refine ⟨voiceSample_value sr v d, voiceSample_draws sr v d, rfl, rfl, rfl,
    fun hosc0 hosc1 hamp0 hamp1 hvel0 hvel1 => ?range⟩
  case range =>
    have hbound := abs_voiceSample_le_velocity (abs_le.2 ⟨hosc0, hosc1⟩) hamp0 hamp1 hvel0
    exact abs_le.1 (hbound.trans hvel1)

end Sys2Proof.Proofs
end

section
/-! SUPPORT. What `raise Fatal` leaves (spec R148) and what a write of the sequencer registers alone leaves; the two
selection commands as such a fault or write. Settles O35. -/

namespace Sys2Proof.Proofs

open Sys2Proof.Machine

/-! Fault entry and sequencer writes. -/

theorem raiseFatal_faultEntered (code : FaultCode) (got : Got) (exp : Expected) (aux : Aux) (s : State) :
    FaultEntered code got exp aux s (raiseFatal code got exp aux s) :=
  ⟨rfl, rfl, rfl, rfl, rfl, fun _ => rfl, rfl, rfl, rfl, rfl⟩

theorem raiseValueFault_faultEntered (code : FaultCode) (aux : Aux) (s : State) :
    FaultEntered code .nothing .nothing aux s (raiseValueFault code aux s) :=
  raiseFatal_faultEntered code .nothing .nothing aux s

theorem seqWrite_kept (q : SeqRegs) (s : State) :
    { s with seq := q }.voices = s.voices ∧ PortsKept s { s with seq := q } ∧ FaultKept s { s with seq := q } :=
  ⟨rfl, ⟨rfl, fun _ => rfl, rfl, rfl, rfl, rfl⟩, rfl, rfl⟩

/-! `/a` and `/<int>`, spec R131 and R132. -/

theorem exec_selAll (s : State) : exec .selAll s = .next { s with seq := { s.seq with sel := .all } } := rfl

theorem exec_sel_of_lt {n : IntLit} {s : State} (h : n.value < s.nVoices) :
    exec (.sel n) s = .next { s with seq := { s.seq with sel := .single n.value } } :=
  if_neg h.not_ge

theorem exec_sel_of_ge {n : IntLit} {s : State} (h : s.nVoices ≤ n.value) :
    exec (.sel n) s = .next (raiseValueFault .eVoice (.pair n.value s.nVoices) s) :=
  if_pos h

/-! The statement. -/

/-- Settles O35: in the bank the selection is a write of the sequencer registers alone, outside it a value fault. -/
theorem selectionCommandsWriteTheSelector : Obligations.SelectionCommandsWriteTheSelector := by
  unfold Obligations.SelectionCommandsWriteTheSelector
  intro n s
  refine ⟨?selectAll, fun hin => ?selectOne, fun hout => ?outside⟩
  case selectAll => exact ⟨_, exec_selAll s, rfl, seqWrite_kept _ s⟩
  case selectOne => exact ⟨_, exec_sel_of_lt hin, rfl, seqWrite_kept _ s⟩
  case outside => exact ⟨_, exec_sel_of_ge hout, raiseValueFault_faultEntered _ _ s⟩

end Sys2Proof.Proofs
end

section
/-! SUPPORT. The waveform and gate commands as writes of the selected voices: one write for `Wp`, `Ws` and `Wn`, the
restarted envelope of `T`, and what the release of spec R90 does in each envelope state. Settles O41, O42, O43. -/

namespace Sys2Proof.Proofs

open Sys2Proof.Machine

/-- A write of the selected voices may be described by any function with the same values. -/
theorem forTargets_onlySelectedWritten_of_eq {f g : Voice → Voice} (h : ∀ v, f v = g v) (s : State) :
    OnlySelectedWritten g s (forTargets f s) :=
  funext h ▸ forTargets_onlySelectedWritten f s

/-! The waveform commands, spec R139 to R141. -/

theorem exec_wavePulse (s : State) : exec .wavePulse s = .next (setWaveform .pulseWidth s) := rfl

theorem exec_waveSaw (s : State) : exec .waveSaw s = .next (setWaveform .saw s) := rfl

theorem exec_waveNoise (s : State) : exec .waveNoise s = .next (setWaveform .noise s) := rfl

theorem setWaveform_onlySelectedWritten (w : Waveform) (s : State) :
    OnlySelectedWritten (fun v => { v with osc := { v.osc with waveform := w } }) s (setWaveform w s) :=
  forTargets_onlySelectedWritten _ s

/-! The gate commands, spec R142 and R143. -/

/-- The restart written out: it reads the attack register alone, never the envelope's state (spec R89). -/
theorem voiceRetrigger_eq (c : Config) (v : Voice) :
    voiceRetrigger c v = { v with env := { v.env with
      state := .attack, samplesDone := 0, samplesInState := msToSamples c.sampleRate v.env.attack } } := rfl

theorem exec_release (s : State) : exec .release s = .next (forTargets (voiceRelease s.cfg) s) := rfl

/-! The release by envelope state, spec R90. -/

theorem envRelease_of_attack (sr : Nat) {e : Env} (h : e.state = .attack) :
    envRelease sr e = { e with state := .attackReleasing } := by
  simp [envRelease, h]

/-- From Decay and Sustain the release begins at once, at the amplitude of the moment. -/
theorem envRelease_of_decay_or_sustain (sr : Nat) {e : Env} (h : e.state = .decay ∨ e.state = .sustain) :
    envRelease sr e = { e with
      state := .release, releaseLevel := e.amp, samplesDone := 0, samplesInState := msToSamples sr e.release } := by
  rcases h with h | h <;> simp [envRelease, Env.enter, h]

/-- The amplitude held in Sustain is the sustain level, so that is the level released from. -/
theorem envRelease_of_sustain (sr : Nat) {e : Env} (h : e.state = .sustain) :
    envRelease sr e = { e with
      state := .release, releaseLevel := e.sustain, samplesDone := 0, samplesInState := msToSamples sr e.release } := by
  rw [envRelease_of_decay_or_sustain sr (.inr h), amp_sustain h]

theorem envRelease_of_released_or_off (sr : Nat) {e : Env}
    (h : e.state = .attackReleasing ∨ e.state = .release ∨ e.state = .off) : envRelease sr e = e := by
  rcases h with h | h | h <;> simp [envRelease, h]

/-- Releasing a voice releases its envelope and keeps its other registers (spec R108). -/
theorem voiceRelease_of_envRelease {c : Config} {v : Voice} {e : Env} (h : envRelease c.sampleRate v.env = e) :
    voiceRelease c v = { v with env := e } :=
  congrArg (fun e => { v with env := e }) h

/-! The statements. -/

/-- Settles O41: the three commands are one write of the selected voices, at the three waveforms. -/
theorem wWritesTheWaveform : Obligations.WWritesTheWaveform := by
  unfold Obligations.WWritesTheWaveform
  intro s
  refine ⟨?pulse, ?saw, ?noise⟩
  case pulse => exact ⟨_, exec_wavePulse s, setWaveform_onlySelectedWritten .pulseWidth s⟩
  case saw => exact ⟨_, exec_waveSaw s, setWaveform_onlySelectedWritten .saw s⟩
  case noise => exact ⟨_, exec_waveNoise s, setWaveform_onlySelectedWritten .noise s⟩

/-- Settles O42: `T` writes the selected voices by the voice's restart, which reads no envelope state. -/
theorem tRestartsTheEnvelope : Obligations.TRestartsTheEnvelope := by
  unfold Obligations.TRestartsTheEnvelope
  intro s
  exact ⟨_, exec_trigger s, forTargets_onlySelectedWritten_of_eq (voiceRetrigger_eq s.cfg) s⟩

/-- Settles O43: `R` writes the selected voices by the voice's release, told apart by the voice's envelope state. -/
theorem rReleasesByState : Obligations.RReleasesByState := by
  unfold Obligations.RReleasesByState
  intro s
  refine ⟨_, exec_release s, forTargets_onlySelectedWritten_of_eq (fun v => ?byState) s⟩
  cases hstate : v.env.state with
  | attack => exact voiceRelease_of_envRelease (envRelease_of_attack _ hstate)
  | decay => exact voiceRelease_of_envRelease (envRelease_of_decay_or_sustain _ (.inl hstate))
  | sustain => exact voiceRelease_of_envRelease (envRelease_of_sustain _ hstate)
  | attackReleasing => exact voiceRelease_of_envRelease (envRelease_of_released_or_off _ (.inl hstate))
  | release => exact voiceRelease_of_envRelease (envRelease_of_released_or_off _ (.inr (.inl hstate)))
  | off => exact voiceRelease_of_envRelease (envRelease_of_released_or_off _ (.inr (.inr hstate)))

end Sys2Proof.Proofs
end

section
/-! SUPPORT. Faulted has no step (spec R119, R148). Settles O47. -/

namespace Sys2Proof.Proofs

open Sys2Proof.Machine Sys2Proof.Laws

theorem step_of_faulted {s : State} (h : s.seq.mode = .faulted) : step s = .fault .faulted := by
  simp only [step, h]

/-- Settles O47: what fault entry leaves, and the mode it leaves has no step. -/
theorem faultEntryWritesRecordAndMode : Obligations.FaultEntryWritesRecordAndMode := by
  unfold Obligations.FaultEntryWritesRecordAndMode
  intro code got exp aux s
  exact ⟨raiseFatal_faultEntered code got exp aux s, step_of_faulted (raiseFatal_seq_mode code got exp aux s)⟩

end Sys2Proof.Proofs
end

section
/-! SUPPORT. The spellings of spec R59 to R73 in both directions: every parser is held to the format it reads, by what
it answers on any bytes (`Format.Answers`), and reads every spelling of the format back. Settles O1, O2 and O3. -/

namespace Sys2Proof.Proofs

open Sys2Proof.Machine Sys2Proof.Laws

/-! Formats and what a parser may answer. -/

/-- How a value is spelled: its bytes, which values are spellings, and what may follow them. -/
structure Format (α : Type) where
  encode : α → List Byte
  wf : α → Bool
  endedBy : α → Bool → List Byte → Bool

def intFormat : Format IntLit := ⟨encodeInt, IntLit.wf, fun _ => endsInt⟩

def floatFormat : Format FloatLit := ⟨encodeFloat, FloatLit.wf, fun l ended => endsFloat ended l⟩

def byteFormat (ch : Byte) : Format Unit := ⟨fun _ => [ch], fun _ => true, fun _ _ _ => true⟩

/-- The body of a comment, and whether a line feed closed it (spec R70). -/
def commentFormat : Format (List Byte × Bool) where
  encode r := r.1 ++ if r.2 then [Ch.lineFeed] else []
  wf r := !r.1.contains Ch.lineFeed
  endedBy r ended rest := r.2 || (rest.isEmpty && ended)

def itemFormat : Format Instr := ⟨encode, Instr.wf, Instr.endedBy⟩

/-- A spelling fault names the byte `rest` begins with, or the end of input it has met (spec R151, R154). -/
def FaultAt (ended : Bool) (f : Spelling) (rest : List Byte) : Prop :=
  (∃ b tail, rest = b :: tail ∧ f.got = .byte b ∧ f.code = .eSyntax) ∨
  (rest = [] ∧ ended = true ∧ f.got = .eof ∧ f.code = .eEof)

/-- All a parser of the format may answer on `bs`: a value whose spelling `bs` begins with; a fault at the bytes it
names, saying what was expected (spec R146); or a wait, before end of input only, where more bytes make a value. -/
def Format.Answers {α : Type} (F : Format α) (ended : Bool) (bs : List Byte) : Parse α → Prop
  | .ok a rest => bs = F.encode a ++ rest ∧ F.wf a = true ∧ F.endedBy a ended rest = true
  | .fatal f rest => (∃ pre, bs = pre ++ rest) ∧ f.exp ≠ .nothing ∧ FaultAt ended f rest
  | .wait => ended = false ∧ ∃ a tail, F.wf a = true ∧ tail ≠ [] ∧ F.encode a = bs ++ tail

section
variable {α β : Type} {F : Format α} {G : Format β} {ended : Bool}

theorem answers_unexpected {exp : Expected} {bs t : List Byte} {b : Byte} (h : ∃ pre, bs = pre ++ b :: t)
    (hexp : exp ≠ .nothing := by simp) : F.Answers ended bs (unexpected exp b t) :=
  ⟨h, hexp, .inl ⟨b, t, rfl, rfl, rfl⟩⟩

/-- Where a byte is required and none is left, end of input is a fault, and before it more bytes would help. -/
theorem answers_needByte_nil {exp : Expected} {bs : List Byte} {k : Byte → List Byte → Parse α}
    (hwait : ∃ a tail, F.wf a = true ∧ tail ≠ [] ∧ F.encode a = bs ++ tail) (hexp : exp ≠ .nothing := by simp) :
    F.Answers ended bs (needByte ended exp [] k) := by
  cases ended with
  | false => exact ⟨rfl, hwait⟩
  | true => exact ⟨⟨bs, (List.append_nil bs).symm⟩, hexp, .inr ⟨rfl, rfl, rfl, rfl⟩⟩

/-- A literal ends here or, when no byte follows, could still go on. -/
theorem answers_endLiteral {a : α} {bs rest : List Byte} (hbs : bs = F.encode a ++ rest) (hwf : F.wf a = true)
    (hend : (rest = [] → ended = true) → F.endedBy a ended rest = true)
    (hlonger : ∃ a' tail, F.wf a' = true ∧ tail ≠ [] ∧ F.encode a' = F.encode a ++ tail) :
    F.Answers ended bs (endLiteral ended a rest) := by
  cases rest with
  | cons b t => exact ⟨hbs, hwf, hend (by simp)⟩
  | nil =>
    cases ended with
    | false => exact ⟨rfl, by rwa [hbs, List.append_nil]⟩
    | true => exact ⟨hbs, hwf, hend fun _ => rfl⟩

/-- One parser after another, `pre` having been read before both: a value of the second format begins with `pre` and any
value of the first. -/
theorem answers_andThen (pre : List Byte) {bs : List Byte} {p : Parse α} {k : α → List Byte → Parse β}
    (hp : F.Answers ended bs p)
    (hk : ∀ a rest, F.wf a = true → F.endedBy a ended rest = true →
      G.Answers ended (pre ++ F.encode a ++ rest) (k a rest))
    (hcompletion : ∀ a, F.wf a = true → ∃ b suffix, G.wf b = true ∧ G.encode b = pre ++ F.encode a ++ suffix) :
    G.Answers ended (pre ++ bs) (p.andThen k) := by
  cases p with
  | ok a rest =>
    obtain ⟨rfl, hwf, hend⟩ := hp
    rw [← List.append_assoc]
    exact hk a rest hwf hend
  | fatal f rest =>
    obtain ⟨⟨mid, rfl⟩, hexp, hat⟩ := hp
    exact ⟨⟨pre ++ mid, (List.append_assoc ..).symm⟩, hexp, hat⟩
  | wait =>
    obtain ⟨hended, a, tail, hwf, htail, henc⟩ := hp
    obtain ⟨b, suffix, hwfb, hencb⟩ := hcompletion a hwf
    refine ⟨hended, b, tail ++ suffix, hwfb, by simp [htail], ?_⟩
    simp [hencb, henc]

/-- One test of a dispatch on the byte `b`. -/
theorem answers_ite {pre t : List Byte} {b c : Byte} {p q : Parse α} (hp : F.Answers ended (pre ++ c :: t) p)
    (hq : F.Answers ended (pre ++ b :: t) q) : F.Answers ended (pre ++ b :: t) (if b = c then p else q) := by
  split
  · rename_i h
    exact h ▸ hp
  · exact hq

end

/-! `ParseInt()`, spec R59. -/

/-- No literal is whole for good before its terminator is seen: a digit more makes another. -/
theorem intFormat_longer (ds : List Digit) : ∃ a tail, intFormat.wf a = true ∧ tail ≠ [] ∧
    intFormat.encode a = ds.map digitByte ++ tail :=
  ⟨⟨ds ++ [0]⟩, [digitByte 0], by simp [intFormat, IntLit.wf], by simp, by simp [intFormat, encodeInt]⟩

theorem endsInt_of_noDigit {ended : Bool} {rest : List Byte} (h : ∀ b t, rest = b :: t → digitOf b = none)
    (hend : rest = [] → ended = true) : endsInt ended rest = true := by
  cases rest with
  | nil => exact hend rfl
  | cons b t => simp [endsInt, h b t rfl]

theorem answers_parseInt (ended : Bool) (bs : List Byte) : intFormat.Answers ended bs (parseInt ended bs) := by
  cases bs with
  | nil => exact answers_needByte_nil (intFormat_longer [])
  | cons b t =>
    by_cases hb : ∃ d, b = digitByte d
    · obtain ⟨d, rfl⟩ := hb
      obtain ⟨hbs, hrest⟩ := takeDigits_spec (digitByte d :: t)
      rw [parseInt_digit]
      exact answers_endLiteral hbs (by simp [intFormat, IntLit.wf, takeDigits]) (endsInt_of_noDigit hrest)
        (intFormat_longer _)
    · rw [parseInt_nonDigit ended (not_exists.1 hb)]
      exact answers_unexpected ⟨[], rfl⟩

/-! `ParseFloat()`, spec R60. -/

theorem digitOf_point : digitOf Ch.point = none := by decide

/-- What a float literal's parser can find (spec R60): nothing, a byte that begins no literal, digits that no point
follows, or a first point, with or without digits before it. -/
inductive FloatInput : List Byte → Prop where
  | empty : FloatInput []
  | otherByte (b : Byte) (t : List Byte) (hb : digitOf b = none) (hp : b ≠ Ch.point) : FloatInput (b :: t)
  | whole (w : List Digit) (rest : List Byte) (hw : w ≠ [])
      (hrest : ∀ b t, rest = b :: t → digitOf b = none ∧ b ≠ Ch.point) : FloatInput (w.map digitByte ++ rest)
  | point (w : List Digit) (t : List Byte) : FloatInput (w.map digitByte ++ Ch.point :: t)

theorem floatInput (bs : List Byte) : FloatInput bs := by
  obtain ⟨hbs, hrest⟩ := takeDigits_spec bs
  generalize (takeDigits bs).1 = w at hbs
  generalize (takeDigits bs).2 = rest at hbs hrest
  subst hbs
  by_cases hpoint : ∃ t, rest = Ch.point :: t
  · obtain ⟨t, rfl⟩ := hpoint
    exact .point w t
  · have hrest' (b : Byte) (t : List Byte) (h : rest = b :: t) : digitOf b = none ∧ b ≠ Ch.point :=
      ⟨hrest b t h, fun hb => hpoint ⟨t, hb ▸ h⟩⟩
    by_cases hw : w = []
    · subst hw
      cases rest with
      | nil => exact .empty
      | cons b t => exact .otherByte b t (hrest' b t rfl).1 (hrest' b t rfl).2
    · exact .whole w rest hw hrest'

theorem parseFloat_otherByte (ended : Bool) {b : Byte} (t : List Byte) (hb : digitOf b = none) (hp : b ≠ Ch.point) :
    parseFloat ended (b :: t) = unexpected .digitOrPoint b t := by
  simp [parseFloat, needByte, hb, hp]

/-- Digits that no point follows are the whole literal. -/
theorem parseFloat_whole (ended : Bool) {w : List Digit} {rest : List Byte} (hw : w ≠ [])
    (hrest : ∀ b t, rest = b :: t → digitOf b = none ∧ b ≠ Ch.point) :
    parseFloat ended (w.map digitByte ++ rest) = endLiteral ended ⟨w, none⟩ rest := by
  obtain ⟨d, w, rfl⟩ := List.exists_cons_of_ne_nil hw
  have hrun := takeDigits_append (d :: w) fun b t h => (hrest b t h).1
  rw [List.map_cons, List.cons_append] at hrun ⊢
  cases rest with
  | nil =>
    rw [List.append_nil] at hrun ⊢
    simp [parseFloat, needByte, hrun]
  | cons b t => simp [parseFloat, needByte, hrun, (hrest b t rfl).2]

/-- After the digits, if any, a first point belongs to the literal, and the digits after it. -/
theorem parseFloat_point (ended : Bool) (w : List Digit) (t : List Byte) :
    parseFloat ended (w.map digitByte ++ Ch.point :: t) =
      endFraction ended w (takeDigits t).1 (takeDigits t).2 := by
  have hrun := takeDigits_append w (rest := Ch.point :: t) (by rintro b t' ⟨rfl, rfl⟩; exact digitOf_point)
  cases w with
  | nil => simp [parseFloat, needByte, takeDigits, digitOf_point]
  | cons d w =>
    rw [List.map_cons, List.cons_append] at hrun ⊢
    simp [parseFloat, needByte, hrun]

theorem endFraction_of_digits (ended : Bool) {w ds : List Digit} (rest : List Byte) (h : w ≠ [] ∨ ds ≠ []) :
    endFraction ended w ds rest = endLiteral ended ⟨w, some ds⟩ rest := by
  rcases h with h | h <;> simp [endFraction, h]

theorem endFraction_none (ended : Bool) (rest : List Byte) :
    endFraction ended [] [] rest = needByte ended .digit rest fun b t => unexpected .digit b t := rfl

theorem floatFormat_wf_iff {w : List Digit} {frac : Option (List Digit)} :
    floatFormat.wf ⟨w, frac⟩ = true ↔ w ≠ [] ∨ ∃ ds, frac = some ds ∧ ds ≠ [] := by
  cases frac <;> simp [floatFormat, FloatLit.wf]

theorem floatFormat_encode_whole (w : List Digit) : floatFormat.encode ⟨w, none⟩ = w.map digitByte := by
  simp [floatFormat, encodeFloat]

theorem floatFormat_encode_point (w ds : List Digit) :
    floatFormat.encode ⟨w, some ds⟩ = w.map digitByte ++ Ch.point :: ds.map digitByte := rfl

theorem floatFormat_whole_longer (w : List Digit) : ∃ a tail, floatFormat.wf a = true ∧ tail ≠ [] ∧
    floatFormat.encode a = w.map digitByte ++ tail :=
  ⟨⟨w ++ [0], none⟩, [digitByte 0], by simp [floatFormat_wf_iff], by simp, by simp [floatFormat_encode_whole]⟩

theorem floatFormat_point_longer (w ds : List Digit) : ∃ a tail, floatFormat.wf a = true ∧ tail ≠ [] ∧
    floatFormat.encode a = w.map digitByte ++ Ch.point :: ds.map digitByte ++ tail :=
  ⟨⟨w, some (ds ++ [0])⟩, [digitByte 0], by simp [floatFormat_wf_iff], by simp, by simp [floatFormat_encode_point]⟩

/-- A float literal is ended by any byte but a digit, and but a first point. -/
theorem endsFloat_of_noDigit {ended : Bool} {l : FloatLit} {rest : List Byte}
    (h : ∀ b t, rest = b :: t → digitOf b = none ∧ (l.frac.isSome = true ∨ b ≠ Ch.point))
    (hend : rest = [] → ended = true) : endsFloat ended l rest = true := by
  cases rest with
  | nil => exact hend rfl
  | cons b t => simpa [endsFloat] using h b t rfl

theorem answers_endFraction (ended : Bool) (w : List Digit) (t : List Byte) :
    floatFormat.Answers ended (w.map digitByte ++ Ch.point :: t)
      (endFraction ended w (takeDigits t).1 (takeDigits t).2) := by
  obtain ⟨ht, hrest⟩ := takeDigits_spec t
  generalize (takeDigits t).1 = ds at ht ⊢
  generalize (takeDigits t).2 = rest at ht hrest ⊢
  subst ht
  by_cases hdigits : w ≠ [] ∨ ds ≠ []
  · rw [endFraction_of_digits ended rest hdigits]
    refine answers_endLiteral (by simp [floatFormat_encode_point]) (by simpa [floatFormat_wf_iff] using hdigits)
      (endsFloat_of_noDigit fun b t h => ⟨hrest b t h, .inl rfl⟩) (floatFormat_point_longer w ds)
  · obtain ⟨rfl, rfl⟩ : w = [] ∧ ds = [] := by simpa using hdigits
    rw [endFraction_none]
    cases rest with
    | nil => exact answers_needByte_nil (floatFormat_point_longer [] [])
    | cons b t' => exact answers_unexpected ⟨[Ch.point], rfl⟩

theorem answers_parseFloat (ended : Bool) (bs : List Byte) :
    floatFormat.Answers ended bs (parseFloat ended bs) := by
  cases floatInput bs with
  | empty => exact answers_needByte_nil (floatFormat_whole_longer [])
  | otherByte b t hb hp =>
    rw [parseFloat_otherByte ended t hb hp]
    exact answers_unexpected ⟨[], rfl⟩
  | whole w rest hw hrest =>
    rw [parseFloat_whole ended hw hrest]
    refine answers_endLiteral (by rw [floatFormat_encode_whole]) (floatFormat_wf_iff.2 (.inl hw))
      (endsFloat_of_noDigit fun b t h => ⟨(hrest b t h).1, .inr (hrest b t h).2⟩) ?_
    rw [floatFormat_encode_whole]
    exact floatFormat_whole_longer w
  | point w t =>
    rw [parseFloat_point]
    exact answers_endFraction ended w t

/-! `Expect(ch)`, spec R61, and the body of a comment, spec R70. -/

theorem expectByte_same (ended : Bool) (ch : Byte) (t : List Byte) : expectByte ended ch (ch :: t) = .ok () t := by
  simp [expectByte, needByte]

theorem expectByte_otherByte (ended : Bool) {ch b : Byte} (t : List Byte) (h : b ≠ ch) :
    expectByte ended ch (b :: t) = unexpected (.char ch) b t := by
  simp [expectByte, needByte, h]

theorem answers_expectByte (ended : Bool) (ch : Byte) (bs : List Byte) :
    (byteFormat ch).Answers ended bs (expectByte ended ch bs) := by
  cases bs with
  | nil => exact answers_needByte_nil ⟨(), [ch], rfl, by simp, rfl⟩
  | cons b t =>
    by_cases h : b = ch
    · subst h
      rw [expectByte_same]
      exact ⟨rfl, rfl, rfl⟩
    · rw [expectByte_otherByte ended t h]
      exact answers_unexpected ⟨[], rfl⟩

theorem commentFormat_cons {b : Byte} (h : b ≠ Ch.lineFeed) (r : List Byte × Bool) :
    commentFormat.encode (b :: r.1, r.2) = b :: commentFormat.encode r ∧
    commentFormat.wf (b :: r.1, r.2) = commentFormat.wf r := by
  simp [commentFormat, Ne.symm h]

theorem answers_parseComment (ended : Bool) (bs : List Byte) :
    commentFormat.Answers ended bs (parseComment ended bs) := by
  induction bs with
  | nil =>
    cases ended with
    | false => exact ⟨rfl, ([], true), [Ch.lineFeed], rfl, by simp, rfl⟩
    | true => exact ⟨rfl, rfl, rfl⟩
  | cons b bs ih =>
    unfold parseComment
    by_cases h : b = Ch.lineFeed
    · subst h
      exact ⟨rfl, rfl, rfl⟩
    · rw [if_neg h]
      refine answers_andThen [b] ih (fun r rest hwf hend => ?_) fun r hwf => ?_
      · obtain ⟨henc, hwf'⟩ := commentFormat_cons h r
        exact ⟨by rw [henc]; rfl, hwf'.trans hwf, hend⟩
      · obtain ⟨henc, hwf'⟩ := commentFormat_cons h r
        exact ⟨_, [], hwf'.trans hwf, by rw [henc]; simp⟩

/-! Items, spec R63 to R65. -/

/-- A parser after which the item is complete: its bytes are `pre` and the literal's. -/
theorem answers_item {α : Type} {F : Format α} {ended : Bool} (pre : List Byte) (c : α → Instr) {bs : List Byte}
    {p : Parse α} (hp : F.Answers ended bs p) (henc : ∀ a, encode (c a) = pre ++ F.encode a)
    (hwf : ∀ a, (c a).wf = F.wf a) (hend : ∀ a rest, (c a).endedBy ended rest = F.endedBy a ended rest) :
    itemFormat.Answers ended (pre ++ bs) (p.andThen fun a rest => .ok (c a) rest) :=
  answers_andThen pre hp
    (fun a rest ha hrest => ⟨congrArg (· ++ rest) (henc a).symm, (hwf a).trans ha, (hend a rest).trans hrest⟩)
    fun a ha => ⟨c a, [], (hwf a).trans ha, by rw [List.append_nil]; exact henc a⟩

/-- An item without a literal is its fixed bytes. -/
theorem answers_fixed {ended : Bool} (i : Instr) (t : List Byte) (hwf : i.wf = true)
    (hend : i.endedBy ended t = true) : itemFormat.Answers ended (encode i ++ t) (.ok i t) :=
  ⟨rfl, hwf, hend⟩

theorem answers_decodeConfig (ended : Bool) (bs : List Byte) :
    itemFormat.Answers ended (Ch.bigC :: bs) (decodeConfig ended bs) := by
  cases bs with
  | nil => exact answers_needByte_nil ⟨.cv ⟨[0]⟩, [Ch.smallV, digitByte 0], rfl, by simp, rfl⟩
  | cons b t =>
    exact answers_ite (pre := [Ch.bigC])
      (answers_item [Ch.bigC, Ch.smallV] .cv (answers_parseInt ended t) (fun _ => rfl) (fun _ => rfl) fun _ _ => rfl)
      (answers_ite (pre := [Ch.bigC])
        (answers_item [Ch.bigC, Ch.smallT] .ct (answers_parseInt ended t) (fun _ => rfl) (fun _ => rfl)
          fun _ _ => rfl)
        (answers_unexpected ⟨[Ch.bigC], rfl⟩))

theorem answers_decodeWave (ended : Bool) (bs : List Byte) :
    itemFormat.Answers ended (Ch.bigW :: bs) (decodeWave ended bs) := by
  cases bs with
  | nil => exact answers_needByte_nil ⟨.wavePulse, [Ch.smallP], rfl, by simp, rfl⟩
  | cons b t =>
    exact answers_ite (pre := [Ch.bigW]) (answers_fixed .wavePulse t rfl rfl)
      (answers_ite (pre := [Ch.bigW]) (answers_fixed .waveSaw t rfl rfl)
        (answers_ite (pre := [Ch.bigW]) (answers_fixed .waveNoise t rfl rfl)
          (answers_unexpected ⟨[Ch.bigW], rfl⟩)))

theorem answers_decodeSlash (ended : Bool) (bs : List Byte) :
    itemFormat.Answers ended (Ch.slash :: bs) (decodeSlash ended bs) := by
  cases bs with
  | nil => exact answers_needByte_nil ⟨.tick, [Ch.slash], rfl, by simp, rfl⟩
  | cons b t =>
    refine answers_ite (pre := [Ch.slash]) (answers_fixed .tick t rfl rfl)
      (answers_ite (pre := [Ch.slash]) (answers_fixed .quit t rfl rfl)
        (answers_ite (pre := [Ch.slash]) (answers_fixed .selAll t rfl rfl) ?_))
    split
    · exact answers_item [Ch.slash] .sel (answers_parseInt ended (b :: t)) (fun _ => rfl) (fun _ => rfl) fun _ _ => rfl
    · exact answers_unexpected ⟨[Ch.slash], rfl⟩

/-- A literal of `A` and the comma after it. -/
def parseFloatComma (ended : Bool) (bs : List Byte) (k : FloatLit → List Byte → Parse Instr) : Parse Instr :=
  (parseFloat ended bs).andThen fun l r => (expectByte ended Ch.comma r).andThen fun _ r' => k l r'

/-- The rest of `A` after its third comma, after its second and after its first (spec R65). -/
def adsrFourth (ended : Bool) (a d s : FloatLit) (bs : List Byte) : Parse Instr :=
  (parseFloat ended bs).andThen fun r rest => .ok (.adsr a d s r) rest

def adsrThird (ended : Bool) (a d : FloatLit) (bs : List Byte) : Parse Instr :=
  parseFloatComma ended bs (adsrFourth ended a d)

def adsrSecond (ended : Bool) (a : FloatLit) (bs : List Byte) : Parse Instr :=
  parseFloatComma ended bs (adsrThird ended a)

/-- The operands of `A`: three literals each with its comma, and a fourth. -/
theorem parseAdsr_eq (ended : Bool) (bs : List Byte) :
    parseAdsr ended bs = parseFloatComma ended bs (adsrSecond ended) := rfl

theorem answers_parseFloatComma {ended : Bool} (pre : List Byte) {bs : List Byte}
    {k : FloatLit → List Byte → Parse Instr}
    (hk : ∀ l rest, l.wf = true → itemFormat.Answers ended (pre ++ encodeFloat l ++ [Ch.comma] ++ rest) (k l rest))
    (hcompletion : ∀ l, l.wf = true → ∃ i suffix, i.wf = true ∧
      encode i = pre ++ encodeFloat l ++ [Ch.comma] ++ suffix) :
    itemFormat.Answers ended (pre ++ bs) (parseFloatComma ended bs k) := by
  refine answers_andThen pre (answers_parseFloat ended bs) (fun l r hl _ => ?_) fun l hl => ?_
  · exact answers_andThen _ (answers_expectByte ended Ch.comma r) (fun _ rest _ _ => hk l rest hl)
      fun _ _ => hcompletion l hl
  · obtain ⟨i, suffix, hi, henc⟩ := hcompletion l hl
    exact ⟨i, [Ch.comma] ++ suffix, hi, by rw [← List.append_assoc]; exact henc⟩

/-- A literal with which the operands of `A` can be completed. -/
def zeroLit : FloatLit := ⟨[0], none⟩

theorem zeroLit_wf : zeroLit.wf = true := rfl

theorem answers_parseAdsr (ended : Bool) (bs : List Byte) :
    itemFormat.Answers ended (Ch.bigA :: bs) (parseAdsr ended bs) := by
  rw [parseAdsr_eq]
  refine answers_parseFloatComma [Ch.bigA] (fun a r1 ha => ?_) fun a ha =>
    ⟨.adsr a zeroLit zeroLit zeroLit,
      encodeFloat zeroLit ++ Ch.comma :: (encodeFloat zeroLit ++ Ch.comma :: encodeFloat zeroLit),
      by simp [Instr.wf, ha, zeroLit_wf], by simp [encode]⟩
  refine answers_parseFloatComma _ (fun d r2 hd => ?_) fun d hd =>
    ⟨.adsr a d zeroLit zeroLit, encodeFloat zeroLit ++ Ch.comma :: encodeFloat zeroLit,
      by simp [Instr.wf, ha, hd, zeroLit_wf], by simp [encode]⟩
  refine answers_parseFloatComma _ (fun s r3 hs => ?_) fun s hs =>
    ⟨.adsr a d s zeroLit, encodeFloat zeroLit, by simp [Instr.wf, ha, hd, hs, zeroLit_wf], by simp [encode]⟩
  exact answers_item _ (.adsr a d s) (answers_parseFloat ended r3) (fun r => by simp [encode, floatFormat])
    (fun r => by simp [Instr.wf, ha, hd, hs, floatFormat]) fun _ _ => rfl

theorem answers_decode (ended : Bool) (bs : List Byte) : itemFormat.Answers ended bs (decode ended bs) := by
  cases bs with
  | nil => exact answers_needByte_nil ⟨.wsTab, [Ch.tab], rfl, by simp, rfl⟩
  | cons b t =>
    refine answers_ite (pre := []) (answers_fixed .wsTab t rfl rfl) ?_
    refine answers_ite (pre := []) (answers_fixed .wsLineFeed t rfl rfl) ?_
    refine answers_ite (pre := []) (answers_fixed .wsVerticalTab t rfl rfl) ?_
    refine answers_ite (pre := []) (answers_fixed .wsFormFeed t rfl rfl) ?_
    refine answers_ite (pre := []) (answers_fixed .wsCarriageReturn t rfl rfl) ?_
    refine answers_ite (pre := []) (answers_fixed .wsSpace t rfl rfl) ?_
    refine answers_ite (pre := []) (answers_item [Ch.hash] (fun r : List Byte × Bool => .comment r.1 r.2)
      (answers_parseComment ended t) (fun _ => rfl) (fun _ => rfl) fun _ _ => rfl) ?_
    refine answers_ite (pre := []) (answers_decodeSlash ended t) ?_
    refine answers_ite (pre := []) (answers_parseAdsr ended t) ?_
    refine answers_ite (pre := []) (answers_decodeConfig ended t) ?_
    refine answers_ite (pre := [])
      (answers_item [Ch.bigN] .note (answers_parseInt ended t) (fun _ => rfl) (fun _ => rfl) fun _ _ => rfl) ?_
    refine answers_ite (pre := [])
      (answers_item [Ch.bigP] .param (answers_parseFloat ended t) (fun _ => rfl) (fun _ => rfl) fun _ _ => rfl) ?_
    refine answers_ite (pre := []) (answers_fixed .release t rfl rfl) ?_
    refine answers_ite (pre := []) (answers_fixed .trigger t rfl rfl) ?_
    refine answers_ite (pre := [])
      (answers_item [Ch.bigV] .vel (answers_parseFloat ended t) (fun _ => rfl) (fun _ => rfl) fun _ _ => rfl) ?_
    exact answers_ite (pre := []) (answers_decodeWave ended t) (answers_unexpected ⟨[], rfl⟩)

/-! Every spelling is read back. -/

theorem andThen_of_ok {α β : Type} {p : Parse α} {k : α → List Byte → Parse β} {a : α} {rest : List Byte}
    (h : p = .ok a rest) : p.andThen k = k a rest := by
  rw [h, Parse.andThen]

theorem parseInt_encodeInt {ended : Bool} {n : IntLit} {rest : List Byte} (hwf : n.wf = true)
    (hend : endsInt ended rest = true) : parseInt ended (encodeInt n ++ rest) = .ok n rest :=
  parseInt_append (by simpa [IntLit.wf] using hwf) hend

theorem endLiteral_of_endsFloat {α : Type} {ended : Bool} (a : α) {l : FloatLit} {rest : List Byte}
    (h : endsFloat ended l rest = true) : endLiteral ended a rest = .ok a rest := by
  refine endLiteral_ok_iff.2 ⟨rfl, rfl, ?_⟩
  rintro rfl
  exact h

theorem parseFloat_encodeFloat {ended : Bool} {l : FloatLit} {rest : List Byte} (hwf : l.wf = true)
    (hend : endsFloat ended l rest = true) : parseFloat ended (encodeFloat l ++ rest) = .ok l rest := by
  have hdigits := floatFormat_wf_iff.1 hwf
  obtain ⟨w, frac⟩ := l
  have hrest (b : Byte) (t : List Byte) (h : rest = b :: t) :
      digitOf b = none ∧ (frac.isSome = true ∨ b ≠ Ch.point) := by
    subst h
    simpa [endsFloat] using hend
  cases frac with
  | none =>
    have hw : w ≠ [] := by simpa using hdigits
    rw [encodeFloat, List.append_nil,
      parseFloat_whole ended hw fun b t h => ⟨(hrest b t h).1, (hrest b t h).2.resolve_left (by simp)⟩]
    exact endLiteral_of_endsFloat _ hend
  | some ds =>
    rw [encodeFloat, List.append_assoc, List.cons_append, parseFloat_point,
      takeDigits_append ds fun b t h => (hrest b t h).1,
      endFraction_of_digits ended rest (by simpa using hdigits)]
    exact endLiteral_of_endsFloat _ hend

/-- A comma ends any literal. -/
theorem endsFloat_comma (ended : Bool) (l : FloatLit) (t : List Byte) :
    endsFloat ended l (Ch.comma :: t) = true :=
  endsFloat_of_noDigit (by rintro b t ⟨rfl, rfl⟩; exact ⟨by decide, .inr (by decide)⟩) (by simp)

theorem parseFloatComma_encodeFloat {ended : Bool} {l : FloatLit} {t : List Byte}
    {k : FloatLit → List Byte → Parse Instr} (hwf : l.wf = true) :
    parseFloatComma ended (encodeFloat l ++ Ch.comma :: t) k = k l t := by
  rw [parseFloatComma, parseFloat_encodeFloat hwf (endsFloat_comma ended l t), Parse.andThen, expectByte_same,
    Parse.andThen]

theorem parseAdsr_encode {ended : Bool} {a d s r : FloatLit} {rest : List Byte} (ha : a.wf = true) (hd : d.wf = true)
    (hs : s.wf = true) (hr : r.wf = true) (hend : endsFloat ended r rest = true) :
    parseAdsr ended (encodeFloat a ++ Ch.comma :: (encodeFloat d ++ Ch.comma :: (encodeFloat s ++ Ch.comma ::
      (encodeFloat r ++ rest)))) = .ok (.adsr a d s r) rest := by
  rw [parseAdsr_eq, parseFloatComma_encodeFloat ha, adsrSecond, parseFloatComma_encodeFloat hd, adsrThird,
    parseFloatComma_encodeFloat hs, adsrFourth, parseFloat_encodeFloat hr hend, Parse.andThen]

theorem parseComment_encode {ended : Bool} {body : List Byte} {closed : Bool} {rest : List Byte}
    (hwf : body.contains Ch.lineFeed = false) (hend : closed = true ∨ rest = [] ∧ ended = true) :
    parseComment ended (commentFormat.encode (body, closed) ++ rest) = .ok (body, closed) rest := by
  induction body with
  | nil =>
    rcases hend with rfl | ⟨rfl, rfl⟩
    · simp [commentFormat, parseComment]
    · cases closed <;> simp [commentFormat, parseComment]
  | cons b body ih =>
    simp only [List.contains_cons, Bool.or_eq_false_iff, beq_eq_false_iff_ne] at hwf
    have hb : b ≠ Ch.lineFeed := Ne.symm hwf.1
    rw [(commentFormat_cons hb (body, closed)).1, List.cons_append, parseComment, if_neg hb, ih hwf.2, Parse.andThen]

/-! The statements. -/

/-- Settles O1: one case per item; an item with literals is read by its literals' parsers. -/
theorem decodeOfEncodeGivesItemBack : Obligations.DecodeOfEncodeGivesItemBack := by
  unfold Obligations.DecodeOfEncodeGivesItemBack
  intro i ended rest hwf hend
  cases i with
  | cv n => exact andThen_of_ok (parseInt_encodeInt hwf hend)
  | ct n => exact andThen_of_ok (parseInt_encodeInt hwf hend)
  | note n => exact andThen_of_ok (parseInt_encodeInt hwf hend)
  | param f => exact andThen_of_ok (parseFloat_encodeFloat hwf hend)
  | vel f => exact andThen_of_ok (parseFloat_encodeFloat hwf hend)
  | sel n =>
    have hread := parseInt_encodeInt hwf hend
    obtain ⟨ds⟩ := n
    obtain ⟨d, ds, rfl⟩ := List.exists_cons_of_ne_nil (show ds ≠ [] by simpa [Instr.wf, IntLit.wf] using hwf)
    exact (decodeSlash_digit ended d _).trans (andThen_of_ok hread)
  | adsr a d s r =>
    obtain ⟨⟨⟨ha, hd⟩, hs⟩, hr⟩ : ((a.wf = true ∧ d.wf = true) ∧ s.wf = true) ∧ r.wf = true := by
      simpa [Instr.wf] using hwf
    simp only [encode, List.cons_append, List.append_assoc]
    exact parseAdsr_encode ha hd hs hr hend
  | comment body closed =>
    exact andThen_of_ok (parseComment_encode (by simpa [Instr.wf] using hwf) (by simpa [Instr.endedBy] using hend))
  | tick | quit | selAll | wavePulse | waveSaw | waveNoise | trigger | release | wsTab | wsLineFeed | wsVerticalTab
    | wsFormFeed | wsCarriageReturn | wsSpace => rfl

/-- Settles O2: it is what the decoder answers where it answers an item. -/
theorem decodedBytesAreTheItemsSpelling : Obligations.DecodedBytesAreTheItemsSpelling := by
  unfold Obligations.DecodedBytesAreTheItemsSpelling
  intro ended bs i rest h
  have hanswers := answers_decode ended bs
  rw [h] at hanswers
  exact hanswers

/-- Settles O3: the words are evaluated. -/
theorem spelledWordsDecode : Obligations.SpelledWordsDecode := by
  unfold Obligations.SpelledWordsDecode
  decide

end Sys2Proof.Proofs
end

section
/-! SUPPORT. What the decoder answers before end of input it answers whatever follows, so it waits exactly on the proper
beginnings of spellings (spec R61, R67, R180); the step on an item, on a spelling fault and on a wait (spec R116).
Settles O12, O11, O9, O8, O10 and O13. -/

namespace Sys2Proof.Proofs

open Sys2Proof.Machine Sys2Proof.Laws

/-! Answers that more bytes do not change. -/

/-- The answer with `tail` after the bytes it leaves. -/
def extendRest {α : Type} (tail : List Byte) : Parse α → Parse α
  | .ok a rest => .ok a (rest ++ tail)
  | .fatal f rest => .fatal f (rest ++ tail)
  | .wait => .wait

/-- `later` is what `now` answers with `tail` after it, if it answers at all. -/
def Continues {α : Type} (tail : List Byte) (now later : Parse α) : Prop := now = .wait ∨ later = extendRest tail now

/-- An answer given before end of input is the answer on any continuation, ended or not. -/
def Stable {α : Type} (p : Bool → List Byte → Parse α) : Prop :=
  ∀ bs tail ended, Continues tail (p false bs) (p ended (bs ++ tail))

section
variable {α β : Type}

theorem continues_ok (a : α) (t tail : List Byte) : Continues tail (.ok a t) (.ok a (t ++ tail)) := .inr rfl

theorem continues_unexpected (exp : Expected) (b : Byte) (t tail : List Byte) :
    Continues (α := α) tail (unexpected exp b t) (unexpected exp b (t ++ tail)) := .inr rfl

/-- A test that does not depend on what follows. -/
theorem continues_ite {c : Prop} [Decidable c] {tail : List Byte} {p p' q q' : Parse α} (hp : Continues tail p p')
    (hq : Continues tail q q') : Continues tail (if c then p else q) (if c then p' else q') := by
  split
  · exact hp
  · exact hq

theorem stable_endLiteral (a : α) : Stable fun ended rest => endLiteral ended a rest := by
  intro bs tail ended
  cases bs with
  | nil => exact .inl rfl
  | cons b t => exact .inr rfl

theorem stable_andThen {p : Bool → List Byte → Parse α} {k : Bool → α → List Byte → Parse β} (hp : Stable p)
    (hk : ∀ a, Stable fun ended rest => k ended a rest) :
    Stable fun ended bs => (p ended bs).andThen (k ended) := by
  intro bs tail ended
  rcases hp bs tail ended with hwait | hsame
  · exact .inl (by simp only [hwait, Parse.andThen])
  · simp only [hsame]
    cases p false bs with
    | ok a rest => exact hk a rest tail ended
    | fatal f rest => exact .inr rfl
    | wait => exact .inl rfl

end

/-! The parsers are stable. -/

theorem takeDigits_append_tail {bs tail t : List Byte} {b : Byte} (h : (takeDigits bs).2 = b :: t) :
    takeDigits (bs ++ tail) = ((takeDigits bs).1, b :: t ++ tail) := by
  obtain ⟨hbs, hrest⟩ := takeDigits_spec bs
  rw [h] at hbs hrest
  conv_lhs => rw [hbs, List.append_assoc]
  exact takeDigits_append _ (by rintro c t' ⟨rfl, rfl⟩; exact hrest b t rfl)

/-- A parser that goes on after a run of digits, and waits where nothing follows the run. -/
theorem stable_takeDigits {α : Type} {k : List Digit → Bool → List Byte → Parse α} (hk : ∀ ds, Stable (k ds))
    (hnil : ∀ ds, k ds false [] = .wait) : Stable fun ended bs => k (takeDigits bs).1 ended (takeDigits bs).2 := by
  intro bs tail ended
  cases hrest : (takeDigits bs).2 with
  | nil => exact .inl (by simpa only [hrest] using hnil _)
  | cons b t =>
    simp only [takeDigits_append_tail hrest, hrest]
    exact hk _ (b :: t) tail ended

theorem stable_parseInt : Stable parseInt := by
  intro bs tail ended
  cases bs with
  | nil => exact .inl rfl
  | cons b t =>
    by_cases hb : ∃ d, b = digitByte d
    · obtain ⟨d, rfl⟩ := hb
      rw [List.cons_append, parseInt_digit, parseInt_digit]
      exact stable_takeDigits (k := fun ds ended => endLiteral ended (IntLit.mk ds))
        (fun ds => stable_endLiteral (IntLit.mk ds)) (fun _ => rfl) (digitByte d :: t) tail ended
    · rw [List.cons_append, parseInt_nonDigit _ (not_exists.1 hb), parseInt_nonDigit _ (not_exists.1 hb)]
      exact .inr rfl

theorem endFraction_nil_waits (w ds : List Digit) : endFraction false w ds [] = .wait := ite_self _

theorem stable_endFraction (w ds : List Digit) : Stable fun ended rest => endFraction ended w ds rest := by
  intro bs tail ended
  cases bs with
  | nil => exact .inl (endFraction_nil_waits w ds)
  | cons b t => exact continues_ite (continues_unexpected _ b t tail) (continues_ok _ (b :: t) tail)

theorem stable_parseFloat : Stable parseFloat := by
  intro bs tail ended
  cases floatInput bs with
  | empty => exact .inl rfl
  | otherByte b t hb hp =>
    rw [List.cons_append, parseFloat_otherByte _ _ hb hp, parseFloat_otherByte _ _ hb hp]
    exact .inr rfl
  | whole w rest hw hrest =>
    cases rest with
    | nil => exact .inl (parseFloat_whole false hw hrest)
    | cons b t =>
      have hb := hrest b t rfl
      rw [List.append_assoc, parseFloat_whole false hw hrest,
        parseFloat_whole ended hw (by rintro c t' ⟨rfl, rfl⟩; exact hb)]
      exact stable_endLiteral _ (b :: t) tail ended
  | point w t =>
    rw [List.append_assoc, List.cons_append, parseFloat_point, parseFloat_point]
    exact stable_takeDigits (stable_endFraction w) (endFraction_nil_waits w) t tail ended

theorem stable_expectByte (ch : Byte) : Stable fun ended => expectByte ended ch := by
  intro bs tail ended
  cases bs with
  | nil => exact .inl rfl
  | cons b t => exact continues_ite (continues_ok () t tail) (continues_unexpected _ b t tail)

theorem stable_parseComment : Stable parseComment := by
  intro bs tail ended
  induction bs with
  | nil => exact .inl rfl
  | cons b bs ih =>
    simp only [List.cons_append, parseComment]
    by_cases hb : b = Ch.lineFeed
    · exact .inr (by simp only [if_pos hb, extendRest])
    · simp only [if_neg hb]
      rcases ih with hwait | hsame
      · exact .inl (by simp only [hwait, Parse.andThen])
      · rw [hsame]
        cases parseComment false bs with
        | ok r rest => exact .inr rfl
        | fatal f rest => exact .inr rfl
        | wait => exact .inl rfl

theorem stable_parseFloatComma {k : Bool → FloatLit → List Byte → Parse Instr}
    (hk : ∀ l, Stable fun ended => k ended l) : Stable fun ended bs => parseFloatComma ended bs (k ended) :=
  stable_andThen stable_parseFloat fun l => stable_andThen (stable_expectByte _) fun _ => hk l

/-- A literal and nothing more. -/
theorem stable_item {α : Type} {p : Bool → List Byte → Parse α} (hp : Stable p) (c : α → Instr) :
    Stable fun ended bs => (p ended bs).andThen fun a rest => .ok (c a) rest :=
  stable_andThen (k := fun _ a rest => .ok (c a) rest) hp fun a rest tail _ => continues_ok (c a) rest tail

theorem stable_parseAdsr : Stable parseAdsr :=
  stable_parseFloatComma (k := adsrSecond) fun a =>
  stable_parseFloatComma (k := fun ended => adsrThird ended a) fun d =>
  stable_parseFloatComma (k := fun ended => adsrFourth ended a d) fun s =>
  stable_item stable_parseFloat (.adsr a d s)

theorem stable_decodeConfig : Stable decodeConfig := by
  intro bs tail ended
  cases bs with
  | nil => exact .inl rfl
  | cons b t =>
    refine continues_ite (stable_item stable_parseInt .cv t tail ended) ?_
    exact continues_ite (stable_item stable_parseInt .ct t tail ended) (continues_unexpected _ b t tail)

theorem stable_decodeSlash : Stable decodeSlash := by
  intro bs tail ended
  cases bs with
  | nil => exact .inl rfl
  | cons b t =>
    refine continues_ite (continues_ok _ t tail) <| continues_ite (continues_ok _ t tail) <|
      continues_ite (continues_ok _ t tail) ?_
    exact continues_ite (stable_item stable_parseInt .sel (b :: t) tail ended) (continues_unexpected _ b t tail)

theorem stable_decodeWave : Stable decodeWave := by
  intro bs tail ended
  cases bs with
  | nil => exact .inl rfl
  | cons b t =>
    exact continues_ite (continues_ok _ t tail) <| continues_ite (continues_ok _ t tail) <|
      continues_ite (continues_ok _ t tail) (continues_unexpected _ b t tail)

theorem stable_decode : Stable decode := by
  intro bs tail ended
  cases bs with
  | nil => exact .inl rfl
  | cons b t =>
    refine continues_ite (continues_ok _ t tail) <| continues_ite (continues_ok _ t tail) <|
      continues_ite (continues_ok _ t tail) <| continues_ite (continues_ok _ t tail) <|
      continues_ite (continues_ok _ t tail) <| continues_ite (continues_ok _ t tail) ?_
    refine continues_ite
      (stable_item stable_parseComment (fun r : List Byte × Bool => .comment r.1 r.2) t tail ended) ?_
    refine continues_ite (stable_decodeSlash t tail ended) ?_
    refine continues_ite (stable_parseAdsr t tail ended) ?_
    refine continues_ite (stable_decodeConfig t tail ended) ?_
    refine continues_ite (stable_item stable_parseInt .note t tail ended) ?_
    refine continues_ite (stable_item stable_parseFloat .param t tail ended) ?_
    refine continues_ite (continues_ok _ t tail) <| continues_ite (continues_ok _ t tail) ?_
    refine continues_ite (stable_item stable_parseFloat .vel t tail ended) ?_
    exact continues_ite (stable_decodeWave t tail ended) (continues_unexpected _ b t tail)

/-! When the decoder waits. -/

theorem endedBy_endOfInput (i : Instr) : i.endedBy true [] = true := by
  cases i <;> simp [Instr.endedBy, endsInt, endsFloat]

theorem decode_ended_ne_wait (bs : List Byte) : decode true bs ≠ .wait := by
  intro h
  have hanswers := answers_decode true bs
  rw [h] at hanswers
  exact Bool.noConfusion hanswers.1

/-- Before end of input a spelling is read as the item, or not answered yet. -/
theorem decode_encode_before_end {i : Instr} (hwf : i.wf = true) {bs tail : List Byte} (h : encode i = bs ++ tail) :
    decode false bs = .wait ∨ decode false bs = .ok i [] ∧ tail = [] := by
  have hitem := decodeOfEncodeGivesItemBack i true [] hwf (endedBy_endOfInput i)
  rw [List.append_nil, h] at hitem
  refine (stable_decode bs tail true).imp_right fun hsame => ?_
  rw [hitem] at hsame
  cases hd : decode false bs with
  | ok j rest => simpa [hd, extendRest, eq_comm, and_assoc] using hsame
  | fatal f rest => simp [hd, extendRest] at hsame
  | wait => simp [hd, extendRest] at hsame

theorem decode_eq_wait_iff (bs : List Byte) :
    decode false bs = .wait ↔ ∃ (i : Instr) (tail : List Byte), i.wf = true ∧ tail ≠ [] ∧ encode i = bs ++ tail := by
  constructor
  · intro h
    have hanswers := answers_decode false bs
    rw [h] at hanswers
    exact hanswers.2
  · rintro ⟨i, tail, hwf, htail, henc⟩
    exact (decode_encode_before_end hwf henc).resolve_right fun h => htail h.2

/-- An item whole but for what ends it is not answered yet. -/
theorem decode_encode_not_ended {i : Instr} (hwf : i.wf = true) (hend : i.endedBy false [] = false) :
    decode false (encode i) = .wait := by
  refine (decode_encode_before_end hwf (List.append_nil _).symm).resolve_right fun h => ?_
  obtain ⟨-, -, hended⟩ := decodedBytesAreTheItemsSpelling _ _ _ _ h.1
  simp [hend] at hended

/-! The step, by mode and by what the decoder answers. -/

theorem step_of_parse {s : State} (h : s.seq.mode = .parse) : step s = withinCounters (cmdStep s) := by
  simp only [step, h]

theorem step_of_emit {s : State} (h : s.seq.mode = .emit) : step s = withinCounters (emitStep s) := by
  simp only [step, h]

theorem step_of_stopped {s : State} (h : s.seq.mode = .stopped) : step s = .fault .stopped := by
  simp only [step, h]

theorem cmdStep_of_wait {s : State} (h : decode s.cmdEnded (fetch s) = .wait) : cmdStep s = .next s := by
  simp only [cmdStep, h]

theorem cmdStep_of_fatal {s : State} {f : Spelling} {rest : List Byte}
    (h : decode s.cmdEnded (fetch s) = .fatal f rest) :
    cmdStep s = .next (raiseSpellingFault f (consumeTo rest s)) := by
  simp only [cmdStep, h]

theorem cmdStep_of_ok {s : State} {i : Instr} {rest : List Byte} (h : decode s.cmdEnded (fetch s) = .ok i rest)
    (hi : aboveIntMax s.cfg i = false) : cmdStep s = exec i (consumeTo rest s) := by
  simp [cmdStep, h, hi]

theorem emitStep_of_ready {s : State} (h : s.smpReady = true) : emitStep s = .next (emitSample s) := if_pos h

theorem emitStep_of_not_ready {s : State} (h : s.smpReady = false) : emitStep s = .next s := if_neg (by simp [h])

theorem aboveIntMax_of_none {c : Config} (h : c.intMax = none) (i : Instr) : aboveIntMax c i = false := by
  simp [aboveIntMax, h]

theorem withinCounters_of_none {t : State} (h : t.cfg.counterBits = none) : withinCounters (.next t) = .next t := by
  simp [withinCounters, countersFit_unlimited h]

/-- What no item writes: the interfaces, the free values, the sample counter, and the cursor, which the item's bytes
have moved already. -/
theorem execShape_frame {i : Instr} {s t : State} (h : ExecShape i s t) :
    t.cfg = s.cfg ∧ t.mem = s.mem ∧ t.cmdEnded = s.cmdEnded ∧ t.smpReady = s.smpReady ∧ t.smp = s.smp ∧
    t.draws = s.draws ∧ t.seq.samplesDone = s.seq.samplesDone ∧ t.seq.pos = s.seq.pos ∧ t.seq.line = s.seq.line ∧
    t.seq.col = s.seq.col := by
  cases h <;> exact ⟨rfl, rfl, rfl, rfl, rfl, rfl, rfl, rfl, rfl, rfl⟩

theorem exec_within_counters (i : Instr) {s : State} (h : s.cfg.counterBits = none) :
    withinCounters (exec i s) = exec i s := by
  obtain ⟨t, hexec, hshape⟩ := exec_shape i s
  obtain ⟨hcfg, -⟩ := execShape_frame hshape
  rw [hexec, withinCounters_of_none (by rw [hcfg, h])]

/-! The statements. -/

/-- Settles O12: a wait and a host that is not ready are the two holds; the decoder waits by `decode_eq_wait_iff`. -/
theorem coreHoldsWhileHostIsNotReady : Obligations.CoreHoldsWhileHostIsNotReady := by
  unfold Obligations.CoreHoldsWhileHostIsNotReady
  refine ⟨fun s => ⟨fun hm hd => ?input, fun hm hr => ?host⟩, decode_ended_ne_wait, decode_eq_wait_iff,
    fun i => decode_encode_not_ended⟩
  case input => rw [step_of_parse hm, cmdStep_of_wait hd]
  case host => rw [step_of_emit hm, emitStep_of_not_ready hr]

/-- Settles O11: the decoder's fault leaves the bytes from the offending one on; fault entry writes the rest. -/
theorem misspelledItemEntersFault : Obligations.MisspelledItemEntersFault := by
  unfold Obligations.MisspelledItemEntersFault
  intro s f rest hm hd
  have hanswers := answers_decode s.cmdEnded (fetch s)
  rw [hd] at hanswers
  obtain ⟨⟨pre, hpre⟩, -, hat⟩ := hanswers
  refine ⟨pre, raiseSpellingFault f (consume pre s), hpre, hat, ?_, raiseFatal_faultEntered _ _ _ _ _,
    consume_seq_pos pre s, rfl, consume_seq_sel pre s, consume_seq_samplesPerTick pre s,
    consume_seq_samplesDone pre s, consume_seq_shouldStop pre s, rfl, step_of_faulted rfl⟩
  rw [step_of_parse hm, cmdStep_of_fatal hd, consumeTo_of_fetch hpre]

/-- Settles O8: the command step's branch for an item that is within a set INT_MAX. -/
theorem stepRunsDecodedItem : Obligations.StepRunsDecodedItem := by
  unfold Obligations.StepRunsDecodedItem
  intro s i rest hm hd hi
  rw [step_of_parse hm, cmdStep_of_ok hd hi]

/-- Settles O9: the spelling decodes to the item (O1), and with no limit set nothing refuses the step (O8). -/
theorem stepRunsSpelledItem : Obligations.StepRunsSpelledItem := by
  unfold Obligations.StepRunsSpelledItem
  intro s i rest hm hfetch hwf hend hint hbits
  have hd := decodeOfEncodeGivesItemBack i s.cmdEnded rest hwf hend
  rw [← hfetch] at hd
  rw [stepRunsDecodedItem s i rest hm hd (aboveIntMax_of_none hint i), consumeTo_of_fetch hfetch]
  exact exec_within_counters i hbits

/-- Settles O10: `CmdTake()` is the cursor's advance over the byte it finds. -/
theorem cursorFollowsTheBytes : Obligations.CursorFollowsTheBytes := by
  unfold Obligations.CursorFollowsTheBytes
  intro s b hb
  have htake : cmdTake s = { s with seq := s.seq.advance b } := by simp only [cmdTake, hb]
  refine ⟨fun hlf => ?lineFeed, fun hlf => ?otherByte, fun bs => ?more, rfl, fun hm => ?fetched⟩
  case lineFeed => rw [htake, SeqRegs.advance, if_pos hlf]
  case otherByte => rw [htake, SeqRegs.advance, if_neg hlf]
  case more => rw [htake]; rfl
  case fetched => rw [htake, fetch, bytesFrom_eq hm, hb, fetch, advance_pos]

/-- Settles O13: in the two terminal modes the step answers a fault. -/
theorem terminalModesHaveNoStep : Obligations.TerminalModesHaveNoStep := by
  unfold Obligations.TerminalModesHaveNoStep
  intro s
  refine ⟨step_of_stopped, step_of_faulted, ?noNext⟩
  case noNext =>
    rintro (h | h) t
    · simp [step_of_stopped h]
    · simp [step_of_faulted h]

end Sys2Proof.Proofs
end

section
/-! SUPPORT. The value of a float literal (spec R60) and the faults among the literals and commas of `A` (R61, R65).
Settles O7. -/

namespace Sys2Proof.Proofs

open Sys2Proof.Machine Sys2Proof.Laws

/-! The value of a float literal, spec R60. -/

theorem floatValue_whole (w : List Digit) : (FloatLit.mk w none).value = ((IntLit.mk w).value : Quantity) :=
  add_zero _

theorem floatValue_emptyFraction (w : List Digit) :
    (FloatLit.mk w (some [])).value = ((IntLit.mk w).value : Quantity) :=
  add_zero _

theorem floatValue_append (w ds : List Digit) (d : Digit) : (FloatLit.mk w (some (ds ++ [d]))).value =
    (FloatLit.mk w (some ds)).value + (d.val : Quantity) / 10 ^ (ds.length + 1) := by
  simp only [FloatLit.value, fractionValue_append]
  ring

/-! The bytes a literal cannot begin with. -/

theorem parseFloat_nonDigit (ended : Bool) {b : Byte} (t : List Byte) (hb : ∀ d, b ≠ digitByte d) (hp : b ≠ 0x2E#8) :
    parseFloat ended (b :: t) = unexpected .digitOrPoint b t :=
  parseFloat_otherByte ended t (digitOf_eq_none hb) hp

theorem parseFloat_pointAlone (ended : Bool) {b : Byte} (t : List Byte) (hb : ∀ d, b ≠ digitByte d) :
    parseFloat ended (0x2E#8 :: b :: t) = unexpected .digit b t := by
  have h := parseFloat_point ended [] (b :: t)
  rwa [takeDigits, digitOf_eq_none hb] at h

/-! A literal of `A` and its comma, spec R65. -/

section
variable {ended : Bool} {l : FloatLit} {k : FloatLit → List Byte → Parse Instr}

theorem parseFloatComma_otherByte {b : Byte} {t : List Byte} (hwf : l.wf = true)
    (hend : endsFloat ended l (b :: t) = true) (hb : b ≠ Ch.comma) :
    parseFloatComma ended (encodeFloat l ++ b :: t) k = unexpected (.char Ch.comma) b t := by
  rw [parseFloatComma, andThen_of_ok (parseFloat_encodeFloat hwf hend), expectByte_otherByte ended t hb]
  rfl

theorem parseFloatComma_endOfInput (hwf : l.wf = true) :
    parseFloatComma true (encodeFloat l) k = .fatal ⟨.eEof, .eof, .char Ch.comma⟩ [] := by
  have hread := parseFloat_encodeFloat (ended := true) (rest := []) hwf rfl
  rw [List.append_nil] at hread
  rw [parseFloatComma, andThen_of_ok hread]
  rfl

end

theorem decode_adsr (ended : Bool) (t : List Byte) : decode ended (0x41#8 :: t) = parseAdsr ended t := rfl

/-- The bytes up to the end of the first, second or third literal of `A`, and that literal. -/
inductive AdsrUpTo : List Byte → FloatLit → Prop where
  | first {l : FloatLit} (hl : l.wf = true) : AdsrUpTo (encodeFloat l) l
  | second {l m : FloatLit} (hl : l.wf = true) (hm : m.wf = true) :
    AdsrUpTo (encodeFloat l ++ Ch.comma :: encodeFloat m) m
  | third {l m n : FloatLit} (hl : l.wf = true) (hm : m.wf = true) (hn : n.wf = true) :
    AdsrUpTo (encodeFloat l ++ Ch.comma :: (encodeFloat m ++ Ch.comma :: encodeFloat n)) n

theorem adsrUpTo_wf {bs : List Byte} {l : FloatLit} (h : AdsrUpTo bs l) : l.wf = true := by
  cases h <;> assumption

/-- After these bytes the parser of `A` stands at the literal's end, whatever follows: it is at a literal with its
comma, and behind the comma at another literal. -/
theorem parseAdsr_at_literal {bs : List Byte} {l : FloatLit} (h : AdsrUpTo bs l) (ended : Bool) :
    ∃ k, (∀ t, parseAdsr ended (bs ++ t) = parseFloatComma ended (encodeFloat l ++ t) k) ∧
      ∀ t, ∃ k', k l t = (parseFloat ended t).andThen k' := by
  cases h with
  | first hl => exact ⟨adsrSecond ended, fun t => parseAdsr_eq ended _, fun t => ⟨_, rfl⟩⟩
  | @second a _ hl hm =>
    refine ⟨adsrThird ended a, fun t => ?_, fun t => ⟨_, rfl⟩⟩
    rw [List.append_assoc, List.cons_append, parseAdsr_eq, parseFloatComma_encodeFloat hl, adsrSecond]
  | @third a d _ hl hm hn =>
    refine ⟨adsrFourth ended a d, fun t => ?_, fun t => ⟨_, rfl⟩⟩
    rw [List.append_assoc, List.cons_append, List.append_assoc, List.cons_append, parseAdsr_eq,
      parseFloatComma_encodeFloat hl, adsrSecond, parseFloatComma_encodeFloat hm, adsrThird]

section
variable {bs : List Byte} {l : FloatLit}

theorem decode_adsr_otherByte (h : AdsrUpTo bs l) (ended : Bool) {b : Byte} {t : List Byte}
    (hend : endsFloat ended l (b :: t) = true) (hb : b ≠ Ch.comma) :
    decode ended (0x41#8 :: (bs ++ b :: t)) = unexpected (.char Ch.comma) b t := by
  obtain ⟨k, hk, -⟩ := parseAdsr_at_literal h ended
  rw [decode_adsr, hk, parseFloatComma_otherByte (adsrUpTo_wf h) hend hb]

theorem decode_adsr_endOfInput (h : AdsrUpTo bs l) :
    decode true (0x41#8 :: bs) = .fatal ⟨.eEof, .eof, .char Ch.comma⟩ [] := by
  obtain ⟨k, hk, -⟩ := parseAdsr_at_literal h true
  have hbs := hk []
  rw [List.append_nil, List.append_nil] at hbs
  rw [decode_adsr, hbs, parseFloatComma_endOfInput (adsrUpTo_wf h)]

/-- Behind the comma stands whatever the literal's parser answers on what follows. -/
theorem decode_adsr_comma (h : AdsrUpTo bs l) (ended : Bool) (t : List Byte) :
    ∃ k, decode ended (0x41#8 :: (bs ++ Ch.comma :: t)) = (parseFloat ended t).andThen k := by
  obtain ⟨k, hk, hnext⟩ := parseAdsr_at_literal h ended
  rw [decode_adsr, hk, parseFloatComma_encodeFloat (adsrUpTo_wf h)]
  exact hnext t

theorem decode_adsr_comma_nonDigit (h : AdsrUpTo bs l) (ended : Bool) {b : Byte} (t : List Byte)
    (hb : ∀ d, b ≠ digitByte d) (hp : b ≠ 0x2E#8) :
    decode ended (0x41#8 :: (bs ++ Ch.comma :: b :: t)) = unexpected .digitOrPoint b t := by
  obtain ⟨k, hk⟩ := decode_adsr_comma h ended (b :: t)
  rw [hk, parseFloat_nonDigit ended t hb hp]
  rfl

theorem decode_adsr_comma_endOfInput (h : AdsrUpTo bs l) :
    decode true (0x41#8 :: (bs ++ [Ch.comma])) = .fatal ⟨.eEof, .eof, .digitOrPoint⟩ [] := by
  obtain ⟨k, hk⟩ := decode_adsr_comma h true []
  rw [hk]
  rfl

end

/-! The statement. -/

/-- Settles O7: the literal by its parser's equations, its value digit by digit, and the commas of `A` at each of the
three literals alike. -/
theorem floatLiteralIsGreedyAndExact : Obligations.FloatLiteralIsGreedyAndExact := by
  unfold Obligations.FloatLiteralIsGreedyAndExact
  refine ⟨rfl, fun ended b t => parseFloat_nonDigit ended t, fun ended l rest => parseFloat_encodeFloat, rfl,
    fun ended b t => parseFloat_pointAlone ended t, fun w => ⟨floatValue_whole w, floatValue_emptyFraction w⟩,
    floatValue_append, fun ended ch t => ⟨expectByte_same ended ch t, rfl, fun b => expectByte_otherByte ended t⟩,
    fun ended l₁ l₂ l₃ h₁ h₂ h₃ p hp => ?adsr⟩
  case adsr =>
    have hupTo : AdsrUpTo p.1 p.2 := by
      simp only [List.mem_cons, List.not_mem_nil, or_false] at hp
      obtain rfl | rfl | rfl := hp
      · exact .first h₁
      · exact .second h₁ h₂
      · exact .third h₁ h₂ h₃
    exact ⟨decode_adsr_endOfInput hupTo, fun b t => decode_adsr_otherByte hupTo ended,
      decode_adsr_comma_endOfInput hupTo, fun b t => decode_adsr_comma_nonDigit hupTo ended t⟩

end Sys2Proof.Proofs
end

section
/-! SUPPORT. The machine's invariant over every step: bytes consumed, fault entry, each effect of an item, the sample
(spec/10_state.md); its start at reset and what the host may do. Settles O49, O50, O51 and O52. -/

namespace Sys2Proof.Proofs

open Sys2Proof.Machine Sys2Proof.Laws

/-! What the decoder leaves is behind the bytes consumed. -/

theorem fetch_of_ok {s : State} {i : Instr} {rest : List Byte} (h : decode s.cmdEnded (fetch s) = .ok i rest) :
    fetch s = encode i ++ rest :=
  (decodedBytesAreTheItemsSpelling _ _ _ _ h).1

theorem fetch_of_fatal {s : State} {f : Spelling} {rest : List Byte}
    (h : decode s.cmdEnded (fetch s) = .fatal f rest) :
    (∃ pre, fetch s = pre ++ rest) ∧ f.exp ≠ .nothing ∧ FaultAt s.cmdEnded f rest := by
  have hanswers := answers_decode s.cmdEnded (fetch s)
  rwa [h] at hanswers

/-! Mode, fault and output ports, by the mode. -/

/-- Before anything ends the run: no fault, one pair a sample counted, none of them the last. -/
def Running (s : State) : Prop :=
  s.fault = none ∧ s.flt = [] ∧ s.smp.length = s.seq.samplesDone ∧ ∀ p ∈ s.smp, p.shouldStop = false

theorem portsOk_parse_iff {s : State} (hm : s.seq.mode = .parse) :
    s.PortsOk ↔ Running s ∧ s.seq.shouldStop = false := by
  constructor
  · rintro ⟨hfault, hflt, hlen, hstop, -, hsmp, -⟩
    have hnone : s.fault = none := by simpa [hm] using hfault
    exact ⟨⟨hnone, by rw [hflt, hnone]; rfl, hlen, fun p hp => by simpa [hm] using hsmp p hp⟩,
      by simpa [hm] using hstop⟩
  · rintro ⟨⟨hnone, hflt, hlen, hsmp⟩, hstop⟩
    exact ⟨by simp [hnone, hm], by rw [hflt, hnone]; rfl, hlen, by simp [hstop], by simp [hm],
      fun p hp h => by simp [hsmp p hp] at h, fun p hp => hsmp p (List.dropLast_subset _ hp)⟩

theorem portsOk_emit_iff {s : State} (hm : s.seq.mode = .emit) : s.PortsOk ↔ Running s := by
  constructor
  · rintro ⟨hfault, hflt, hlen, -, -, hsmp, -⟩
    have hnone : s.fault = none := by simpa [hm] using hfault
    exact ⟨hnone, by rw [hflt, hnone]; rfl, hlen, fun p hp => by simpa [hm] using hsmp p hp⟩
  · rintro ⟨hnone, hflt, hlen, hsmp⟩
    exact ⟨by simp [hnone, hm], by rw [hflt, hnone]; rfl, hlen, fun _ => .inl hm, by simp [hm],
      fun p hp h => by simp [hsmp p hp] at h, fun p hp => hsmp p (List.dropLast_subset _ hp)⟩

/-! The command step. -/

theorem consume_inv {s : State} {bs rest : List Byte} (h : s.Inv) (hf : fetch s = bs ++ rest) : (consume bs s).Inv := by
  obtain ⟨hcfg, ⟨hn, hmax, hsel, htick, hline, hcol⟩, hvoices, hports, hwf, hgap, hpos⟩ := h
  obtain ⟨esel, etick, edone, estop, emode, epos, eline, ecol⟩ := foldl_advance bs s.seq
  refine ⟨hcfg, ⟨hn, hmax, ?sel, ?tick, eline hline, ecol hcol⟩, hvoices, ?ports, hwf, hgap, ?pos⟩
  case sel => exact (congrArg _ esel).trans hsel
  case tick => exact htick.trans_eq etick.symm
  case ports =>
    simp only [State.PortsOk, consume_fault, consume_flt, consume_smp, consume_seq_mode, consume_seq_samplesDone,
      consume_seq_shouldStop]
    exact hports
  case pos =>
    have hlen : (fetch s).length = s.mem.length - s.seq.pos := bytesFrom_length hwf hgap s.seq.pos
    rw [hf, List.length_append] at hlen
    rw [consume_seq_pos, consume_mem]
    omega

theorem raiseFatal_inv {s : State} (h : s.Inv) (hm : s.seq.mode = .parse) (code : FaultCode) (got : Got)
    (exp : Expected) (aux : Aux) : (raiseFatal code got exp aux s).Inv := by
  obtain ⟨hcfg, hseq, hvoices, hports, hstream⟩ := h
  obtain ⟨⟨-, hflt, hlen, hsmp⟩, hstop⟩ := (portsOk_parse_iff hm).1 hports
  refine ⟨hcfg, hseq, hvoices, ⟨by simp, by simp [hflt], hlen, by simp [hstop], by simp,
    fun p hp hstop' => ?_, fun p hp => hsmp p (List.dropLast_subset _ hp)⟩, hstream⟩
  simp [hsmp p hp] at hstop'

/-- Every item executed in Parse keeps the invariant. -/
theorem execShape_inv {i : Instr} {s t : State} (h : s.Inv) (hm : s.seq.mode = .parse) (ht : ExecShape i s t) :
    t.Inv := by
  have hinv := h
  obtain ⟨hcfg, ⟨hn, hmax, hsel, htick, hcursor⟩, hvoices, hports, hstream⟩ := h
  cases ht with
  | valueFault code aux => exact raiseFatal_inv hinv hm _ _ _ _
  | newBank n h1 h2 =>
    refine ⟨hcfg, ⟨?_, ?_, ?_, htick, hcursor⟩, fun v hv => ?_, hports, hstream⟩
    · simpa [State.nVoices] using h1
    · simpa [State.nVoices] using h2
    · simp only [State.nVoices, List.length_replicate, Selector.inBank, decide_eq_true_eq]
      omega
    · obtain rfl := List.eq_of_mem_replicate hv
      exact voiceInit_inRange
  | tempo n hpos => exact ⟨hcfg, ⟨hn, hmax, hsel, hpos, hcursor⟩, hvoices, hports, hstream⟩
  | endOfParse stop =>
    exact ⟨hcfg, ⟨hn, hmax, hsel, htick, hcursor⟩, hvoices,
      (portsOk_emit_iff rfl).2 ((portsOk_parse_iff hm).1 hports).1, hstream⟩
  | select sel hin => exact ⟨hcfg, ⟨hn, hmax, hin, htick, hcursor⟩, hvoices, hports, hstream⟩
  | voiceWrite f hf =>
    refine ⟨hcfg, ?_, forTargets_forall (P := Voice.InRange) (fun v => voiceWrite_inRange hcfg hf) hvoices, hports,
      hstream⟩
    simp only [State.SeqOk, State.nVoices, forTargets_length]
    exact ⟨hn, hmax, hsel, htick, hcursor⟩
  | nothing => exact hinv

/-! The emit step. -/

/-- The mode after a sample: Stopped exactly when the run was to stop, otherwise Parse exactly at a tick boundary. -/
theorem modeAfterSample_eq (q : SeqRegs) :
    modeAfterSample q = if q.shouldStop = true then .stopped
      else if q.samplesDone % q.samplesPerTick = 0 then .parse else .emit := by
  simp [modeAfterSample, atTickBoundary]

theorem emitSample_portsOk {s : State} (hm : s.seq.mode = .emit) (h : s.PortsOk) : (emitSample s).PortsOk := by
  obtain ⟨hnone, hflt, hlen, hsmp⟩ := (portsOk_emit_iff hm).1 h
  cases hstop : s.seq.shouldStop with
  | true =>
    have hmode : (emitSample s).seq.mode = .stopped := by simp [modeAfterSample_eq, hstop]
    refine ⟨by rw [hmode]; simp [hnone], by simp [hflt, hnone], by simp [hlen], fun _ => .inr hmode, fun _ => hstop,
      fun _ _ _ => hmode, ?_⟩
    simpa using hsmp
  | false =>
    have hmode : (emitSample s).seq.mode = .parse ∨ (emitSample s).seq.mode = .emit := by
      simp only [emitSample_seq_mode, modeAfterSample_eq, hstop, Bool.false_eq_true, if_false]
      split
      · exact .inl rfl
      · exact .inr rfl
    have hrunning : Running (emitSample s) := by
      refine ⟨hnone, hflt, by simp [hlen], fun p hp => ?_⟩
      rw [emitSample_smp, List.mem_append, List.mem_singleton] at hp
      obtain hp | rfl := hp
      · exact hsmp p hp
      · exact hstop
    rcases hmode with hmode | hmode
    · exact (portsOk_parse_iff hmode).2 ⟨hrunning, hstop⟩
    · exact (portsOk_emit_iff hmode).2 hrunning

theorem emitSample_inv {s : State} (h : s.Inv) (hm : s.seq.mode = .emit) : (emitSample s).Inv := by
  obtain ⟨hcfg, hseq, hvoices, hports, hstream⟩ := h
  have hmix := mix_voices s
  refine ⟨hcfg, ?_, fun v hv => ?_, emitSample_portsOk hm hports, hstream⟩
  · simp only [State.SeqOk, State.nVoices, emitSample_voices, hmix, List.length_map]
    exact hseq
  · rw [emitSample_voices, hmix] at hv
    obtain ⟨w, hw, rfl⟩ := List.mem_map.1 hv
    exact voiceNext_inRange (hvoices w hw)

/-! The statements. -/

/-- Settles O49: the invariant over each kind of step. -/
theorem everyStepKeepsTheInvariant : Obligations.EveryStepKeepsTheInvariant := by
  unfold Obligations.EveryStepKeepsTheInvariant
  intro s t h hstep
  obtain ⟨hshape, -⟩ := step_shape hstep
  cases hshape with
  | inputMissing => exact h
  | notAccepted => exact h
  | misspelled f rest hm hd =>
    obtain ⟨⟨pre, hpre⟩, -⟩ := fetch_of_fatal hd
    rw [consumeTo_of_fetch hpre]
    exact raiseFatal_inv (consume_inv h hpre) ((consume_seq_mode _ _).trans hm) _ _ _ _
  | item i rest _ hm hd _ hexec =>
    have hfetch := fetch_of_ok hd
    rw [consumeTo_of_fetch hfetch] at hexec
    exact execShape_inv (consume_inv h hfetch) ((consume_seq_mode _ _).trans hm) (exec_shape_of_next hexec)
  | sample hm => exact emitSample_inv h hm

theorem resetWith_inv {c : Config} (h : c.Valid) : (State.resetWith c).Inv := by
  have ⟨_, hone, hcap, htick, _⟩ := h
  have hlen : (State.resetWith c).nVoices = c.initVoices := List.length_replicate
  refine ⟨h, ⟨hone.trans_eq hlen.symm, hlen.trans_le hcap, ?sel, htick, le_rfl, le_rfl⟩, fun v hv => ?voice,
    (portsOk_parse_iff rfl).2 ⟨⟨rfl, rfl, rfl, by simp [State.resetWith]⟩, rfl⟩, rfl, rfl, le_rfl⟩
  case sel => exact decide_eq_true (hone.trans_eq hlen.symm)
  case voice =>
    obtain rfl := List.eq_of_mem_replicate hv
    exact voiceInit_inRange

theorem standard_valid : Config.standard.Valid := by decide +kernel

/-- Settles O50: the invariant of the reset state under a valid strap, and the standard strap is valid. -/
theorem invariantHoldsAtReset : Obligations.InvariantHoldsAtReset := by
  unfold Obligations.InvariantHoldsAtReset
  exact ⟨fun c => resetWith_inv, resetWith_inv standard_valid⟩

theorem deliverByte_inv {s t : State} {b : Byte} (h : s.Inv) (ht : deliverByte b s = .next t) : t.Inv := by
  obtain ⟨hcfg, hseq, hvoices, hports, hwf, hgap, hpos⟩ := h
  unfold deliverByte at ht
  split at ht
  · simp at ht
  · cases ht
    obtain ⟨hgap', hlen⟩ := write_next_contiguous b hgap
    exact ⟨hcfg, hseq, hvoices, hports, write_wf _ b hwf, hgap', hpos.trans (by rw [hlen]; omega)⟩

/-- Settles O51: a byte delivered extends the stream; the other operations write nothing the invariant speaks of, or
reset. -/
theorem hostOperationsKeepTheInvariant : Obligations.HostOperationsKeepTheInvariant := by
  unfold Obligations.HostOperationsKeepTheInvariant
  exact fun s h => ⟨fun b t => deliverByte_inv h, h, fun _ => h, fun c => resetWith_inv⟩

/-- The voices of a fresh bank (spec R105). -/
theorem freshBank_registers {n i : Nat} {v : Voice} (h : (List.replicate n voiceInit)[i]? = some v) :
    v.osc = ⟨.pulseWidth, 0, 0, 1 / 2, 0⟩ ∧ v.env = ⟨15, 40, 7 / 10, 10, .off, 0, 0, 0⟩ ∧ v.velocity = 1 := by
  obtain rfl := List.eq_of_mem_replicate (List.mem_of_getElem? h)
  exact ⟨rfl, rfl, rfl⟩

/-- Settles O52: reset reads no register, and its bank is a fresh one. -/
theorem resetSetsEveryRegister : Obligations.ResetSetsEveryRegister := by
  unfold Obligations.ResetSetsEveryRegister
  exact fun c s => ⟨List.length_replicate, fun i v => freshBank_registers, rfl, rfl, rfl, fun _ => rfl⟩

end Sys2Proof.Proofs
end

section
/-! SUPPORT. What a step leaves unchanged and in which order things happen: what only grows over a run, commands before
samples, atomic faults, silence before the first trigger, and that a step reads no consumed byte (spec/10_state.md,
spec/20_memory.md, spec/43_sequencer_step.md). Settles O55, O48, O53, O54, O59 and O60. -/

namespace Sys2Proof.Proofs

open Sys2Proof.Machine Sys2Proof.Laws

/-! Silence. -/

/-- No command but `T` takes an envelope out of Off. -/
theorem voiceWrite_keeps_off {c : Config} {i : Instr} {f : Voice → Voice} (h : VoiceWrite c i f) (hi : i ≠ .trigger)
    {v : Voice} (hv : v.env.state = .off) : (f v).env.state = .off := by
  cases h with
  | trigger => exact absurd rfl hi
  | release => rw [voiceRelease, envRelease_of_released_or_off _ (.inr (.inr hv))]; exact hv
  | adsr | param | vel | note | wavePulse | waveSaw | waveNoise => exact hv

theorem execShape_keeps_allOff {i : Instr} {s t : State} (h : ExecShape i s t) (hi : i ≠ .trigger) (hs : AllOff s) :
    AllOff t := by
  cases h with
  | newBank n =>
    intro v hv
    obtain rfl := List.eq_of_mem_replicate hv
    rfl
  | voiceWrite f hf =>
    exact forTargets_forall (P := fun v => v.env.state = .off) (fun v => voiceWrite_keeps_off hf hi) hs
  | valueFault | tempo | endOfParse | select | nothing => exact hs

theorem voiceNext_keeps_off {sr : Nat} {v : Voice} (h : v.env.state = .off) : (voiceNext sr v).env.state = .off := by
  rw [voiceNext, envNext_of_untimed (by rw [h]; rfl)]
  exact h

theorem envNextAmp_of_untimed {sr : Nat} {e : Env} (h : e.state.timed = false) : envNextAmp sr e = e.amp := by
  rw [envNextAmp, settle_of_untimed h]

theorem voiceSample_of_off (sr : Nat) {v : Voice} (d : Draws) (h : v.env.state = .off) :
    (voiceSample sr v d).value = 0 := by
  rw [voiceSample_value, envNextAmp_of_untimed (by rw [h]; rfl), amp_off h, mul_zero, zero_mul]

theorem mixFrom_sum_of_off (sr : Nat) {vs : List Voice} (d : Draws) (h : ∀ v ∈ vs, v.env.state = .off) :
    (mixFrom sr vs d 0).sum = 0 := by
  induction vs generalizing d with
  | nil => rfl
  | cons v vs ih =>
    have hv := voiceSample_of_off sr d (h v List.mem_cons_self)
    rw [mixFrom, hv, add_zero]
    exact ih _ fun w hw => h w (List.mem_cons_of_mem v hw)

theorem emitSample_keeps_allOff {s : State} (h : AllOff s) : AllOff (emitSample s) := by
  intro v hv
  rw [emitSample_voices, mix_voices] at hv
  obtain ⟨w, hw, rfl⟩ := List.mem_map.1 hv
  exact voiceNext_keeps_off (h w hw)

/-- Settles O55: each kind of step keeps the bank Off, and only a sample adds to the pairs delivered, of value 0. -/
theorem silentUntilTriggered : Obligations.SilentUntilTriggered := by
  unfold Obligations.SilentUntilTriggered
  intro s t hoff hstep hnot
  obtain ⟨hshape, -⟩ := step_shape hstep
  cases hshape with
  | inputMissing | notAccepted => exact ⟨hoff, [], (List.append_nil _).symm, by simp⟩
  | misspelled f rest => exact ⟨hoff, [], (List.append_nil _).symm, by simp⟩
  | item i rest _ hm hd _ hexec =>
    have hex := exec_shape_of_next hexec
    have hi : i ≠ .trigger := fun hi => hnot rest hm (hi ▸ hd)
    obtain ⟨-, -, -, -, hsmp, -⟩ := execShape_frame hex
    exact ⟨execShape_keeps_allOff hex hi hoff, [], by rw [hsmp, List.append_nil]; rfl, by simp⟩
  | sample =>
    refine ⟨emitSample_keeps_allOff hoff, _, emitSample_smp s, ?_⟩
    simpa [mix] using mixFrom_sum_of_off s.cfg.sampleRate s.draws hoff

/-! Faults. -/

/-- An item leaves the mode, or ends the parse phase, or is a value fault that writes nothing else. -/
theorem execShape_mode {i : Instr} {s t : State} (h : ExecShape i s t) :
    (∃ code aux, t = raiseValueFault code aux s ∧ endsParse i = false) ∨
    (t.seq.mode = .emit ∧ (i = .tick ∧ t.seq.shouldStop = false ∨ i = .quit ∧ t.seq.shouldStop = true)) ∨
    (t.seq.mode = s.seq.mode ∧ endsParse i = false) := by
  cases h with
  | valueFault code aux hi => exact .inl ⟨code, aux, rfl, hi⟩
  | endOfParse stop h => exact .inr (.inl ⟨rfl, h⟩)
  | newBank _ _ _ hi | tempo _ _ hi | select _ _ hi | voiceWrite _ _ hi | nothing hi => exact .inr (.inr ⟨rfl, hi⟩)

/-- Every way into Faulted (spec R148): fault entry behind the bytes consumed, by a misspelled item or a value fault. -/
theorem step_into_faulted {s t : State} (hstep : step s = .next t) (hfaulted : t.seq.mode = .faulted) :
    s.seq.mode = .parse ∧ ∃ pre code got exp aux, t = raiseFatal code got exp aux (consume pre s) ∧
      (got = .nothing ↔ exp = .nothing) := by
  obtain ⟨hshape, -⟩ := step_shape hstep
  cases hshape with
  | inputMissing hm => simp [hm] at hfaulted
  | notAccepted hm => simp [hm] at hfaulted
  | sample =>
    rw [emitSample_seq_mode, modeAfterSample_eq] at hfaulted
    split_ifs at hfaulted
  | misspelled f rest hm hd =>
    obtain ⟨⟨pre, hpre⟩, hexp, hat⟩ := fetch_of_fatal hd
    refine ⟨hm, pre, f.code, f.got, f.exp, .nothing, by rw [consumeTo_of_fetch hpre]; rfl, ?_⟩
    obtain ⟨b, -, -, hgot, -⟩ | ⟨-, -, hgot, -⟩ := hat <;> simp [hgot, hexp]
  | item i rest _ hm hd _ hexec =>
    rw [consumeTo_of_fetch (fetch_of_ok hd)] at hexec
    obtain ⟨code, aux, rfl, -⟩ | ⟨hemit, -⟩ | ⟨hsame, -⟩ := execShape_mode (exec_shape_of_next hexec)
    · exact ⟨hm, encode i, code, .nothing, .nothing, aux, rfl, by simp⟩
    · simp [hemit] at hfaulted
    · rw [hsame, consume_seq_mode, hm] at hfaulted
      cases hfaulted

/-- Settles O48: whichever way Faulted is entered, it is fault entry behind the bytes consumed. -/
theorem faultsAreAtomic : Obligations.FaultsAreAtomic := by
  unfold Obligations.FaultsAreAtomic
  intro s t hstep hfaulted
  obtain ⟨hm, pre, code, got, exp, aux, rfl, hgot⟩ := step_into_faulted hstep hfaulted
  exact ⟨hm, rfl, consume_seq_sel pre s, consume_seq_samplesPerTick pre s, consume_seq_samplesDone pre s,
    consume_seq_shouldStop pre s, ⟨rfl, fun _ => rfl, rfl, rfl, rfl, rfl⟩, _, rfl, rfl, rfl, rfl, hgot⟩

/-! Commands and samples. -/

/-- What a step in Parse can be: it holds, enters Faulted, ends the phase by `//` or `/q`, or stays in Parse. -/
theorem step_parse_mode {s t : State} (hstep : step s = .next t) (hm : s.seq.mode = .parse) :
    (t.seq.mode = .parse ∨ t.seq.mode = .emit ∨ t.seq.mode = .faulted) ∧
    (t.seq.mode = .emit → ∃ rest,
      (decode s.cmdEnded (fetch s) = .ok .tick rest ∧ t.seq.shouldStop = false) ∨
      (decode s.cmdEnded (fetch s) = .ok .quit rest ∧ t.seq.shouldStop = true)) := by
  obtain ⟨hshape, -⟩ := step_shape hstep
  cases hshape with
  | inputMissing => exact ⟨.inl hm, by simp [hm]⟩
  | notAccepted he | sample he => simp [hm] at he
  | misspelled f rest => exact ⟨.inr (.inr rfl), by simp⟩
  | item i rest _ _ hd _ hexec =>
    rw [consumeTo_of_fetch (fetch_of_ok hd)] at hexec
    obtain ⟨code, aux, rfl, -⟩ | ⟨hemit, hi⟩ | ⟨hsame, -⟩ := execShape_mode (exec_shape_of_next hexec)
    · exact ⟨.inr (.inr rfl), by simp⟩
    · refine ⟨.inr (.inl hemit), fun _ => ⟨rest, ?_⟩⟩
      obtain ⟨rfl, hstop⟩ | ⟨rfl, hstop⟩ := hi
      · exact .inl ⟨hd, hstop⟩
      · exact .inr ⟨hd, hstop⟩
    · rw [consume_seq_mode, hm] at hsame
      exact ⟨.inl hsame, by simp [hsame]⟩

/-- What no step in Parse writes: every interface but FLT, and the free values and the sample counter. -/
theorem step_parse_frame {s t : State} (hstep : step s = .next t) (hm : s.seq.mode = .parse) :
    t.cfg = s.cfg ∧ t.mem = s.mem ∧ t.cmdEnded = s.cmdEnded ∧ t.smpReady = s.smpReady ∧ t.smp = s.smp ∧
    t.draws = s.draws ∧ t.seq.samplesDone = s.seq.samplesDone ∧ s.seq.pos ≤ t.seq.pos ∧ s.flt <+: t.flt := by
  obtain ⟨hshape, -⟩ := step_shape hstep
  cases hshape with
  | inputMissing => exact ⟨rfl, rfl, rfl, rfl, rfl, rfl, rfl, le_rfl, List.prefix_rfl⟩
  | notAccepted he | sample he => simp [hm] at he
  | misspelled f rest _ hd =>
    obtain ⟨⟨pre, hpre⟩, -⟩ := fetch_of_fatal hd
    rw [consumeTo_of_fetch hpre]
    refine ⟨rfl, rfl, rfl, rfl, rfl, rfl, consume_seq_samplesDone pre s, ?_, List.prefix_append _ _⟩
    rw [raiseSpellingFault_seq_pos, consume_seq_pos]
    omega
  | item i rest _ _ hd _ hexec =>
    rw [consumeTo_of_fetch (fetch_of_ok hd)] at hexec
    have hex := exec_shape_of_next hexec
    obtain ⟨hcfg, hmem, hended, hready, hsmp, hdraws, hdone, hpos, -⟩ := execShape_frame hex
    refine ⟨hcfg, hmem, hended, hready, hsmp, hdraws, hdone.trans (consume_seq_samplesDone _ s), ?_, ?_⟩
    · rw [hpos, consume_seq_pos]
      omega
    · cases hex with
      | valueFault => exact List.prefix_append _ _
      | newBank | tempo | endOfParse | select | voiceWrite | nothing => exact List.prefix_rfl

/-- A step in Emit holds or delivers a sample. -/
theorem step_emit_eq {s t : State} (hstep : step s = .next t) (hm : s.seq.mode = .emit) : t = s ∨ t = emitSample s := by
  obtain ⟨hshape, -⟩ := step_shape hstep
  cases hshape with
  | inputMissing hp | misspelled _ _ hp | item _ _ _ hp => simp [hm] at hp
  | sample => exact .inr rfl
  | notAccepted => exact .inl rfl

/-- Settles O53: a step in Parse by what it leaves and by the mode it ends in; one in Emit is a hold or a sample. -/
theorem commandsComeBeforeSamples : Obligations.CommandsComeBeforeSamples := by
  unfold Obligations.CommandsComeBeforeSamples
  intro s t hstep
  refine ⟨fun hm => ?parse, fun hm => ?emit⟩
  case parse =>
    obtain ⟨-, -, -, -, hsmp, hdraws, hdone, -⟩ := step_parse_frame hstep hm
    exact ⟨hsmp, hdone, hdraws, step_parse_mode hstep hm⟩
  case emit =>
    obtain rfl | rfl := step_emit_eq hstep hm
    · exact ⟨rfl, rfl, rfl, rfl, rfl, rfl, rfl, ⟨rfl, rfl⟩, by simp [hm]⟩
    · refine ⟨rfl, rfl, rfl, rfl, rfl, rfl, ?_, ⟨rfl, rfl⟩, fun hparse => ?_⟩
      · simp [State.nVoices, mix_voices]
      · rw [emitSample_seq_mode, modeAfterSample_eq] at hparse
        split_ifs at hparse with hstop hboundary
        exact ⟨by simpa using hstop, by simp, rfl, hboundary⟩

/-! Runs. -/

theorem step_mode {s t : State} (hstep : step s = .next t) : s.seq.mode = .parse ∨ s.seq.mode = .emit := by
  cases hm : s.seq.mode with
  | parse => exact .inl rfl
  | emit => exact .inr rfl
  | stopped => simp [step_of_stopped hm] at hstep
  | faulted => simp [step_of_faulted hm] at hstep

theorem step_moves_forward {s t : State} (hstep : step s = .next t) :
    s.seq.pos ≤ t.seq.pos ∧ s.seq.samplesDone ≤ t.seq.samplesDone ∧ t.cfg = s.cfg ∧ t.mem = s.mem ∧
    t.cmdEnded = s.cmdEnded ∧ t.smpReady = s.smpReady ∧ s.smp <+: t.smp ∧ s.flt <+: t.flt := by
  rcases step_mode hstep with hm | hm
  · obtain ⟨hcfg, hmem, hended, hready, hsmp, -, hdone, hpos, hflt⟩ := step_parse_frame hstep hm
    exact ⟨hpos, hdone.ge, hcfg, hmem, hended, hready, hsmp ▸ List.prefix_rfl, hflt⟩
  · obtain rfl | rfl := step_emit_eq hstep hm
    · exact ⟨le_rfl, le_rfl, rfl, rfl, rfl, rfl, List.prefix_rfl, List.prefix_rfl⟩
    · exact ⟨le_rfl, Nat.le_succ _, rfl, rfl, rfl, rfl, List.prefix_append _ _, List.prefix_rfl⟩

/-- Settles O54: by induction on the run, a step at a time. -/
theorem runsOnlyMoveForward : Obligations.RunsOnlyMoveForward := by
  unfold Obligations.RunsOnlyMoveForward
  intro s t hrun
  induction hrun with
  | refl => exact ⟨le_rfl, le_rfl, rfl, rfl, rfl, rfl, List.prefix_rfl, List.prefix_rfl⟩
  | step _ hstep ih =>
    obtain ⟨hpos, hdone, hcfg, hmem, hended, hready, hsmp, hflt⟩ := ih
    obtain ⟨hpos', hdone', hcfg', hmem', hended', hready', hsmp', hflt'⟩ := step_moves_forward hstep
    exact ⟨hpos.trans hpos', hdone.trans hdone', hcfg'.trans hcfg, hmem'.trans hmem, hended'.trans hended,
      hready'.trans hready, hsmp.trans hsmp', hflt.trans hflt'⟩

/-! The delivered stream. -/

/-- Settles O59: the laws of the stream's reads and writes. -/
theorem streamReadsWhatWasDelivered : Obligations.StreamReadsWhatWasDelivered := by
  unfold Obligations.StreamReadsWhatWasDelivered
  exact fun m a b => ⟨read_write_same m a b, fun a' => read_write_other m a a' b, write_wf a b,
    fun hm => bytesFrom_eq hm a⟩

/-- `s` with another stream delivered. -/
def withMem (m : Memory) (s : State) : State := { s with mem := m }

/-- The outcome with another stream delivered. -/
def outcomeWithMem (m : Memory) : Host.Outcome State Fault Refusal → Host.Outcome State Fault Refusal
  | .next s => .next (withMem m s)
  | .fault f => .fault f
  | .refused r => .refused r

/-- An item never reads the stream. -/
theorem exec_withMem (i : Instr) (m : Memory) (s : State) : exec i (withMem m s) = outcomeWithMem m (exec i s) := by
  cases i with
  | cv n =>
    show execCv n (withMem m s) = outcomeWithMem m (execCv n s)
    simp only [execCv, apply_ite (outcomeWithMem m)]
    rfl
  | ct n =>
    show execCt n (withMem m s) = outcomeWithMem m (execCt n s)
    simp only [execCt, apply_ite (outcomeWithMem m)]
    rfl
  | sel n =>
    show execSel n (withMem m s) = outcomeWithMem m (execSel n s)
    simp only [execSel, apply_ite (outcomeWithMem m)]
    rfl
  | note n =>
    show execNote n (withMem m s) = outcomeWithMem m (execNote n s)
    simp only [execNote, apply_ite (outcomeWithMem m)]
    rfl
  | tick | quit | selAll | adsr | param | vel | wavePulse | waveSaw | waveNoise | trigger | release | comment | wsTab
    | wsLineFeed | wsVerticalTab | wsFormFeed | wsCarriageReturn | wsSpace => rfl

theorem withinCounters_withMem (m : Memory) (o : Host.Outcome State Fault Refusal) :
    withinCounters (outcomeWithMem m o) = outcomeWithMem m (withinCounters o) := by
  cases o with
  | next s =>
    have hfit : countersFit (withMem m s) = countersFit s := rfl
    rw [outcomeWithMem, withinCounters, withinCounters, hfit]
    split <;> rfl
  | fault f => rfl
  | refused r => rfl

theorem cmdStep_withMem {m : Memory} {s : State} (h : fetch (withMem m s) = fetch s) :
    cmdStep (withMem m s) = outcomeWithMem m (cmdStep s) := by
  have hconsume (rest : List Byte) : consumeTo rest (withMem m s) = withMem m (consumeTo rest s) := by
    rw [consumeTo, h]
    rfl
  have hdecode : decode (withMem m s).cmdEnded (fetch (withMem m s)) = decode s.cmdEnded (fetch s) := by
    rw [h]
    rfl
  cases hd : decode s.cmdEnded (fetch s) with
  | wait =>
    rw [cmdStep_of_wait hd, cmdStep_of_wait (hdecode.trans hd)]
    rfl
  | fatal f rest =>
    rw [cmdStep_of_fatal hd, cmdStep_of_fatal (hdecode.trans hd), hconsume]
    rfl
  | ok i rest =>
    have hmax : aboveIntMax (withMem m s).cfg i = aboveIntMax s.cfg i := rfl
    simp only [cmdStep, hdecode, hd, hconsume, exec_withMem, hmax]
    split <;> rfl

theorem emitStep_withMem (m : Memory) (s : State) : emitStep (withMem m s) = outcomeWithMem m (emitStep s) := by
  have hready : (withMem m s).smpReady = s.smpReady := rfl
  rw [emitStep, emitStep, hready]
  split <;> rfl

/-- A step reads of the stream what it fetches, and nothing else. -/
theorem step_withMem {m : Memory} {s : State} (h : fetch (withMem m s) = fetch s) :
    step (withMem m s) = outcomeWithMem m (step s) := by
  have hmode : (withMem m s).seq.mode = s.seq.mode := rfl
  cases hm : s.seq.mode with
  | parse => rw [step_of_parse hm, step_of_parse (hmode.trans hm), cmdStep_withMem h, withinCounters_withMem]
  | emit => rw [step_of_emit hm, step_of_emit (hmode.trans hm), emitStep_withMem, withinCounters_withMem]
  | stopped => rw [step_of_stopped hm, step_of_stopped (hmode.trans hm), outcomeWithMem]
  | faulted => rw [step_of_faulted hm, step_of_faulted (hmode.trans hm), outcomeWithMem]

/-- Settles O60: two streams that agree from the cursor on are fetched alike, and the fetch is all a step reads. -/
theorem consumedBytesAreNeverReadAgain : Obligations.ConsumedBytesAreNeverReadAgain := by
  unfold Obligations.ConsumedBytesAreNeverReadAgain
  intro s m hwf hm hagree
  have hstep : step { s with mem := m } = outcomeWithMem m (step s) := step_withMem (bytesFrom_congr hm hwf hagree)
  refine ⟨fun t ht => ?_, fun f hf => ?_, fun r hr => ?_⟩
  · rw [hstep, ht]; rfl
  · rw [hstep, hf]; rfl
  · rw [hstep, hr]; rfl

end Sys2Proof.Proofs
end

section
/-! SUPPORT. Runs of samples: the emit step, the end of a tick, and the source's `next_sample()` as a run of steps (spec
R114, R118, R121). Settles O57, O58 and O14. -/

namespace Sys2Proof.Proofs

open Sys2Proof.Machine Sys2Proof.Laws

/-! Runs, a step at a time. -/

theorem coreRun_of_step {M : Host.Core} {s t : M.State} (h : M.step s = .next t) (k : Nat) :
    M.run (k + 1) s = M.run k t := by
  rw [Host.Core.run, h]

theorem coreRun_trans {M : Host.Core} {k j : Nat} {s t u : M.State} (hk : M.run k s = .next t)
    (hj : M.run j t = .next u) : M.run (k + j) s = .next u := by
  induction k generalizing s with
  | zero =>
    obtain rfl : s = t := Host.Outcome.next.inj hk
    rwa [Nat.zero_add]
  | succ k ih =>
    rw [Nat.add_right_comm]
    cases hstep : M.step s with
    | next s' =>
      rw [coreRun_of_step hstep] at hk ⊢
      exact ih hk
    | fault r => simp [Host.Core.run, hstep] at hk
    | refused r => simp [Host.Core.run, hstep] at hk

theorem run_of_step {s t : State} (h : step s = .next t) (k : Nat) : core.run (k + 1) s = core.run k t :=
  coreRun_of_step (M := core) h k

theorem run_one {s t : State} (h : step s = .next t) : core.run 1 s = .next t := run_of_step h 0

/-! The emit step. -/

theorem step_of_emit_ready {s : State} (hm : s.seq.mode = .emit) (hr : s.smpReady = true) :
    step s = withinCounters (.next (emitSample s)) := by
  rw [step_of_emit hm, emitStep_of_ready hr]

/-- Settles O14: the emit step's effect is `emitSample`, whose mode is `modeAfterSample_eq`'s. -/
theorem emitStepDeliversOneSample : Obligations.EmitStepDeliversOneSample := by
  unfold Obligations.EmitStepDeliversOneSample
  intro s hm hr
  refine ⟨emitSample s, step_of_emit_ready hm hr, rfl, rfl, rfl, ?seq, rfl, fun _ => rfl, rfl, rfl, rfl, rfl⟩
  case seq =>
    have hmode := emitSample_seq_mode s
    rw [modeAfterSample_eq] at hmode
    rw [← hmode]
    rfl

/-! A tick, spec R121. -/

/-- In Emit, not stopping, nothing in the way of the next sample. -/
def Ticking (s : State) : Prop :=
  s.seq.mode = .emit ∧ s.seq.shouldStop = false ∧ s.smpReady = true ∧ s.cfg.counterBits = none

theorem step_of_ticking {s : State} (h : Ticking s) : step s = .next (emitSample s) := by
  obtain ⟨hm, -, hr, hbits⟩ := h
  rw [step_of_emit_ready hm hr, withinCounters_of_none (t := emitSample s) hbits]

theorem emitSample_mode_of_ticking {s : State} (h : Ticking s) : (emitSample s).seq.mode =
    if (s.seq.samplesDone + 1) % s.seq.samplesPerTick = 0 then .parse else .emit := by
  obtain ⟨-, hstop, -⟩ := h
  simp only [emitSample_seq_mode, modeAfterSample_eq, hstop, Bool.false_eq_true, if_false]

/-- Inside a tick a sample is followed by another. -/
theorem ticking_emitSample {s : State} (h : Ticking s)
    (hin : s.seq.samplesDone % s.seq.samplesPerTick + 1 < s.seq.samplesPerTick) :
    Ticking (emitSample s) ∧ (emitSample s).seq.samplesDone % (emitSample s).seq.samplesPerTick =
      s.seq.samplesDone % s.seq.samplesPerTick + 1 := by
  have hmod : (s.seq.samplesDone + 1) % s.seq.samplesPerTick = s.seq.samplesDone % s.seq.samplesPerTick + 1 := by
    rw [← Nat.mod_add_mod, Nat.mod_eq_of_lt hin]
  have hmode := emitSample_mode_of_ticking h
  rw [hmod, if_neg (Nat.succ_ne_zero _)] at hmode
  obtain ⟨-, hrest⟩ := h
  exact ⟨⟨hmode, hrest⟩, hmod⟩

theorem run_inside_tick {s : State} (h : Ticking s) {j : Nat}
    (hj : s.seq.samplesDone % s.seq.samplesPerTick + j < s.seq.samplesPerTick) :
    ∃ u : State, core.run j s = .next u ∧ u.seq.mode = .emit := by
  induction j generalizing s with
  | zero => exact ⟨s, rfl, h.1⟩
  | succ j ih =>
    obtain ⟨hnext, hmod⟩ := ticking_emitSample h (by omega)
    rw [run_of_step (step_of_ticking h)]
    refine ih hnext ?_
    rw [hmod, emitSample_seq_samplesPerTick]
    omega

theorem run_to_end_of_tick {s : State} (h : Ticking s) {k : Nat}
    (hk : s.seq.samplesDone % s.seq.samplesPerTick + (k + 1) = s.seq.samplesPerTick) :
    ∃ t : State, core.run (k + 1) s = .next t ∧ t.seq.mode = .parse ∧ t.smp.length = s.smp.length + (k + 1) ∧
      t.seq.samplesDone % t.seq.samplesPerTick = 0 := by
  induction k generalizing s with
  | zero =>
    have hboundary : (s.seq.samplesDone + 1) % s.seq.samplesPerTick = 0 := by
      rw [← Nat.mod_add_mod, hk, Nat.mod_self]
    refine ⟨emitSample s, run_one (step_of_ticking h), ?_, by simp, hboundary⟩
    rw [emitSample_mode_of_ticking h, if_pos hboundary]
  | succ k ih =>
    obtain ⟨hnext, hmod⟩ := ticking_emitSample h (by omega)
    obtain ⟨t, hrun, hmode, hlen, hboundary⟩ := ih hnext (by rw [hmod, emitSample_seq_samplesPerTick]; omega)
    refine ⟨t, (run_of_step (step_of_ticking h) _).trans hrun, hmode, ?_, hboundary⟩
    rw [hlen, emitSample_smp, List.length_append, List.length_singleton]
    omega

/-- Settles O57: inside the tick each sample leaves one fewer, and the last reaches the multiple. -/
theorem tickLastsToTheNextMultiple : Obligations.TickLastsToTheNextMultiple := by
  unfold Obligations.TickLastsToTheNextMultiple
  intro s hm hstop hpos hr hbits
  have h : Ticking s := ⟨hm, hstop, hr, hbits⟩
  have hlt := Nat.mod_lt s.seq.samplesDone hpos
  refine ⟨?ends, fun j hj => run_inside_tick h (by omega)⟩
  case ends =>
    obtain ⟨k, hk⟩ := Nat.exists_eq_succ_of_ne_zero (Nat.sub_ne_zero_of_lt hlt)
    rw [hk]
    exact run_to_end_of_tick h (by omega)

/-! `next_sample()`, spec R114. -/

/-- Where the source's loop answers, the command steps reach the same state: the end of the parse phase. -/
theorem parsePhase_run {fuel : Nat} {s t : State} (hm : s.seq.mode = .parse) (hmax : s.cfg.intMax = none)
    (hbits : s.cfg.counterBits = none) (h : parsePhase fuel s = some t) :
    ∃ k, core.run k s = .next t ∧ t.seq.mode = .emit ∧ t.cfg = s.cfg ∧ t.smpReady = s.smpReady ∧ t.smp = s.smp := by
  induction fuel generalizing s with
  | zero => simp [parsePhase] at h
  | succ fuel ih =>
    unfold parsePhase at h
    cases hd : decode s.cmdEnded (fetch s) with
    | wait => simp [hd] at h
    | fatal f rest => simp [hd] at h
    | ok i rest =>
      obtain ⟨u, hexec, hshape⟩ := exec_shape i (consumeTo rest s)
      obtain ⟨hcfg, -, -, hready, hsmp, -⟩ := execShape_frame hshape
      have hstep : step s = .next u := by
        rw [stepRunsDecodedItem s i rest hm hd (aboveIntMax_of_none hmax i), hexec]
        exact withinCounters_of_none (by rw [hcfg]; exact hbits)
      have hmode := execShape_mode hshape
      rw [consumeTo_of_fetch (fetch_of_ok hd), consume_seq_mode, hm] at hmode
      simp only [hd, hexec] at h
      obtain ⟨code, aux, rfl, hi⟩ | ⟨hemit, hi⟩ | ⟨hparse, hi⟩ := hmode
      · simp [hi] at h
      · have hends : endsParse i = true := by obtain ⟨rfl, -⟩ | ⟨rfl, -⟩ := hi <;> rfl
        rw [if_pos hends] at h
        obtain rfl := Option.some.inj h
        exact ⟨1, run_one hstep, hemit, hcfg, hready, hsmp⟩
      · rw [if_neg (by simp [hi]), if_neg (by simp [hparse])] at h
        obtain ⟨k, hrun, hemit, hcfg', hready', hsmp'⟩ :=
          ih hparse (by rw [hcfg]; exact hmax) (by rw [hcfg]; exact hbits) h
        exact ⟨k + 1, (run_of_step hstep k).trans hrun, hemit, hcfg'.trans hcfg, hready'.trans hready,
          hsmp'.trans hsmp⟩

/-- Settles O58: a parse phase, where there is one, and then one emit step. -/
theorem nextSampleIsARunOfSteps : Obligations.NextSampleIsARunOfSteps := by
  unfold Obligations.NextSampleIsARunOfSteps
  intro fuel s t _ hmax hbits hr hm hnext
  have hboundary : atTickBoundary s.seq = true ↔ s.seq.samplesDone % s.seq.samplesPerTick = 0 := by
    simp [atTickBoundary]
  have hphase : ∃ (k : Nat) (p : State), core.run k s = .next p ∧ p.seq.mode = .emit ∧ p.cfg = s.cfg ∧
      p.smpReady = s.smpReady ∧ p.smp = s.smp ∧ t = produceSample p := by
    unfold nextSample at hnext
    by_cases hb : s.seq.samplesDone % s.seq.samplesPerTick = 0
    · rw [if_pos (hboundary.2 hb)] at hnext
      rw [if_pos hb] at hm
      obtain ⟨p, hp, rfl⟩ := Option.map_eq_some_iff.1 hnext
      obtain ⟨k, hrun, hemit, hcfg, hready, hsmp⟩ := parsePhase_run hm hmax hbits hp
      exact ⟨k, p, hrun, hemit, hcfg, hready, hsmp, rfl⟩
    · rw [if_neg (hb ∘ hboundary.1)] at hnext
      rw [if_neg hb] at hm
      exact ⟨0, s, rfl, hm, rfl, rfl, rfl, (Option.some.inj hnext).symm⟩
  obtain ⟨k, p, hrun, hemit, hcfg, hready, hsmp, rfl⟩ := hphase
  have hstep : step p = .next (emitSample p) := by
    rw [step_of_emit_ready hemit (hready.trans hr)]
    exact withinCounters_of_none (by rw [emitSample_cfg, hcfg]; exact hbits)
  refine ⟨k + 1, emitSample p, coreRun_trans hrun (run_one hstep), rfl, ?_, by simp [hsmp]⟩
  exact modeAfterSample_eq (produceSample p).seq

end Sys2Proof.Proofs
end

section
/-! SUPPORT. The envelope sample by sample: the settle loop, the transition table, the bounds of the amplitude, and the
ramps of spec R101 to R104. Settles O25, O26, O27 and O28. -/

namespace Sys2Proof.Proofs

open Sys2Proof.Machine Sys2Proof.Laws

/-! Durations, spec R88. -/

theorem msToSamples_eq_floor (sr : Nat) (ms : Quantity) : msToSamples sr ms = ⌊ms * (sr : Quantity) / 1000⌋₊ :=
  rfl

/-- Settles O25: the number of samples is the floor of the exact product. -/
theorem durationsRoundDownToSamples : Obligations.DurationsRoundDownToSamples := by
  unfold Obligations.DurationsRoundDownToSamples
  intro sr ms hms
  have hnonneg : 0 ≤ ms * (sr : Quantity) / 1000 := by positivity
  simp only [msToSamples_eq_floor]
  refine ⟨Nat.floor_le hnonneg, Nat.lt_floor_add_one _, ?zero, fun ms' hle => Nat.floor_mono ?longer⟩
  case zero => rw [Nat.floor_eq_zero, div_lt_one (by norm_num)]
  case longer => gcongr

/-- `e` with `k` samples counted. -/
def withDone (k : Nat) (e : Env) : Env := { e with samplesDone := k }

theorem withDone_self (e : Env) : withDone e.samplesDone e = e := rfl

/-! The transitions, spec R95 to R100. -/

section
variable {sr : Nat} {e : Env} (h : e.samplesInState ≤ e.samplesDone)
include h

theorem settleOnce_attack (hs : e.state = .attack) : settleOnce sr e = some { e with
    state := .decay, samplesDone := 0, samplesInState := msToSamples sr e.decay } := by
  simp [settleOnce, hs, h, EnvState.timed, Env.enter]

theorem settleOnce_attackReleasing (hs : e.state = .attackReleasing) : settleOnce sr e = some { e with
    state := .release, releaseLevel := 1, samplesDone := 0, samplesInState := msToSamples sr e.release } := by
  simp [settleOnce, hs, h, EnvState.timed, Env.enter]

theorem settleOnce_decay (hs : e.state = .decay) : settleOnce sr e = some { e with
    state := .sustain, samplesDone := 0, samplesInState := 0 } := by
  simp [settleOnce, hs, h, EnvState.timed, Env.rest]

theorem settleOnce_release (hs : e.state = .release) : settleOnce sr e = some { e with
    state := .off, samplesDone := 0, samplesInState := 0 } := by
  simp [settleOnce, hs, h, EnvState.timed, Env.rest]

end

theorem settleOnce_untimed (sr : Nat) {e : Env} (h : e.state.timed = false) : settleOnce sr e = none :=
  settleOnce_none.2 (by simp [h])

theorem settleOnce_not_elapsed (sr : Nat) {e : Env} (h : e.samplesDone < e.samplesInState) :
    settleOnce sr e = none :=
  settleOnce_none.2 fun _ => h

/-- Settles O26: one equation per state and event. -/
theorem envelopeTransitionTable : Obligations.EnvelopeTransitionTable := by
  unfold Obligations.EnvelopeTransitionTable
  intro sr e
  refine ⟨rfl, rfl, fun hs => envRelease_of_released_or_off sr (by tauto), envRelease_of_attack sr, fun hs => ?decay,
    envRelease_of_sustain sr, fun hs => settleOnce_untimed sr ?untimed, settleOnce_not_elapsed sr, fun h =>
      ⟨settleOnce_attack h, settleOnce_attackReleasing h, settleOnce_decay h, settleOnce_release h⟩⟩
  case decay => rw [envRelease_of_decay_or_sustain sr (.inl hs), amp_decay hs]
  case untimed => rcases hs with hs | hs <;> rw [hs] <;> rfl

/-! The settle loop, spec R101. -/

theorem settleUpTo_add (sr m n : Nat) (e : Env) : settleUpTo sr (m + n) e = settleUpTo sr n (settleUpTo sr m e) := by
  induction m generalizing e with
  | zero => rw [Nat.zero_add, settleUpTo]
  | succ m ih =>
    rw [Nat.add_right_comm, settleUpTo, settleUpTo]
    cases hs : settleOnce sr e with
    | none => cases n <;> simp [settleUpTo, hs]
    | some e' => exact ih e'

theorem settleUpTo_of_none {sr : Nat} {e : Env} (h : settleOnce sr e = none) (n : Nat) : settleUpTo sr n e = e := by
  cases n <;> simp [settleUpTo, h]

/-- Settles O27: a settle is the loop's first two rounds, after which none applies. -/
theorem settleEndsWithinTwoTransitions : Obligations.SettleEndsWithinTwoTransitions := by
  unfold Obligations.SettleEndsWithinTwoTransitions
  intro sr e
  refine ⟨settle_settled sr e, fun n hn => ?_⟩
  obtain ⟨k, rfl⟩ := Nat.exists_eq_add_of_le hn
  rw [settleUpTo_add]
  exact settleUpTo_of_none (settle_settled sr e) k

/-! The amplitude's bounds. -/

/-- A settle keeps the release level, or writes 1 for a deferred release (spec R97). -/
theorem settle_releaseLevel (P : Quantity → Prop) (hone : P 1) {sr : Nat} {e : Env} (h : P e.releaseLevel) :
    P (settle sr e).releaseLevel := by
  refine settle_induct (P := fun x => P x.releaseLevel) (fun x x' hx hp => ?_) h
  obtain ⟨-, ⟨-, rfl⟩ | ⟨-, rfl⟩ | ⟨-, rfl⟩ | ⟨-, rfl⟩⟩ := settleOnce_cases hx
  · exact hp
  · exact hone
  · exact hp
  · exact hp

theorem envNextAmp_unit (sr : Nat) {e : Env} (h : e.InRange) (hs : e.sustain ≤ 1) (hl : e.releaseLevel ≤ 1) :
    0 ≤ envNextAmp sr e ∧ envNextAmp sr e ≤ 1 := by
  obtain ⟨ha, hd, hs0, hr, hl0, -, -, hu⟩ := h
  obtain ⟨⟨-, -, hs0', -, hl0', -⟩, hleft⟩ := settle_inRange (sr := sr) ⟨ha, hd, hs0, hr, hl0⟩ hu
  obtain ⟨-, -, hsustain, -⟩ := settle_adsr sr e
  have htimed (ht : (settle sr e).state.timed = true) := Or.inl (b := (settle sr e).samplesInState ≤ 1) (hleft ht)
  exact ⟨amp_nonneg hs0' hl0' htimed,
    amp_le_one (hsustain.trans_le hs) (settle_releaseLevel (· ≤ 1) le_rfl hl) htimed⟩

/-- Settles O28: a settled envelope's amplitude is in the unit interval, and a settle keeps the two levels in it. -/
theorem amplitudesStayInTheUnitInterval : Obligations.AmplitudesStayInTheUnitInterval := by
  unfold Obligations.AmplitudesStayInTheUnitInterval
  intro sr e h hs hl
  obtain ⟨-, -, hsustain, -⟩ := envNext_adsr sr e
  obtain ⟨hamp0, hamp1⟩ := envNextAmp_unit sr h hs hl
  exact ⟨hamp0, hamp1, envNext_inRange h, hsustain.trans_le hs,
    settle_releaseLevel (· ≤ 1) le_rfl (e := withDone ((settle sr e).samplesDone + 1) (settle sr e))
      (settle_releaseLevel (· ≤ 1) le_rfl hl)⟩

/-! Ramps: a timed state sample by sample, spec R102 to R104. -/

/-- The samples of a state before its last only count. -/
theorem iterate_envNext_of_lt {sr : Nat} {e : Env} {k : Nat} (h : e.samplesDone + k < e.samplesInState) :
    (envNext sr)^[k] e = withDone (e.samplesDone + k) e := by
  induction k with
  | zero => rfl
  | succ k ih =>
    rw [Function.iterate_succ_apply', ih (by omega)]
    exact envNext_of_lt (e := withDone (e.samplesDone + k) e) h

/-- The last sample of a state is followed by the settle out of it. -/
theorem iterate_envNext_elapsed {sr : Nat} {e : Env} (h : e.samplesDone < e.samplesInState) :
    (envNext sr)^[e.samplesInState - e.samplesDone] e = settle sr (withDone e.samplesInState e) := by
  obtain ⟨k, hk⟩ := Nat.exists_eq_add_of_lt h
  have hlast : settle sr (withDone (e.samplesDone + k) e) = withDone (e.samplesDone + k) e :=
    settle_of_lt (e := withDone (e.samplesDone + k) e) (show e.samplesDone + k < e.samplesInState by omega)
  rw [show e.samplesInState - e.samplesDone = k + 1 by omega, Function.iterate_succ_apply',
    iterate_envNext_of_lt (by omega), envNext, hlast, hk]
  rfl

/-- An untimed state only counts. -/
theorem iterate_envNext_of_untimed {sr : Nat} {e : Env} (h : e.state.timed = false) (k : Nat) :
    (envNext sr)^[k] e = withDone (e.samplesDone + k) e := by
  induction k with
  | zero => rfl
  | succ k ih =>
    rw [Function.iterate_succ_apply', ih]
    exact envNext_of_untimed (e := withDone (e.samplesDone + k) e) h

theorem envNextAmp_of_lt {sr : Nat} {e : Env} (h : e.samplesDone < e.samplesInState) : envNextAmp sr e = e.amp := by
  rw [envNextAmp, settle_of_lt h]

/-- The amplitudes of a timed state with samples left. -/
theorem envNextAmp_ramp {sr : Nat} {e : Env} {k : Nat} (h : e.samplesDone + k < e.samplesInState) :
    envNextAmp sr ((envNext sr)^[k] e) = (withDone (e.samplesDone + k) e).amp := by
  rw [iterate_envNext_of_lt h]
  exact envNextAmp_of_lt (e := withDone (e.samplesDone + k) e) h

theorem ratio_withDone {e : Env} (k : Nat) (h : 1 ≤ e.samplesInState) : (withDone k e).ratio =
    if e.samplesInState = 1 then 1 else (k : Quantity) / ((e.samplesInState - 1 : Nat) : Quantity) := by
  have hone : e.samplesInState ≤ 1 ↔ e.samplesInState = 1 := by omega
  simp only [Env.ratio, withDone, hone]

/-- At the start of a state the ratio is 0, or 1 when it has a sample at most. -/
theorem ratio_start {e : Env} (h : e.samplesDone = 0) (hlong : 2 ≤ e.samplesInState) : e.ratio = 0 := by
  rw [ratio_of_two_le hlong, h, Nat.cast_zero, zero_div]

/-- The sample that follows a timed state of `n` samples, be they none: the one after a settle out of it. -/
theorem settle_iterate_envNext {sr : Nat} {e : Env} (h : e.samplesDone ≤ e.samplesInState) :
    settle sr ((envNext sr)^[e.samplesInState - e.samplesDone] e) = settle sr (withDone e.samplesInState e) := by
  rcases h.lt_or_eq with hlt | heq
  · rw [iterate_envNext_elapsed hlt, settle_settle]
  · rw [heq, Nat.sub_self, Function.iterate_zero_apply, ← heq, withDone_self]

/-! What a settle leaves at the end of the attack and of the deferred release. -/

/-- At the end of the attack: Decay at progress 0, or Sustain when the decay has no sample. -/
theorem settle_attack {sr : Nat} {e : Env} (hs : e.state = .attack) (h : e.samplesInState ≤ e.samplesDone) :
    settle sr e = if msToSamples sr e.decay = 0
      then { e with state := .sustain, samplesDone := 0, samplesInState := 0 }
      else { e with state := .decay, samplesDone := 0, samplesInState := msToSamples sr e.decay } := by
  have hfirst := settleOnce_attack (sr := sr) h hs
  split
  · rename_i hm
    rw [hm] at hfirst
    rw [settle_of_twice hfirst (settleOnce_decay le_rfl rfl)]
  · rename_i hm
    rw [settle_of_once hfirst (settleOnce_not_elapsed sr (Nat.pos_of_ne_zero hm))]

/-- At the end of an attack released in: Release from level 1 at progress 0, or Off when the release has no sample. -/
theorem settle_attackReleasing {sr : Nat} {e : Env} (hs : e.state = .attackReleasing)
    (h : e.samplesInState ≤ e.samplesDone) :
    settle sr e = if msToSamples sr e.release = 0
      then { e with state := .off, releaseLevel := 1, samplesDone := 0, samplesInState := 0 }
      else { e with
        state := .release, releaseLevel := 1, samplesDone := 0, samplesInState := msToSamples sr e.release } := by
  have hfirst := settleOnce_attackReleasing (sr := sr) h hs
  split
  · rename_i hm
    rw [hm] at hfirst
    rw [settle_of_twice hfirst (settleOnce_release le_rfl rfl)]
  · rename_i hm
    rw [settle_of_once hfirst (settleOnce_not_elapsed sr (Nat.pos_of_ne_zero hm))]

end Sys2Proof.Proofs
end

section
/-! SUPPORT. The testable properties of the envelope (spec/41_envelope.md section 5), read off the ramps and settles of
the section before. Settles O29, O30 and O31. -/

namespace Sys2Proof.Proofs

open Sys2Proof.Machine Sys2Proof.Laws

/-! The attack. -/

@[simp] theorem envTrigger_samplesDone (sr : Nat) (e : Env) : (envTrigger sr e).samplesDone = 0 := rfl

@[simp] theorem envTrigger_samplesInState (sr : Nat) (e : Env) :
    (envTrigger sr e).samplesInState = msToSamples sr e.attack := rfl

section
variable (sr : Nat) (e : Env)

/-- What follows the attack of spec R96: Sustain when the decay has no sample, else Decay. -/
def attackEnd : Env :=
  if msToSamples sr e.decay = 0 then { e with state := .sustain, samplesDone := 0, samplesInState := 0 }
  else { e with state := .decay, samplesDone := 0, samplesInState := msToSamples sr e.decay }

theorem settle_after_attack :
    settle sr ((envNext sr)^[msToSamples sr e.attack] (envTrigger sr e)) = attackEnd sr e :=
  (settle_iterate_envNext (e := envTrigger sr e) (Nat.zero_le _)).trans (settle_attack rfl le_rfl)

theorem after_attack (h : 1 ≤ msToSamples sr e.attack) :
    (envNext sr)^[msToSamples sr e.attack] (envTrigger sr e) = attackEnd sr e :=
  (iterate_envNext_elapsed (e := envTrigger sr e) h).trans (settle_attack rfl le_rfl)

variable {sr e}

theorem attackEnd_of_zero (h : msToSamples sr e.decay = 0) :
    attackEnd sr e = { e with state := .sustain, samplesDone := 0, samplesInState := 0 } := if_pos h

theorem attackEnd_of_pos (h : 1 ≤ msToSamples sr e.decay) : attackEnd sr e =
    { e with state := .decay, samplesDone := 0, samplesInState := msToSamples sr e.decay } :=
  if_neg (by omega)

theorem attackEnd_amp_of_long (h : 2 ≤ msToSamples sr e.decay) : (attackEnd sr e).amp = 1 := by
  rw [attackEnd_of_pos (by omega), amp_decay rfl, ratio_start rfl h, mul_zero, add_zero]

theorem attackEnd_amp_of_short (h : msToSamples sr e.decay ≤ 1) : (attackEnd sr e).amp = e.sustain := by
  rcases Nat.eq_zero_or_pos (msToSamples sr e.decay) with h0 | h0
  · rw [attackEnd_of_zero h0, amp_sustain rfl]
  · rw [attackEnd_of_pos h0, amp_decay rfl, ratio_of_le_one h]
    ring

/-- A sample counted in the state the attack of none is left for. -/
theorem envNext_after_no_attack (h : msToSamples sr e.attack = 0) :
    envNext sr (envTrigger sr e) = settle sr (withDone ((attackEnd sr e).samplesDone + 1) (attackEnd sr e)) := by
  have hsettle := settle_after_attack sr e
  rw [h, Function.iterate_zero_apply] at hsettle
  rw [envNext, hsettle]
  rfl

end

/-- Settles O29: the ratio is the ramp, and after it stands what a settle out of the attack leaves. -/
theorem attackRampReachesOneThenDecays : Obligations.AttackRampReachesOneThenDecays := by
  unfold Obligations.AttackRampReachesOneThenDecays
  intro sr e n m after
  have hamp : envNextAmp sr (after n) = (attackEnd sr e).amp := congrArg Env.amp (settle_after_attack sr e)
  refine ⟨fun k hk => ?ramp, fun hm => hamp.trans (attackEnd_amp_of_long hm),
    fun hm => hamp.trans (attackEnd_amp_of_short hm), fun hn => ⟨fun hm => ?decay, fun hm => ?sustain⟩,
    fun hn => ⟨fun hm => ?decayAtOne, fun hm => ?throughDecay, fun hm => ?sustainAtOne⟩⟩
  case ramp =>
    have hlt : (envTrigger sr e).samplesDone + k < (envTrigger sr e).samplesInState := by simpa using hk
    rw [envNextAmp_ramp hlt, amp_attack (.inl rfl), ratio_withDone _ (Nat.one_le_of_lt hk), envTrigger_samplesDone,
      envTrigger_samplesInState, Nat.zero_add]
  case decay =>
    rw [show after n = attackEnd sr e from after_attack sr e hn, attackEnd_of_pos hm]
    exact ⟨rfl, rfl, rfl⟩
  case sustain =>
    rw [show after n = attackEnd sr e from after_attack sr e hn, attackEnd_of_zero hm]
    exact ⟨rfl, rfl⟩
  case decayAtOne =>
    rw [show after 1 = _ from envNext_after_no_attack hn, attackEnd_of_pos (by omega), settle_of_lt ?_]
    · exact ⟨rfl, rfl, rfl⟩
    · exact hm
  case throughDecay =>
    rw [show after 1 = _ from envNext_after_no_attack hn, attackEnd_of_pos hm.ge,
      settle_of_once (settleOnce_decay hm.le rfl) (settleOnce_untimed sr rfl)]
    exact ⟨rfl, rfl⟩
  case sustainAtOne =>
    rw [show after 1 = _ from envNext_after_no_attack hn, attackEnd_of_zero hm, settle_of_untimed rfl]
    exact ⟨rfl, rfl⟩

/-! The deferred release. -/

section
variable (sr : Nat) (e : Env)

/-- The envelope released in its attack after `j` samples (spec R90): the ramp goes on. -/
def releasedAttack (j : Nat) : Env :=
  { e with state := .attackReleasing, samplesDone := j, samplesInState := msToSamples sr e.attack }

/-- What follows an attack released in (spec R97): Off when the release has no sample, else Release from level 1. -/
def releasedAttackEnd : Env :=
  if msToSamples sr e.release = 0
  then { e with state := .off, releaseLevel := 1, samplesDone := 0, samplesInState := 0 }
  else { e with state := .release, releaseLevel := 1, samplesDone := 0, samplesInState := msToSamples sr e.release }

theorem settle_after_releasedAttack {j : Nat} (h : j ≤ msToSamples sr e.attack) :
    settle sr ((envNext sr)^[msToSamples sr e.attack - j] (releasedAttack sr e j)) = releasedAttackEnd sr e :=
  (settle_iterate_envNext (e := releasedAttack sr e j) h).trans (settle_attackReleasing rfl le_rfl)

theorem after_releasedAttack {j : Nat} (h : j < msToSamples sr e.attack) :
    (envNext sr)^[msToSamples sr e.attack - j] (releasedAttack sr e j) = releasedAttackEnd sr e :=
  (iterate_envNext_elapsed (e := releasedAttack sr e j) h).trans (settle_attackReleasing rfl le_rfl)

variable {sr e}

theorem envRelease_in_attack {j : Nat} (h : j < msToSamples sr e.attack ∨ msToSamples sr e.attack = 0 ∧ j = 0) :
    envRelease sr ((envNext sr)^[j] (envTrigger sr e)) = releasedAttack sr e j := by
  have hafter : (envNext sr)^[j] (envTrigger sr e) = withDone j (envTrigger sr e) := by
    rcases h with h | ⟨-, rfl⟩
    · rw [iterate_envNext_of_lt (by simpa using h), envTrigger_samplesDone, Nat.zero_add]
    · rfl
  rw [hafter, envRelease_of_attack sr rfl]
  rfl

theorem releasedAttackEnd_of_zero (h : msToSamples sr e.release = 0) : releasedAttackEnd sr e =
    { e with state := .off, releaseLevel := 1, samplesDone := 0, samplesInState := 0 } := if_pos h

theorem releasedAttackEnd_of_pos (h : 1 ≤ msToSamples sr e.release) : releasedAttackEnd sr e =
    { e with state := .release, releaseLevel := 1, samplesDone := 0, samplesInState := msToSamples sr e.release } :=
  if_neg (by omega)

theorem releasedAttackEnd_counters :
    (releasedAttackEnd sr e).releaseLevel = 1 ∧ (releasedAttackEnd sr e).samplesDone = 0 := by
  unfold releasedAttackEnd
  split <;> exact ⟨rfl, rfl⟩

theorem releasedAttackEnd_amp_of_long (h : 2 ≤ msToSamples sr e.release) : (releasedAttackEnd sr e).amp = 1 := by
  rw [releasedAttackEnd_of_pos (by omega), amp_release rfl, ratio_start rfl h, sub_zero, mul_one]

theorem releasedAttackEnd_amp_of_short (h : msToSamples sr e.release ≤ 1) : (releasedAttackEnd sr e).amp = 0 := by
  rcases Nat.eq_zero_or_pos (msToSamples sr e.release) with h0 | h0
  · rw [releasedAttackEnd_of_zero h0, amp_off rfl]
  · rw [releasedAttackEnd_of_pos h0, amp_release rfl, ratio_of_le_one h, sub_self, mul_zero]

/-- A sample counted in the state the attack of none is left for. -/
theorem envNext_after_no_releasedAttack (h : msToSamples sr e.attack = 0) :
    envNext sr (releasedAttack sr e 0) = settle sr (withDone 1 (releasedAttackEnd sr e)) := by
  have hsettle := settle_after_releasedAttack sr e (Nat.zero_le _)
  obtain ⟨-, hdone⟩ := releasedAttackEnd_counters (sr := sr) (e := e)
  rw [h, Nat.sub_zero, Function.iterate_zero_apply] at hsettle
  rw [envNext, hsettle, hdone]
  rfl

end

/-- Settles O30: the ramp goes on by the same ratio, and after it stands what a settle out of it leaves. -/
theorem releaseDuringAttackCompletesTheRamp : Obligations.ReleaseDuringAttackCompletesTheRamp := by
  unfold Obligations.ReleaseDuringAttackCompletesTheRamp
  intro sr e j n m after released hj
  have hreleased (k : Nat) : released k = (envNext sr)^[k] (releasedAttack sr e j) :=
    congrArg (envNext sr)^[k] (envRelease_in_attack hj)
  have hle : j ≤ n := by omega
  have hamp : envNextAmp sr (released (n - j)) = (releasedAttackEnd sr e).amp := by
    rw [hreleased]
    exact congrArg Env.amp (settle_after_releasedAttack sr e hle)
  refine ⟨by rw [hreleased]; rfl, by rw [hreleased]; rfl, by rw [hreleased]; rfl, fun k hk => ?ramp,
    fun hm => hamp.trans (releasedAttackEnd_amp_of_long hm), fun hm => hamp.trans (releasedAttackEnd_amp_of_short hm),
    fun hn => ?ended, fun hn => ?none⟩
  case ramp =>
    have hlt : (envTrigger sr e).samplesDone + (j + k) < (envTrigger sr e).samplesInState := by simpa using hk
    rw [hreleased, envNextAmp_ramp (e := releasedAttack sr e j) hk, envNextAmp_ramp hlt, amp_attack (.inr rfl),
      amp_attack (.inl rfl), envTrigger_samplesDone, Nat.zero_add]
    rfl
  case ended =>
    obtain ⟨hlevel, hdone⟩ := releasedAttackEnd_counters (sr := sr) (e := e)
    rw [hreleased, show (envNext sr)^[n - j] _ = _ from after_releasedAttack sr e (by omega)]
    refine ⟨hlevel, hdone, fun hm => ?_, fun hm => ?_⟩
    · rw [releasedAttackEnd_of_pos hm]
      exact ⟨rfl, rfl⟩
    · rw [releasedAttackEnd_of_zero hm]
  case none =>
    obtain rfl : j = 0 := by omega
    rw [show released 1 = _ from (hreleased 1).trans (envNext_after_no_releasedAttack hn)]
    refine ⟨?level, fun hm => ?inRelease, fun hm => ?throughRelease, fun hm => ?off⟩
    case level =>
      exact settle_releaseLevel (· = 1) rfl (e := withDone 1 (releasedAttackEnd sr e)) releasedAttackEnd_counters.1
    case inRelease =>
      rw [releasedAttackEnd_of_pos (by omega), settle_of_lt ?_]
      · exact ⟨rfl, rfl, rfl⟩
      · exact hm
    case throughRelease =>
      rw [releasedAttackEnd_of_pos hm.ge, settle_of_once (settleOnce_release hm.le rfl) (settleOnce_untimed sr rfl)]
      exact ⟨rfl, rfl⟩
    case off =>
      rw [releasedAttackEnd_of_zero hm, settle_of_untimed rfl]
      exact ⟨rfl, rfl⟩

/-! Decay, and release from Sustain. -/

section
variable {sr : Nat} {e : Env}

/-- The decay ramp from 1 to sustain. -/
theorem amp_decay_withDone (hs : e.state = .decay) (k : Nat) (hlong : 1 ≤ e.samplesInState) :
    (withDone k e).amp = if e.samplesInState = 1 then e.sustain
      else 1 + (e.sustain - 1) * ((k : Quantity) / ((e.samplesInState - 1 : Nat) : Quantity)) := by
  rw [amp_decay (e := withDone k e) hs, ratio_withDone k hlong]
  split
  · show 1 + (e.sustain - 1) * 1 = e.sustain
    ring
  · rfl

/-- The release ramp from its level to 0. -/
theorem amp_release_withDone (hs : e.state = .release) (k : Nat) (hlong : 1 ≤ e.samplesInState) :
    (withDone k e).amp = if e.samplesInState = 1 then 0
      else e.releaseLevel * (1 - (k : Quantity) / ((e.samplesInState - 1 : Nat) : Quantity)) := by
  rw [amp_release (e := withDone k e) hs, ratio_withDone k hlong]
  split
  · rw [sub_self, mul_zero]
  · rfl

theorem ratio_lastSample_withDone (h : 1 ≤ e.samplesInState) : (withDone (e.samplesInState - 1) e).ratio = 1 :=
  ratio_lastSample (e := withDone (e.samplesInState - 1) e) (Nat.sub_add_cancel h)

theorem amp_decay_lastSample (hs : e.state = .decay) (h : 1 ≤ e.samplesInState) :
    (withDone (e.samplesInState - 1) e).amp = e.sustain := by
  rw [amp_decay (e := withDone (e.samplesInState - 1) e) hs, ratio_lastSample_withDone h, mul_one]
  exact add_sub_cancel 1 e.sustain

theorem amp_release_lastSample (hs : e.state = .release) (h : 1 ≤ e.samplesInState) :
    (withDone (e.samplesInState - 1) e).amp = 0 := by
  rw [amp_release (e := withDone (e.samplesInState - 1) e) hs, ratio_lastSample_withDone h, sub_self, mul_zero]

theorem envNextAmp_lastSample (h : e.samplesDone < e.samplesInState) :
    envNextAmp sr ((envNext sr)^[e.samplesInState - 1 - e.samplesDone] e) =
      (withDone (e.samplesInState - 1) e).amp := by
  rw [envNextAmp_ramp (by omega),
    show e.samplesDone + (e.samplesInState - 1 - e.samplesDone) = e.samplesInState - 1 by omega]

/-- The last sample of Decay is followed by Sustain, both counters 0 (spec R98). -/
theorem after_decay (hs : e.state = .decay) (h : e.samplesDone < e.samplesInState) :
    (envNext sr)^[e.samplesInState - e.samplesDone] e =
      { e with state := .sustain, samplesDone := 0, samplesInState := 0 } :=
  (iterate_envNext_elapsed h).trans
    (settle_of_once (settleOnce_decay (e := withDone e.samplesInState e) le_rfl hs) (settleOnce_untimed sr rfl))

/-- A release that has elapsed, be it of no sample, settles into Off (spec R99). -/
theorem settle_release (hs : e.state = .release) (h : e.samplesInState ≤ e.samplesDone) :
    settle sr e = { e with state := .off, samplesDone := 0, samplesInState := 0 } :=
  settle_of_once (settleOnce_release h hs) (settleOnce_untimed sr rfl)

theorem after_release (hs : e.state = .release) (h : e.samplesDone < e.samplesInState) :
    (envNext sr)^[e.samplesInState - e.samplesDone] e =
      { e with state := .off, samplesDone := 0, samplesInState := 0 } :=
  (iterate_envNext_elapsed h).trans (settle_release (e := withDone e.samplesInState e) hs le_rfl)

/-- Sustain and Off hold: their amplitude does not depend on the samples counted. -/
theorem envNextAmp_iterate_of_untimed (h : e.state.timed = false) (k : Nat) :
    envNextAmp sr ((envNext sr)^[k] e) = (withDone (e.samplesDone + k) e).amp := by
  rw [iterate_envNext_of_untimed h]
  exact envNextAmp_of_untimed (e := withDone (e.samplesDone + k) e) h

end

/-- The envelope released from Sustain: the release at its start, from the sustain level (spec R90). -/
def releasedSustain (sr : Nat) (e : Env) : Env :=
  { e with state := .release, releaseLevel := e.sustain, samplesDone := 0, samplesInState := msToSamples sr e.release }

/-- Settles O31: each clause is a ramp, or the settle out of one, or an untimed state that only counts. -/
theorem decaySustainReleaseOffBySample : Obligations.DecaySustainReleaseOffBySample := by
  unfold Obligations.DecaySustainReleaseOffBySample
  intro sr e after n released m
  have hreleased (hs : e.state = .sustain) (k : Nat) : released k = (envNext sr)^[k] (releasedSustain sr e) :=
    congrArg (envNext sr)^[k] (envRelease_of_sustain sr hs)
  refine ⟨rfl, rfl, settle_settled sr _, fun hs hlt => ?decay, fun hs k => ?sustain, fun hs k => ?off,
    fun hs => ⟨?level, fun k hk => ?ramp, fun hm => ?ended, fun hm => ?none⟩⟩
  case decay =>
    have hlong : 1 ≤ e.samplesInState := Nat.one_le_of_lt hlt
    refine ⟨fun k hk => ⟨iterate_envNext_of_lt hk, ?_⟩, ?_, after_decay hs hlt⟩
    · exact (envNextAmp_ramp hk).trans (amp_decay_withDone hs _ hlong)
    · exact (envNextAmp_lastSample hlt).trans (amp_decay_lastSample hs hlong)
  case sustain =>
    have huntimed : e.state.timed = false := by rw [hs]; rfl
    exact ⟨iterate_envNext_of_untimed huntimed k,
      (envNextAmp_iterate_of_untimed huntimed k).trans (amp_sustain (e := withDone _ e) hs)⟩
  case off =>
    have huntimed : e.state.timed = false := by rw [hs]; rfl
    exact ⟨iterate_envNext_of_untimed huntimed k,
      (envNextAmp_iterate_of_untimed huntimed k).trans (amp_off (e := withDone _ e) hs)⟩
  case level => rw [envRelease_of_sustain sr hs]
  case ramp =>
    have hlt : (releasedSustain sr e).samplesDone + k < (releasedSustain sr e).samplesInState :=
      (Nat.zero_add k).trans_lt hk
    rw [hreleased hs, envNextAmp_ramp hlt, amp_release_withDone rfl _ (Nat.one_le_of_lt hlt)]
    simp only [releasedSustain, Nat.zero_add]
    rfl
  case ended =>
    have hlast := envNextAmp_lastSample (sr := sr) (e := releasedSustain sr e) hm
    have hoff := after_release (sr := sr) (e := releasedSustain sr e) rfl hm
    rw [hreleased hs, hreleased hs, show (envNext sr)^[m] _ = _ from hoff]
    exact ⟨hlast.trans (amp_release_lastSample rfl hm), rfl, rfl⟩
  case none =>
    have hsettle := settle_release (sr := sr) (e := releasedSustain sr e) rfl hm.le
    rw [hreleased hs, hreleased hs, Function.iterate_zero_apply, Function.iterate_one, envNextAmp, envNext, hsettle,
      settle_of_untimed rfl]
    exact ⟨amp_off rfl, rfl, rfl⟩

end Sys2Proof.Proofs
end

section
/-! SUPPORT. The oscillator's values and accumulators (spec R76 to R82) and the mix (R111, R112). Settles O17, O20, O21,
O22, O15 and O56. -/

namespace Sys2Proof.Proofs

open Sys2Proof.Machine Sys2Proof.Laws

/-! The accumulators, spec R81 and R82. -/

theorem oscAdvance_iterate_phasePerSample (o : Osc) (k : Nat) :
    (oscAdvance^[k] o).phasePerSample = o.phasePerSample := by
  induction k with
  | zero => rfl
  | succ k ih => rw [Function.iterate_succ_apply', ← ih]; rfl

/-- After an advance the phase is wrapped. -/
theorem frac_oscAdvance_phase (o : Osc) : frac (oscAdvance o).phase = (oscAdvance o).phase :=
  frac_of_unit (frac_nonneg _) (frac_lt_one _)

/-- The accumulation law up to a wrap, which the start may need. -/
theorem frac_oscAdvance_iterate_phase (o : Osc) (k : Nat) :
    frac (oscAdvance^[k] o).phase = frac (o.phase + (k : Quantity) * o.phasePerSample) := by
  induction k with
  | zero => simp
  | succ k ih =>
    have hsum : o.phase + (k : Quantity) * o.phasePerSample + o.phasePerSample =
        o.phase + ((k + 1 : Nat) : Quantity) * o.phasePerSample := by
      push_cast
      ring
    calc frac (oscAdvance^[k + 1] o).phase
        = frac ((oscAdvance^[k] o).phase + o.phasePerSample) := by
          rw [Function.iterate_succ_apply', frac_oscAdvance_phase, oscAdvance, oscAdvance_iterate_phasePerSample]
      _ = frac (frac (oscAdvance^[k] o).phase + o.phasePerSample) := (frac_frac_add _ _).symm
      _ = frac (o.phase + (k : Quantity) * o.phasePerSample + o.phasePerSample) := by rw [ih, frac_frac_add]
      _ = frac (o.phase + ((k + 1 : Nat) : Quantity) * o.phasePerSample) := by rw [hsum]

/-- Settles O17: after an advance both accumulators are wrapped, so the law holds without a further wrap. -/
theorem phaseAccumulates : Obligations.PhaseAccumulates := by
  unfold Obligations.PhaseAccumulates
  intro o k hk
  obtain ⟨k, rfl⟩ := Nat.exists_eq_succ_of_ne_zero (Nat.ne_of_gt hk)
  have hlaw := frac_oscAdvance_iterate_phase o (k + 1)
  rw [Function.iterate_succ_apply'] at hlaw ⊢
  refine ⟨?_, frac_nonneg _, frac_lt_one _, frac_nonneg _, frac_lt_one _⟩
  rwa [frac_oscAdvance_phase] at hlaw

/-! Values and draws, spec R75 to R80. -/

theorem oscValue_pulse {o : Osc} (h : o.waveform = .pulseWidth) (d : Draws) :
    oscValue o d = ⟨pulseValue o.phase o.parameter, d⟩ := by
  simp only [oscValue, h]

theorem oscValue_noise {o : Osc} (h : o.waveform = .noise) (d : Draws) :
    oscValue o d = ⟨noiseDraw d.noise, { d with noise := d.noise + 1 }⟩ := by
  simp only [oscValue, h]

theorem oscValue_saw_of_some {o : Osc} (h : o.waveform = .saw) {v : Quantity}
    (hv : sawValue o.phase o.parameter = some v) (d : Draws) : oscValue o d = ⟨v, d⟩ := by
  simp only [oscValue, h, hv]

theorem oscValue_saw_of_none {o : Osc} (h : o.waveform = .saw) (hv : sawValue o.phase o.parameter = none) (d : Draws) :
    oscValue o d = ⟨Config.freeSaw d.saw, { d with saw := d.saw + 1 }⟩ := by
  simp only [oscValue, h, hv]

/-- The tie of spec R79: the formula is 0/0. -/
theorem sawValue_tie : sawValue (1 / 2) 1 = none := by
  rw [sawValue, foldedPhase_half]
  simp

/-- At parameter 1 the ramp never falls: it is the folded phase. -/
theorem sawValue_one {phase : Quantity} (h : phase ≠ 1 / 2) : sawValue phase 1 =
    some (if phase > 1 / 2 then -(2 * min phase (1 - phase)) else 2 * min phase (1 - phase)) := by
  rw [sawValue_eq_foldedRamp (fun htie => h htie.2), foldedRamp, if_pos (foldedPhase_lt_one h), div_one,
    foldedPhase_eq_min]
  split <;> simp

/-- Settles O20: the tie is the one case without a value; elsewhere at parameter 1 the ramp is the folded phase. -/
theorem sawUnspecifiedOnlyAtTheTie : Obligations.SawUnspecifiedOnlyAtTheTie := by
  unfold Obligations.SawUnspecifiedOnlyAtTheTie
  refine ⟨fun o d hw hpar hphase => ?tie, fun phase _ _ => sawValue_one⟩
  case tie =>
    have hnone : sawValue o.phase o.parameter = none := by rw [hphase, hpar, sawValue_tie]
    rw [oscValue_saw_of_none hw hnone, ← hphase, ← hpar]
    exact ⟨rfl, rfl, rfl, rfl⟩

theorem foldedPhase_nonneg {phase : Quantity} (h0 : 0 ≤ phase) (h1 : phase < 1) : 0 ≤ foldedPhase phase := by
  rw [foldedPhase_eq_min]
  have : 0 ≤ min phase (1 - phase) := le_min h0 (by linarith)
  linarith

theorem foldedPhase_le_one (phase : Quantity) : foldedPhase phase ≤ 1 := by
  rcases eq_or_ne phase (1 / 2) with rfl | h
  · exact foldedPhase_half.le
  · exact (foldedPhase_lt_one h).le

/-- The ramp up and the ramp down are both in [0, 1] for a parameter below 1. -/
theorem foldedRamp_unit {p parameter : Quantity} (hp0 : 0 ≤ p) (hp1 : p ≤ 1) (hpar : 0 ≤ parameter)
    (h : p < parameter ∨ parameter < 1) : 0 ≤ foldedRamp p parameter ∧ foldedRamp p parameter ≤ 1 := by
  unfold foldedRamp
  split
  · rename_i hlt
    exact ⟨div_nonneg hp0 hpar, (div_le_one (hp0.trans_lt hlt)).2 hlt.le⟩
  · rename_i hge
    have hlt : parameter < 1 := h.resolve_left hge
    have hpos : 0 < 1 - parameter := sub_pos.2 hlt
    exact ⟨div_nonneg (by linarith) hpos.le, (div_le_one hpos).2 (by linarith)⟩

/-- Off the tie the Saw is a value of [0, 1], negated in the second half-cycle. -/
theorem sawValue_unit {phase parameter : Quantity} (h0 : 0 ≤ phase) (h1 : phase < 1) (hpar : 0 ≤ parameter)
    (htie : ¬ (parameter = 1 ∧ phase = 1 / 2)) :
    ∃ v, sawValue phase parameter = some (if phase > 1 / 2 then -v else v) ∧ 0 ≤ v ∧ v ≤ 1 := by
  have hp := foldedPhase_le_one phase
  have hcase : foldedPhase phase < parameter ∨ parameter < 1 := by
    rcases foldedPhase_lt_or_ne_one htie with h | h
    · exact .inl h
    · exact (lt_or_gt_of_ne h).symm.imp_left hp.trans_lt
  refine ⟨foldedRamp (foldedPhase phase) parameter, ?_, foldedRamp_unit (foldedPhase_nonneg h0 h1) hp hpar hcase⟩
  rw [sawValue_eq_foldedRamp htie]
  split <;> simp

theorem sawValue_abs_le_one {phase parameter : Quantity} (h0 : 0 ≤ phase) (h1 : phase < 1) (hpar : 0 ≤ parameter)
    (htie : ¬ (parameter = 1 ∧ phase = 1 / 2)) : ∃ v, sawValue phase parameter = some v ∧ -1 ≤ v ∧ v ≤ 1 := by
  obtain ⟨v, hv, hv0, hv1⟩ := sawValue_unit h0 h1 hpar htie
  refine ⟨_, hv, ?_⟩
  split
  · exact ⟨neg_le_neg hv1, by linarith⟩
  · exact ⟨by linarith, hv1⟩

/-- Above 1 the parameter is never reached, so neither is 1. -/
theorem sawValue_above_one {phase parameter : Quantity} (h0 : 0 ≤ phase) (h1 : phase < 1) (hpar : 1 < parameter) :
    ∃ v, sawValue phase parameter = some (if phase > 1 / 2 then -v else v) ∧ 0 ≤ v ∧ v < 1 := by
  have hlt : foldedPhase phase < parameter := (foldedPhase_le_one phase).trans_lt hpar
  have hpos : 0 < parameter := zero_lt_one.trans hpar
  refine ⟨foldedPhase phase / parameter, ?_, div_nonneg (foldedPhase_nonneg h0 h1) hpos.le, (div_lt_one hpos).2 hlt⟩
  rw [sawValue_eq_foldedRamp (fun htie => hpar.ne' htie.1), foldedRamp, if_pos hlt]
  split <;> simp

theorem pulseValue_one_or_neg_one (phase parameter : Quantity) :
    pulseValue phase parameter = 1 ∨ pulseValue phase parameter = -1 := by
  rcases lt_or_ge parameter phase with h | h
  · exact .inl (pulseValue_of_gt h)
  · exact .inr (pulseValue_of_le h)

theorem oscValue_bounded {o : Osc} (d : Draws) (h0 : 0 ≤ o.phase) (h1 : o.phase < 1) (hpar : 0 ≤ o.parameter)
    (htie : ¬ (o.waveform = .saw ∧ o.parameter = 1 ∧ o.phase = 1 / 2)) :
    -1 ≤ (oscValue o d).value ∧ (oscValue o d).value ≤ 1 := by
  cases hw : o.waveform with
  | pulseWidth =>
    rw [oscValue_pulse hw]
    rcases pulseValue_one_or_neg_one o.phase o.parameter with h | h <;> rw [h] <;> norm_num
  | saw =>
    obtain ⟨v, hv, hbound⟩ := sawValue_abs_le_one h0 h1 hpar fun h => htie ⟨hw, h⟩
    rw [oscValue_saw_of_some hw hv]
    exact hbound
  | noise =>
    rw [oscValue_noise hw]
    exact noiseDraw_unit d.noise

/-- Settles O21: by waveform; the Saw by the parameter's side of 1. -/
theorem oscillatorValuesAreBounded : Obligations.OscillatorValuesAreBounded := by
  unfold Obligations.OscillatorValuesAreBounded
  exact ⟨fun phase parameter h0 h1 hpar =>
      ⟨fun hlt => sawValue_abs_le_one h0 h1 hpar fun htie => hlt.ne htie.1, sawValue_above_one h0 h1⟩,
    pulseValue_one_or_neg_one, noiseDraw_unit, fun o d => oscValue_bounded d⟩

/-- Settles O22: the Noise value reads the draw counter alone, and no other waveform moves it. -/
theorem noiseTakesOneDrawPerSample : Obligations.NoiseTakesOneDrawPerSample := by
  unfold Obligations.NoiseTakesOneDrawPerSample
  intro o d
  refine ⟨fun hw => ?noise, fun hw => ?other⟩
  case noise =>
    obtain ⟨hlow, hhigh⟩ := noiseDraw_unit d.noise
    rw [oscValue_noise hw]
    exact ⟨hlow, hhigh, rfl, fun phase parameter => oscValue_noise (o := { o with phase, parameter }) hw d⟩
  case other =>
    cases hwave : o.waveform with
    | pulseWidth => rw [oscValue_pulse hwave]
    | noise => exact absurd hwave hw
    | saw =>
      cases hv : sawValue o.phase o.parameter with
      | some v => rw [oscValue_saw_of_some hwave hv]
      | none => rw [oscValue_saw_of_none hwave hv]

/-! The mix, spec R111 and R112. -/

/-- The free values taken before each voice and after the last, in index order (spec R50). -/
def drawsFrom (sr : Nat) (d : Draws) (vs : List Voice) : List Draws :=
  vs.scanl (fun d v => (voiceSample sr v d).draws) d

theorem drawsFrom_cons (sr : Nat) (d : Draws) (v : Voice) (vs : List Voice) :
    drawsFrom sr d (v :: vs) = d :: drawsFrom sr (voiceSample sr v d).draws vs := List.scanl_cons

theorem mixFrom_draws (sr : Nat) (vs : List Voice) (d : Draws) (acc : Quantity) :
    (mixFrom sr vs d acc).draws = vs.foldl (fun d v => (voiceSample sr v d).draws) d := by
  induction vs generalizing d acc with
  | nil => rfl
  | cons v vs ih => exact ih _ _

theorem mixFrom_cons_sum (sr : Nat) (v : Voice) (vs : List Voice) (d : Draws) :
    (mixFrom sr (v :: vs) d 0).sum = (voiceSample sr v d).value + (mixFrom sr vs (voiceSample sr v d).draws 0).sum := by
  rw [mixFrom, zero_add]
  exact (mixFrom_acc _ _ _ _).1

theorem mixFrom_sum (sr : Nat) (vs : List Voice) (d : Draws) : (mixFrom sr vs d 0).sum =
    (List.zipWith (fun v d => (voiceSample sr v d).value) vs (drawsFrom sr d vs)).sum := by
  induction vs generalizing d with
  | nil => rfl
  | cons v vs ih =>
    rw [mixFrom_cons_sum, ih, drawsFrom_cons, List.zipWith_cons_cons, List.sum_cons]

/-- Settles O15: the list of draws is the running one, `drawsFrom`. -/
theorem mixSumsVoicesInIndexOrder : Obligations.MixSumsVoicesInIndexOrder := by
  unfold Obligations.MixSumsVoicesInIndexOrder
  intro s
  refine ⟨by simp [mix_voices, State.nVoices], fun i v hv => by simp [mix_voices, hv],
    drawsFrom s.cfg.sampleRate s.draws s.voices, ?length, ?first, ?last, fun i v d hv hd => ?next, mixFrom_sum _ _ _⟩
  case length => simp [drawsFrom, State.nVoices]
  case first => simp [drawsFrom]
  case last =>
    rw [drawsFrom, List.getElem?_scanl, State.nVoices, if_pos le_rfl, List.take_length]
    exact congrArg some (mixFrom_draws _ _ _ _).symm
  case next => rw [drawsFrom, List.getElem?_succ_scanl, ← drawsFrom, hd, hv, Option.bind_some, Option.map_some]

theorem mixFrom_abs_le (sr : Nat) {vs : List Voice} (d : Draws)
    (h : ∀ v ∈ vs, ∀ d, |(voiceSample sr v d).value| ≤ v.velocity) :
    |(mixFrom sr vs d 0).sum| ≤ (vs.map (·.velocity)).sum := by
  induction vs generalizing d with
  | nil => simp [mixFrom]
  | cons v vs ih =>
    rw [mixFrom_cons_sum, List.map_cons, List.sum_cons]
    exact (abs_add_le _ _).trans
      (add_le_add (h v List.mem_cons_self d) (ih _ fun w hw => h w (List.mem_cons_of_mem v hw)))

/-- Settles O56: each voice's sample is within its velocity, whatever the draws. -/
theorem mixIsBoundedByTheVelocities : Obligations.MixIsBoundedByTheVelocities := by
  unfold Obligations.MixIsBoundedByTheVelocities
  rintro s ⟨-, -, hvoices, -⟩ hlevels
  refine abs_le.1 (mixFrom_abs_le s.cfg.sampleRate s.draws fun v hv d => ?_)
  obtain ⟨⟨hphase0, hphase1, -, hpar, -⟩, henv, hvel⟩ := hvoices v hv
  obtain ⟨hsustain, hlevel, htie⟩ := hlevels v hv
  obtain ⟨hamp0, hamp1⟩ := envNextAmp_unit s.cfg.sampleRate henv hsustain hlevel
  exact abs_voiceSample_le_velocity (abs_le.2 (oscValue_bounded d hphase0 hphase1 hpar htie)) hamp0 hamp1 hvel

end Sys2Proof.Proofs
end

section
/-! SUPPORT. The configuration, flow and per-voice commands as writes or value faults (spec R127 to R138), and gate
commands repeated (R144). Settles O32, O33, O34, O36, O37, O38, O39, O40, O44 and O46. -/

namespace Sys2Proof.Proofs

open Sys2Proof.Machine Sys2Proof.Laws

/-! `Cv` and `Ct`, spec R127 and R128. -/

theorem exec_cv_zero {n : IntLit} (s : State) (h : n.value = 0) :
    exec (.cv n) s = .next (raiseValueFault .eConfig (.value 0) s) := by
  show execCv n s = _
  simp [execCv, h]

theorem exec_cv_above {n : IntLit} {s : State} (h : s.cfg.maxVoices < n.value) (h0 : n.value ≠ 0) :
    exec (.cv n) s = .next (raiseValueFault .eAlloc (.value n.value) s) := by
  show execCv n s = _
  rw [execCv, if_neg h0, if_pos h]

theorem exec_cv_bank {n : IntLit} {s : State} (h0 : 1 ≤ n.value) (h : n.value ≤ s.cfg.maxVoices) :
    exec (.cv n) s = .next { s with
      voices := List.replicate n.value voiceInit, seq := { s.seq with sel := .single 0 } } := by
  show execCv n s = _
  rw [execCv, if_neg (by omega), if_neg h.not_gt]

/-- Settles O32: the two checks, and a fresh bank with the selector on its first voice. -/
theorem cvReplacesTheBank : Obligations.CvReplacesTheBank := by
  unfold Obligations.CvReplacesTheBank
  intro n s
  refine ⟨fun h => ?zero, fun h h0 => ?above, fun h0 h => ?bank⟩
  case zero => exact ⟨_, exec_cv_zero s h, raiseValueFault_faultEntered _ _ s⟩
  case above => exact ⟨_, exec_cv_above h h0, raiseValueFault_faultEntered _ _ s⟩
  case bank =>
    exact ⟨_, exec_cv_bank h0 h, List.length_replicate, fun i v => freshBank_registers, rfl,
      ⟨rfl, fun _ => rfl, rfl, rfl, rfl, rfl⟩, rfl, rfl⟩

/-- The tick length is 0 exactly for an operand above 60 sample rates, or for 0. -/
theorem samplesPerTickFor_eq_zero_iff (c : Config) (tpm : Nat) :
    samplesPerTickFor c tpm = 0 ↔ tpm = 0 ∨ 60 * c.sampleRate < tpm :=
  Nat.div_eq_zero_iff

theorem exec_ct_fault {n : IntLit} {s : State} (h : n.value = 0 ∨ 60 * s.cfg.sampleRate < n.value) :
    exec (.ct n) s = .next (raiseValueFault .eConfig (.value n.value) s) := by
  show execCt n s = _
  rw [execCt, if_pos ((samplesPerTickFor_eq_zero_iff _ _).2 h), ite_self]

theorem exec_ct_tempo {n : IntLit} {s : State} (h0 : 1 ≤ n.value) (h : n.value ≤ 60 * s.cfg.sampleRate) :
    exec (.ct n) s = .next { s with seq := { s.seq with samplesPerTick := 60 * s.cfg.sampleRate / n.value } } := by
  have hpos : samplesPerTickFor s.cfg n.value ≠ 0 := by
    rw [Ne, samplesPerTickFor_eq_zero_iff]
    omega
  show execCt n s = _
  rw [execCt, if_neg (by omega), if_neg hpos, samplesPerTickFor]

/-- Settles O33: the two checks are one on the operand, and otherwise the tick length is the quotient. -/
theorem ctSetsTheTickLength : Obligations.CtSetsTheTickLength := by
  unfold Obligations.CtSetsTheTickLength
  intro n s
  refine ⟨fun h => ⟨_, exec_ct_fault h, raiseValueFault_faultEntered _ _ s⟩, fun h0 h => ?tempo⟩
  case tempo =>
    exact ⟨_, exec_ct_tempo h0 h, rfl, (Nat.one_le_div_iff h0).2 h, Nat.div_mul_le_self _ _,
      (Nat.lt_mul_div_succ _ h0).trans_eq (Nat.mul_comm _ _), seqWrite_kept _ s⟩

/-! Flow commands and items without effect, spec R129 to R134. -/

theorem exec_tick (s : State) : exec .tick s = .next (endParse false s) := rfl

theorem exec_quit (s : State) : exec .quit s = .next (endParse true s) := rfl

theorem endParse_kept (stop : Bool) (s : State) :
    (endParse stop s).voices = s.voices ∧ PortsKept s (endParse stop s) ∧ FaultKept s (endParse stop s) :=
  seqWrite_kept _ s

/-- Settles O34: both are `endParse`. -/
theorem markersEndTheParsePhase : Obligations.MarkersEndTheParsePhase := by
  unfold Obligations.MarkersEndTheParsePhase
  exact fun s => ⟨⟨_, exec_tick s, rfl, endParse_kept false s⟩, ⟨_, exec_quit s, rfl, endParse_kept true s⟩⟩

/-- Settles O36: each is `noEffect` on the state whose cursor has moved. -/
theorem skippedItemsChangeNothing : Obligations.SkippedItemsChangeNothing := by
  unfold Obligations.SkippedItemsChangeNothing
  exact fun body closed s => ⟨rfl, rfl, rfl, rfl, rfl, rfl, rfl⟩

/-! Per-voice commands, spec R135 to R138. -/

theorem exec_adsr (a d su r : FloatLit) (s : State) : exec (.adsr a d su r) s = .next (forTargets (fun v =>
    { v with env := { v.env with attack := a.value, decay := d.value, sustain := su.value, release := r.value } }) s) :=
  rfl

theorem exec_param (f : FloatLit) (s : State) :
    exec (.param f) s = .next (forTargets (fun v => { v with osc := { v.osc with parameter := f.value / 100 } }) s) :=
  rfl

theorem exec_vel (f : FloatLit) (s : State) :
    exec (.vel f) s = .next (forTargets (fun v => { v with velocity := f.value / 100 }) s) := rfl

theorem exec_note_of_ge {n : IntLit} (s : State) (h : 128 ≤ n.value) :
    exec (.note n) s = .next (raiseValueFault .eNote (.value n.value) s) :=
  if_pos h

/-- Settles O37: `A` is a write of the selected voices. -/
theorem aWritesTheFourAdsrRegisters : Obligations.AWritesTheFourAdsrRegisters := by
  unfold Obligations.AWritesTheFourAdsrRegisters
  exact fun a d su r s => ⟨_, exec_adsr a d su r s, forTargets_onlySelectedWritten _ s⟩

/-- Settles O38: `P` is a write of the selected voices. -/
theorem pWritesTheParameter : Obligations.PWritesTheParameter := by
  unfold Obligations.PWritesTheParameter
  exact fun f s => ⟨_, exec_param f s, forTargets_onlySelectedWritten _ s⟩

/-- Settles O39: `V` is a write of the selected voices. -/
theorem vWritesTheVelocity : Obligations.VWritesTheVelocity := by
  unfold Obligations.VWritesTheVelocity
  exact fun f s => ⟨_, exec_vel f s, forTargets_onlySelectedWritten _ s⟩

/-- Settles O40: below 128 `N` is a write of the selected voices, from 128 on a value fault. -/
theorem nWritesTheIncrement : Obligations.NWritesTheIncrement := by
  unfold Obligations.NWritesTheIncrement
  exact fun n s => ⟨fun h => ⟨_, exec_note_of_lt s h, forTargets_onlySelectedWritten _ s⟩,
    fun h => ⟨_, exec_note_of_ge s h, raiseValueFault_faultEntered _ _ s⟩⟩

/-- A voice of the bank after a write is a voice of the bank before it, written if it is selected (spec R124). -/
theorem forTargets_voice {f : Voice → Voice} {s : State} {i : Nat} {v : Voice}
    (h : (forTargets f s).voices[i]? = some v) :
    ∃ w, s.voices[i]? = some w ∧ v = if Selected s i then f w else w := by
  cases hw : s.voices[i]? with
  | none => simp [forTargets_getElem?, hw] at h
  | some w =>
    obtain ⟨⟨-, hwritten⟩, -⟩ := forTargets_onlySelectedWritten f s
    exact ⟨w, rfl, Option.some.inj (h.symm.trans (hwritten i w hw))⟩

/-- Settles O46: the selected voice holds 100/100, and the next advance wraps 1 to 0. -/
theorem p100HoldsForOneSample : Obligations.P100HoldsForOneSample := by
  unfold Obligations.P100HoldsForOneSample
  intro f s hf
  refine ⟨_, exec_param f s, fun i v hv hsel => ?_⟩
  obtain ⟨w, -, rfl⟩ := forTargets_voice hv
  rw [if_pos hsel]
  have hone : f.value / 100 = 1 := by rw [hf]; norm_num
  refine ⟨hone, fun hinc => ?_⟩
  show frac (f.value / 100 + w.osc.parameterPerSample) = 0
  rw [hone, hinc, add_zero, frac_eq_fract, Int.fract_one]

/-! Gate commands repeated, spec R144. -/

/-- Two writes of one selection are one, the second function after the first. -/
theorem forTargets_forTargets (f g : Voice → Voice) (s : State) :
    forTargets g (forTargets f s) = forTargets (g ∘ f) s := by
  have htargets : targets (forTargets f s) = targets s := by
    simp only [targets, State.nVoices, forTargets_seq, forTargets_length]
  have hvoices : (forTargets g (forTargets f s)).voices = (forTargets (g ∘ f) s).voices := by
    refine List.ext_getElem? fun i => ?_
    simp only [forTargets_getElem?, htargets]
    split
    · rw [Option.map_map]
    · rfl
  exact congrArg (fun vs => { s with voices := vs }) hvoices

theorem voiceRetrigger_idem (c : Config) : voiceRetrigger c ∘ voiceRetrigger c = voiceRetrigger c := rfl

/-- A released envelope is in no state a release acts on (spec R90). -/
theorem envRelease_state (sr : Nat) (e : Env) :
    (envRelease sr e).state = .attackReleasing ∨ (envRelease sr e).state = .release ∨
    (envRelease sr e).state = .off := by
  cases hs : e.state with
  | attack => exact .inl (by rw [envRelease_of_attack sr hs])
  | decay => exact .inr (.inl (by rw [envRelease_of_decay_or_sustain sr (.inl hs)]))
  | sustain => exact .inr (.inl (by rw [envRelease_of_sustain sr hs]))
  | attackReleasing => exact .inl (by rw [envRelease_of_released_or_off sr (.inl hs), hs])
  | release => exact .inr (.inl (by rw [envRelease_of_released_or_off sr (.inr (.inl hs)), hs]))
  | off => exact .inr (.inr (by rw [envRelease_of_released_or_off sr (.inr (.inr hs)), hs]))

theorem voiceRelease_idem (c : Config) : voiceRelease c ∘ voiceRelease c = voiceRelease c :=
  funext fun v => voiceRelease_of_envRelease (envRelease_of_released_or_off _ (envRelease_state c.sampleRate v.env))

/-- A release writes the state, the counters and the level, of which a trigger leaves the level alone (spec R89). -/
theorem envTrigger_envRelease (sr : Nat) (e : Env) : envTrigger sr (envRelease sr e) =
    { envTrigger sr e with releaseLevel := (envRelease sr e).releaseLevel } := by
  unfold envRelease
  split <;> rfl

theorem voiceRetrigger_voiceRelease (c : Config) (v : Voice) : voiceRetrigger c (voiceRelease c v) =
    { voiceRetrigger c v with env :=
        { (voiceRetrigger c v).env with releaseLevel := (voiceRetrigger c (voiceRelease c v)).env.releaseLevel } } :=
  congrArg (fun e => { v with env := e }) (envTrigger_envRelease c.sampleRate v.env)

/-- Settles O44: repeated writes compose, both gate writes are idempotent, and after a release the restart differs in
the level alone. -/
theorem gateCommandsRepeated : Obligations.GateCommandsRepeated := by
  unfold Obligations.GateCommandsRepeated
  intro s t r ht hr
  obtain rfl : forTargets (voiceRetrigger s.cfg) s = t := Host.Outcome.next.inj ht
  obtain rfl : forTargets (voiceRelease s.cfg) s = r := Host.Outcome.next.inj hr
  refine ⟨?twiceT, ?twiceR, _, exec_trigger _, rfl, ?length, fun i v w hv hw => ?voices⟩
  case twiceT => rw [exec_trigger, forTargets_cfg, forTargets_forTargets, voiceRetrigger_idem]
  case twiceR => rw [exec_release, forTargets_cfg, forTargets_forTargets, voiceRelease_idem]
  case length => simp [State.nVoices]
  case voices =>
    rw [forTargets_cfg, forTargets_forTargets] at hv
    obtain ⟨x, hx, rfl⟩ := forTargets_voice hv
    obtain ⟨y, hy, rfl⟩ := forTargets_voice hw
    obtain rfl : x = y := Option.some.inj (hx.symm.trans hy)
    refine ⟨fun hsel => ?_, fun hsel => ?_⟩
    · simp only [if_pos hsel]
      exact voiceRetrigger_voiceRelease s.cfg x
    · simp only [if_neg hsel]

end Sys2Proof.Proofs
end
